-- ==== Sys2Proof/Word.lean ====
section
/-! DEFINITION. The word types of the block: bytes on the wire, the 24-bit address of a frame and
the 32-bit operand registers (spec 00 R14, 20 R38, 10 R28). -/

namespace Sys2Proof

/-- A byte: 8 bits (00 R14). -/
abbrev Byte := BitVec 8

/-- The address of a frame: 24 bits (20 R38, 30 R66). -/
abbrev Addr24 := BitVec 24

/-- A host operand register. `x[addr]` is 32 bits; `x[len]` and `x[count]` have `HOST_WORD = 32`
bits (10 R28, 92 D30, log entry 26). -/
abbrev Word32 := BitVec 32

end Sys2Proof
end

