-- ==== Sys2Proof/Config.lean ====
section
/-! DEFINITION. The immutable configuration record `CFG` (spec 00 R8 to R11, 10 R18 to R20), the
reference variant `REF` of 00 R11, and the free values: constants with no body, one for each kind of
value the spec leaves open as a draw. -/

namespace Sys2Proof

/-- `CFG.geo`, the source's FlashGeometry: exactly eight fields (10 R19). The units of the four
durations are not stated and no rule reads them (92 D23). -/
structure Geometry where
  totalSize : Nat
  pageSize : Nat
  eraseBlockSize : Nat
  writeAlignment : Nat
  tByteProgram : Nat
  tPageProgram : Nat
  tSectorErase : Nat
  tCmdOverhead : Nat
  deriving DecidableEq, Repr

/-- `CFG.var`, the variant descriptor: six opcode bytes, the expected identity triplet, and the SPI
settings (10 R20). -/
structure Variant where
  opRead : Byte
  opProgram : Byte
  opErase : Byte
  opStatus : Byte
  opIdentify : Byte
  opWren : Byte
  id0 : Byte
  id1 : Byte
  id2 : Byte
  spiMode : Nat
  spiFreq : Nat
  deriving DecidableEq, Repr

/-- The six opcode bytes of a variant (30 R68). -/
def Variant.opcodes (v : Variant) : List Byte :=
  [v.opRead, v.opProgram, v.opErase, v.opStatus, v.opIdentify, v.opWren]

/-- `ZERO_LEN_POLICY` and `ZERO_COUNT_POLICY` (40 R82, R83): `refuse` is the spec's default;
`succeed` ends the operation with Success at an address of the array and OutOfRange at any other, with
no bus traffic and nothing changed but the result (40 R77, log entry 27). -/
inductive ZeroPolicy where
  | refuse
  | succeed
  deriving DecidableEq, Repr

/-- `PROG`, the device's program function on one byte, named by a selector so that the configuration
stays plain data (20 R59, 92 D21, log entry 10). -/
inductive ProgRule where
  /-- `old AND new`, the spec's reference device. -/
  | clearBits
  /-- `new`, under which the source's round trip holds without a premise. -/
  | overwrite
  /-- Only `PROG(0xFF, new) = new` is fixed; any other byte is a free value. -/
  | unstated
  deriving DecidableEq, Repr

/-- The configuration record `CFG` (00 R8). -/
structure Config where
  geo : Geometry
  var : Variant
  maxXfer : Nat
  idRetryMax : Nat
  destructiveTest : Bool
  txFill : Byte
  zeroLen : ZeroPolicy
  zeroCount : ZeroPolicy
  prog : ProgRule
  deriving DecidableEq, Repr

/-- FREE VALUE: a byte sampled while the device drives nothing the spec states: the byte times of
opcode, address and program data (41 R90), identity bytes of a device that is busy or not ready
(20 R56, R62), bytes of a page after a page-crossing program (93 U14). Applied to the draw counter. -/
opaque Config.freeByte : Nat → Byte

/-- FREE VALUE: whether a latch that may or may not change does (20 R57). Applied to the counter. -/
opaque Config.freeBit : Nat → Bool

/-- FREE VALUE: after how many of the machine's steps the device's engine completes an accepted
program or erase (20 R61, 93 U16). Applied to the counter. -/
opaque Config.freeDelay : Nat → Nat

/-- FREE VALUE: what programming leaves in a byte that was not erased, where the configuration does
not state it (20 R59, 91 N13). -/
opaque Config.freeProg : Byte → Byte → Byte

/-- The reference variant's geometry (00 R11). R11 gives the three sizes; the other five fields are
named values (log entry 2). -/
def refGeometry : Geometry where
  totalSize := 33554432
  pageSize := 256
  eraseBlockSize := 32768
  writeAlignment := 1
  tByteProgram := 1
  tPageProgram := 1
  tSectorErase := 1
  tCmdOverhead := 1

/-- The reference variant's opcodes and identity (00 R11). SPI mode and frequency are named values
(log entry 2). -/
def refVariant : Variant where
  opRead := 0x03
  opProgram := 0x02
  opErase := 0x52
  opStatus := 0x05
  opIdentify := 0x9F
  opWren := 0x06
  id0 := 0xA1
  id1 := 0xB2
  id2 := 0xC3
  spiMode := 3
  spiFreq := 1

/-- The reference configuration `REF` (00 R11), with the spec's defaults for the open policies and a
named filler byte (log entries 2, 10, 27). -/
def refConfig : Config where
  geo := refGeometry
  var := refVariant
  maxXfer := 255
  idRetryMax := 1000
  destructiveTest := false
  txFill := 0xA5
  zeroLen := .refuse
  zeroCount := .refuse
  prog := .clearBits

end Sys2Proof
end

