-- ==== Sys2Proof/Syntax.lean ====
section
/-! DEFINITION. The instructions: one constructor for each row of spec/opcode_table.json, and `Code`,
the three ways in which an instruction is named before it is decoded: a value of `x[op]`, a frame of
bytes, or (rows with no encoding) the event itself (spec 30 R63, R69, R70, R73). -/

namespace Sys2Proof

/-- One constructor per row of the opcode table, in the table's order. -/
inductive Instr where
  /-- CMD_WREN, format F1 (42 R97). -/
  | cmdWren
  /-- CMD_STATUS, format F1R2 (42 R98). -/
  | cmdStatus
  /-- CMD_IDENTIFY, format F1R4 (42 R99). -/
  | cmdIdentify
  /-- CMD_READ(A, n, dst), format F4Din (42 R100). -/
  | cmdRead (addr : Addr24) (n : Nat)
  /-- CMD_PROGRAM(A, n, src), format F4Dout; the operand is the frame's data bytes (42 R101). -/
  | cmdProgram (addr : Addr24) (data : List Byte)
  /-- CMD_ERASE(A), format F4 (42 R102). -/
  | cmdErase (addr : Addr24)
  /-- INIT, `x[op] = 0` (43 R105). -/
  | init
  /-- READ, `x[op] = 1` (44 R109). -/
  | read
  /-- WRITE, `x[op] = 2` (45 R111). -/
  | write
  /-- ERASE, `x[op] = 3` (46 R114). -/
  | erase
  /-- IS_BUSY, `x[op] = 4` (47 R117). -/
  | isBusy
  /-- GET_GEOMETRY, `x[op] = 5` (47 R119). -/
  | getGeometry
  /-- RESERVED_6, `x[op] = 6` (30 R71). -/
  | reserved6
  /-- RESERVED_7, `x[op] = 7` (30 R71). -/
  | reserved7
  /-- CS_ASSERT (41 R85). -/
  | csAssert
  /-- CS_DEASSERT (41 R86). -/
  | csDeassert
  /-- EXCHANGE(w, n) with its `async_flag` (41 R88, R92, R93). -/
  | exchange (w : List Byte) (n : Nat) (async : Bool)
  /-- BUSY_CHECK (42 R103). -/
  | busyCheck
  /-- WREN_HANDSHAKE (42 R104). -/
  | wrenHandshake
  /-- POLL, the host's loop (30 R73). -/
  | poll
  /-- SELFTEST (43 R107). -/
  | selftest
  deriving DecidableEq, Repr

/-- What names an instruction before decoding. -/
inductive Code where
  /-- A value of the 3-bit register `x[op]` (30 R70). -/
  | op (code : BitVec 3)
  /-- The outward bytes of one frame, in wire order (30 R63). -/
  | frame (bytes : List Byte)
  /-- A row of the table that has no encoding: a transport primitive or a pseudo-operation
  (30 R69, R73). -/
  | event (i : Instr)
  deriving DecidableEq, Repr

end Sys2Proof
end

