-- ==== Sys2Proof/WellFormed.lean ====
section
/-! DEFINITION. Well-formedness: of the configuration (spec 00 R10) and of an instruction's operands
under a configuration (spec 42 R100 to R102, 41 R88, R91). -/

namespace Sys2Proof

/-- `CFG` is well formed: the sizes divide sensibly, the bounds are positive, the SPI mode is 0 or 3
and the six opcode bytes are pairwise distinct (00 R10). DESIGN CHOICE (log entry 40): `write_alignment`,
typed "natural ≥ 1" by 00 R8, is not among R10's clauses, and 0 is admitted here too. -/
def Config.wf (c : Config) : Bool :=
  decide (1 ≤ c.geo.pageSize) && decide (1 ≤ c.geo.eraseBlockSize) &&
  decide (c.geo.eraseBlockSize ≤ c.geo.totalSize) && decide (c.geo.pageSize ≤ c.geo.totalSize) &&
  decide (1 ≤ c.maxXfer) && decide (1 ≤ c.idRetryMax) &&
  (c.var.spiMode == 0 || c.var.spiMode == 3) && decide c.var.opcodes.Nodup

/-- The operand domain that the rule of each instruction states; instructions without operands have
none to check. -/
def Instr.wellFormed (c : Config) : Instr → Bool
  | .cmdRead a n => decide (1 ≤ n) && decide (a.toNat + n ≤ c.geo.totalSize)
  | .cmdProgram a d =>
    decide (1 ≤ d.length) && decide (d.length ≤ c.geo.pageSize) &&
    decide (a.toNat % c.geo.pageSize + d.length ≤ c.geo.pageSize) &&
    decide (a.toNat + d.length ≤ c.geo.totalSize)
  | .cmdErase a =>
    decide (a.toNat % c.geo.eraseBlockSize = 0) &&
    decide (a.toNat + c.geo.eraseBlockSize ≤ c.geo.totalSize)
  | .exchange w n _ => decide (w.length ≤ c.maxXfer) && decide (n ≤ c.maxXfer)
  | .cmdWren => true
  | .cmdStatus => true
  | .cmdIdentify => true
  | .init => true
  | .read => true
  | .write => true
  | .erase => true
  | .isBusy => true
  | .getGeometry => true
  | .reserved6 => true
  | .reserved7 => true
  | .csAssert => true
  | .csDeassert => true
  | .busyCheck => true
  | .wrenHandshake => true
  | .poll => true
  | .selftest => true

end Sys2Proof
end

