-- ==== Sys2Proof/Decode.lean ====
section
/-! DEFINITION. The decoder and the encoder: frames of bytes on the wire (spec 30 R63 to R68), the
3-bit register `x[op]` (30 R70, R71), and the rows that have no encoding (30 R69, R73). -/

namespace Sys2Proof

/-- Why bytes are no instruction. -/
inductive DecodeError where
  /-- A frame of no byte at all. -/
  | emptyFrame
  /-- Byte 0 is none of the variant's six opcodes (30 R71). -/
  | unknownOpcode (b : Byte)
  /-- A frame of the opcode's format has another number of byte times (30 R63). -/
  | wrongLength (opcode : Byte)
  /-- A read or program header with no data byte time after it (30 R63: `1 ≤ n`). -/
  | noDataByte (opcode : Byte)
  /-- The instruction has an encoding and cannot be given as a bare event (30 R69, R73). -/
  | notAnEvent
  deriving DecidableEq, Repr

/-- The three address bytes of a header, in wire order: `A[23:16]`, `A[15:8]`, `A[7:0]`
(30 R64, R66). -/
def addrBytes (a : Addr24) : List Byte :=
  [a.extractLsb' 16 8, a.extractLsb' 8 8, a.extractLsb' 0 8]

/-- The address a header's three address bytes name: `a2 ++ a1 ++ a0` (20 R58, 30 R64). -/
def addrOfBytes (a2 a1 a0 : Byte) : Addr24 :=
  (a2 ++ a1 ++ a0 : BitVec (8 + 8 + 8))

/-- The 32-bit header `H` of 30 R64: `H[31:24]` is the opcode and `H[23:0]` the address. Its bit 31 is
the first on the wire. -/
def headerWord (op : Byte) (a : Addr24) : BitVec 32 :=
  op ++ a

/-- The instruction a value of `x[op]` selects (30 R70, R71). -/
def decodeOp (code : BitVec 3) : Instr :=
  if code = 0 then .init
  else if code = 1 then .read
  else if code = 2 then .write
  else if code = 3 then .erase
  else if code = 4 then .isBusy
  else if code = 5 then .getGeometry
  else if code = 6 then .reserved6
  else .reserved7

/-- The wire command that a frame's outward bytes are, under a variant's opcodes (30 R63, R65, R68).
Filler bytes are not looked at: they carry nothing (92 D5, log entry 35). -/
def decodeFrame (v : Variant) : List Byte → Except DecodeError Instr
  | [] => .error .emptyFrame
  | op :: rest =>
    if op = v.opWren then
      if rest = [] then .ok .cmdWren else .error (.wrongLength op)
    else if op = v.opStatus then
      if rest.length = 1 then .ok .cmdStatus else .error (.wrongLength op)
    else if op = v.opIdentify then
      if rest.length = 3 then .ok .cmdIdentify else .error (.wrongLength op)
    else if op = v.opErase then
      match rest with
      | [a2, a1, a0] => .ok (.cmdErase (addrOfBytes a2 a1 a0))
      | _ => .error (.wrongLength op)
    else if op = v.opRead then
      match rest with
      | a2 :: a1 :: a0 :: fill =>
        if fill = [] then .error (.noDataByte op)
        else .ok (.cmdRead (addrOfBytes a2 a1 a0) fill.length)
      | _ => .error (.wrongLength op)
    else if op = v.opProgram then
      match rest with
      | a2 :: a1 :: a0 :: data =>
        if data = [] then .error (.noDataByte op)
        else .ok (.cmdProgram (addrOfBytes a2 a1 a0) data)
      | _ => .error (.wrongLength op)
    else .error (.unknownOpcode op)

/-- Whether a row of the table has no encoding: the primitives and the pseudo-operations
(30 R69, R73). -/
def isEvent : Instr → Bool
  | .csAssert => true
  | .csDeassert => true
  | .exchange _ _ _ => true
  | .busyCheck => true
  | .wrenHandshake => true
  | .poll => true
  | .selftest => true
  | .cmdWren => false
  | .cmdStatus => false
  | .cmdIdentify => false
  | .cmdRead _ _ => false
  | .cmdProgram _ _ => false
  | .cmdErase _ => false
  | .init => false
  | .read => false
  | .write => false
  | .erase => false
  | .isBusy => false
  | .getGeometry => false
  | .reserved6 => false
  | .reserved7 => false

/-- The decoder: total on every `Code`, rejecting by name. -/
def decodeCode (v : Variant) : Code → Except DecodeError Instr
  | .op c => .ok (decodeOp c)
  | .frame bytes => decodeFrame v bytes
  | .event i => if isEvent i then .ok i else .error .notAnEvent

/-- The header of an addressed command: the opcode and three big-endian address bytes
(30 R63, R64, R66). -/
def header (op : Byte) (a : Addr24) : List Byte :=
  op :: addrBytes a

/-- The encoder: the code that names an instruction, written from the encoding tables 30 R63, R68
and R70. The byte times in which the controller only receives carry `TX_FILL`. -/
def encode (c : Config) : Instr → Code
  | .cmdWren => .frame [c.var.opWren]
  | .cmdStatus => .frame [c.var.opStatus, c.txFill]
  | .cmdIdentify => .frame [c.var.opIdentify, c.txFill, c.txFill, c.txFill]
  | .cmdRead a n => .frame (header c.var.opRead a ++ List.replicate n c.txFill)
  | .cmdProgram a d => .frame (header c.var.opProgram a ++ d)
  | .cmdErase a => .frame (header c.var.opErase a)
  | .init => .op 0
  | .read => .op 1
  | .write => .op 2
  | .erase => .op 3
  | .isBusy => .op 4
  | .getGeometry => .op 5
  | .reserved6 => .op 6
  | .reserved7 => .op 7
  | .csAssert => .event .csAssert
  | .csDeassert => .event .csDeassert
  | .exchange w n async => .event (.exchange w n async)
  | .busyCheck => .event .busyCheck
  | .wrenHandshake => .event .wrenHandshake
  | .poll => .event .poll
  | .selftest => .event .selftest

/-- How many byte times a frame with this opcode has at least (30 R63): the data formats have one
data byte time or more. -/
def leastFrameLength (v : Variant) (op : Byte) : Nat :=
  if op = v.opWren then 1
  else if op = v.opStatus then 2
  else if op = v.opIdentify then 4
  else if op = v.opErase then 4
  else if op = v.opRead then 5
  else if op = v.opProgram then 5
  else 1

/-- The bytes of a number whose lowest byte is the first on the wire. -/
def tableBytes (nbits w : Nat) : List Byte :=
  (List.range ((nbits + 7) / 8)).map fun k => BitVec.ofNat 8 (w / 2 ^ (8 * k))

/-- The bytes followed by as many zero bytes as the frame of their opcode still needs. -/
def padFrame (v : Variant) (bytes : List Byte) : List Byte :=
  bytes ++ List.replicate (leastFrameLength v (bytes.headD 0) - bytes.length) 0

/-- The code that a number of the opcode table stands for: a number below 8 on one byte is a value
of `x[op]`, anything else a frame under `REF` (log entry 22). -/
def codeOfTableWord (nbits w : Nat) : Code :=
  if nbits ≤ 8 ∧ w < 8 then .op (BitVec.ofNat 3 w)
  else .frame (padFrame refVariant (tableBytes nbits w))

/-- The instruction the decoder reads from a number of the opcode table (log entry 22). -/
def decodeTableWord (nbits w : Nat) : Option Instr :=
  (decodeCode refVariant (codeOfTableWord nbits w)).toOption

end Sys2Proof
end

