-- ==== Sys2Proof/Machine/State.lean ====
section
/-! DEFINITION. The state of the machine (spec 10, and 00 R17 for the wire trace), as plain data,
with the reset state (10 R37, 70 R134) and the closed lists of faults and refusals. -/

namespace Sys2Proof.Machine

/-- Byte-addressed memory: a list of (address, byte) pairs in canonical form (`Memory.wf`). -/
abbrev Memory := List Host.Cell

/-- What an address that no cell lists reads as: `0xFF`, an erased byte (20 R33, log entry 4). -/
def Memory.unlisted : Byte := 0xFF

/-- The canonical form: addresses strictly rising, and no cell equal to what an unlisted address
reads as, so that equal memories are equal lists. -/
abbrev Memory.wf (m : Memory) : Prop :=
  m.Pairwise (fun c d => c.1 < d.1) ∧ ∀ c ∈ m, c.2 ≠ Memory.unlisted

/-- Every listed address lies below `n`. -/
abbrev Memory.below (m : Memory) (n : Nat) : Prop :=
  ∀ c ∈ m, c.1 < n

/-- The level on the chip-select line, in the two abstract levels of 10 R23. -/
inductive CsLevel where
  | deasserted
  | asserted
  deriving DecidableEq, Repr

/-- The sequencer's position, the block's analogue of a program counter (10 R24). -/
inductive Phase where
  | idle
  | select
  | command
  | transfer
  | deselect
  deriving DecidableEq, Repr

/-- What INIT programmed into the transport (10 R22). -/
structure SpiCfg where
  mode : Nat
  freq : Nat
  msbFirst : Bool
  deriving DecidableEq, Repr

/-- The controller's own state `S` (10 R21 to R26). -/
structure Ctrl where
  initialised : Bool
  spiCfg : SpiCfg
  cs : CsLevel
  phase : Phase
  off : Nat
  attempt : Nat
  xferActive : Bool
  deriving DecidableEq, Repr

/-- The host-visible operand and result registers `x[...]` (10 R28). -/
structure Regs where
  op : BitVec 3
  addr : Word32
  len : Word32
  count : Word32
  result : BitVec 3
  busy : Bool
  geo : Geometry
  deriving DecidableEq, Repr

/-- One accepted array update that the device's engine has not finished (20 R59, R60). -/
inductive ArrayUpdate where
  | program (addr : Addr24) (data : List Byte)
  | erase (addr : Addr24)
  deriving DecidableEq, Repr

/-- `DEV.pending` when it is not none (10 R34). `delay` and `draw` are the model's: the number of
moments the engine still lets pass (20 R61, log entry 11), and the first of the free values that its
completion may use (log entry 6). -/
structure Pending where
  update : ArrayUpdate
  delay : Nat
  draw : Nat
  deriving DecidableEq, Repr

/-- What the write-enable command does to `WEL` (20 R57, log entry 7): a healthy device sets it, a
locked one leaves it unchanged, and of the third the spec's draw decides. -/
inductive Latch where
  | sets
  | stuck
  | unstated
  deriving DecidableEq, Repr

/-- Which device of the environment contract is fitted (20 section 6, 92 D20). -/
structure DeviceProfile where
  /-- What write-enable does (20 R57). -/
  latch : Latch
  /-- Whether an idle device answers identify with its identity; false for an absent, unpowered or
  unready one, whose bytes are free values (20 R56). DESIGN CHOICE (log entry 8): the spec speaks only
  of such a device's identify bytes; it keeps this for the whole run, and on every other opcode it
  answers and acts as a present one. -/
  identifies : Bool
  /-- Whether the completion of an update clears `WEL`, as in the reference device; if not, whether
  it does is a free value (20 R57, R61, log entry 9). -/
  clearsLatch : Bool
  deriving DecidableEq, Repr

/-- The reference device of 92 D20. -/
def DeviceProfile.reference : DeviceProfile where
  latch := .sets
  identifies := true
  clearsLatch := true

/-- The device on the bus `DEV` (10 R31 to R34) with the bytes it has received since chip-select was
asserted (20 R54), and whether the first of them, the opcode, came while `WIP` was 1 (20 R62, log
entry 12). -/
structure Dev where
  sr : Byte
  id0 : Byte
  id1 : Byte
  id2 : Byte
  array : Memory
  pending : Option Pending
  rx : List Byte
  ignoring : Bool
  profile : DeviceProfile
  deriving DecidableEq, Repr

/-- An event of the wire trace (00 R17). -/
inductive WireEvent where
  | csDown
  | csUp
  | byte (tx rx : Byte)
  deriving DecidableEq, Repr

/-- One line of the host's program: the operand registers and the source buffer it writes, and what
it then invokes (10 R28, 30 R72, log entry 21). -/
structure Line where
  code : Code
  addr : Option Word32
  len : Option Word32
  count : Option Word32
  src : Option (List Byte)
  deriving DecidableEq, Repr

/-- The state of the machine. -/
structure State where
  /-- The configuration `CFG`, written by nothing (00 R8, 10 R18, log entry 1). -/
  cfg : Config
  /-- `S`, the controller's state. -/
  ctrl : Ctrl
  /-- `x`, the operand and result registers. -/
  x : Regs
  /-- The source buffer of WRITE (10 R30). -/
  src : Memory
  /-- The destination buffer of READ (10 R30). -/
  dst : Memory
  /-- `DEV`, the device. -/
  dev : Dev
  /-- The wire trace, oldest event first (00 R17). -/
  trace : List WireEvent
  /-- The caller's `r`: the bytes captured by the last exchange (41 R88, log entry 19). -/
  capture : List Byte
  /-- The model's counter of free values (log entry 6). -/
  draws : Nat
  /-- The host's lines still to run (log entry 21). -/
  program : List Line
  deriving DecidableEq, Repr

/-- Why the machine stops with a fault. -/
inductive Fault where
  /-- Raised by CS_ASSERT, CS_DEASSERT and EXCHANGE, and by what is made of them, when chip-select
  or `S.xfer_active` is not as the primitive's precondition demands (41 R85, R86, R88). For CS_ASSERT with
  chip-select asserted already 41 R85 names "a fault of the model"; in the other cases the spec gives no
  consequence, and the fault is the model's choice (log entry 39). Safe: the block never does it. -/
  | csProtocol
  /-- Raised where a frame makes the device read or update an address at or above `total_size`,
  which does not exist (20 R38, R58). Safe: the validator rejects such requests. -/
  | outsideArray
  deriving DecidableEq, Repr

/-- Why an instruction is given no meaning in a state. -/
inductive Refusal where
  /-- The instruction has no meaning yet. No arm answers so in this model. Safe. -/
  | notModelled (mnemonic : String)
  /-- Every instruction but the two reserved ones, when `CFG` is ill formed (00 R10, 93 U17). Safe. -/
  | illFormedConfig
  /-- A host operation invoked with `S.phase` other than IDLE (60 R126, 93 U6). Safe. -/
  | notIdle
  /-- READ, WRITE, ERASE, IS_BUSY, POLL before a successful INIT (70 R136). Safe. -/
  | notInitialised
  /-- `x[op]` 6 or 7 (30 R71). Safe. -/
  | reservedOp
  /-- An operation that would touch an address at or above `2^24` (40 R81). Safe. -/
  | reachAbove24
  /-- READ or WRITE of zero bytes under `ZERO_LEN_POLICY = refuse` (40 R82). Safe. -/
  | zeroLength
  /-- ERASE with a zero count under `ZERO_COUNT_POLICY = refuse` (40 R83). Safe. -/
  | zeroCount
  /-- INIT or SELFTEST with `DESTRUCTIVE_TEST = true` (43 R107). Safe. -/
  | selftestNotSpecified
  /-- EXCHANGE with an operand longer than `MAX_XFER` (41 R88, R91). Safe. -/
  | exchangeTooLong
  /-- The step: the host's line names no instruction (30 R71). Safe. -/
  | undecodable (reason : DecodeError)
  deriving DecidableEq, Repr

/-- What one step, or one part of a step, answers. -/
abbrev Res (α : Type) := Host.Outcome α Fault Refusal

/-- The controller before the first INIT (10 R37, 70 R134). The spec gives `initialised`, `phase`
and `xferActive`; the other four are named values (log entry 3). -/
def Ctrl.reset : Ctrl where
  initialised := false
  spiCfg := { mode := 3, freq := 1, msbFirst := true }
  cs := .deasserted
  phase := .idle
  off := 1
  attempt := 1
  xferActive := false

/-- The operand and result registers before the host or the block has written them: unspecified in
10 R37, which forbids picking zero; all ones here (log entry 3). -/
def Regs.reset : Regs where
  op := 7
  addr := 0xFFFFFFFF
  len := 0xFFFFFFFF
  count := 0xFFFFFFFF
  result := 7
  busy := true
  geo :=
    { totalSize := 1, pageSize := 1, eraseBlockSize := 1, writeAlignment := 1, tByteProgram := 1,
      tPageProgram := 1, tSectorErase := 1, tCmdOverhead := 1 }

/-- The environment's device at reset: the part `REF` expects, idle and erased, behaving as the
reference device (log entries 4, 5). -/
def Dev.reset : Dev where
  sr := 0
  id0 := 0xA1
  id1 := 0xB2
  id2 := 0xC3
  array := []
  pending := none
  rx := []
  ignoring := false
  profile := .reference

/-- The machine before the first INIT (10 R37, 70 R134): it waits in IDLE for the host. -/
def State.reset : State where
  cfg := refConfig
  ctrl := .reset
  x := .reset
  src := []
  dst := []
  dev := .reset
  trace := []
  capture := []
  draws := 0
  program := []

end Sys2Proof.Machine
end

