-- ==== Sys2Proof/Machine/Flags.lean ====
section
/-! DEFINITION. The one-bit status values of the device's status byte (spec 10 R31, R35) and the
result codes (60 R121). The block has no arithmetic flags (10 R35). -/

namespace Sys2Proof.Machine

/-- `WIP`, bit 0 of a status byte: write in progress (10 R31, 42 R98). -/
def wip (sr : Byte) : Bool := sr.getLsbD 0

/-- `WEL`, bit 1 of a status byte: write-enable latch (10 R31, 42 R98). -/
def wel (sr : Byte) : Bool := sr.getLsbD 1

/-- The status byte with `WIP` as given and every other bit kept. DESIGN CHOICE (log entry 36): the
spec does not say what sets bits 7:2, and nothing in the model does. -/
def withWip (sr : Byte) (b : Bool) : Byte :=
  if b then sr ||| 0x01 else sr &&& 0xFE

/-- The status byte with `WEL` as given and every other bit kept (bits 7:2: log entry 36). -/
def withWel (sr : Byte) (b : Bool) : Byte :=
  if b then sr ||| 0x02 else sr &&& 0xFD

/-- The results an operation returns: Success and the four error kinds (60 R120, R121). -/
inductive ResultCode where
  | success
  | busy
  | outOfRange
  | writeEnableFailed
  | identificationFailed
  deriving DecidableEq, Repr

/-- The code of a result in `x[result]` (60 R121). -/
def resultCode : ResultCode → BitVec 3
  | .success => 0
  | .busy => 1
  | .outOfRange => 2
  | .writeEnableFailed => 3
  | .identificationFailed => 4

end Sys2Proof.Machine
end

