-- ==== Sys2Proof/Machine/Ops.lean ====
section
/-! DEFINITION. The named operations: sequencing of outcomes, reading and writing memory, the update
of each piece of state, ending an operation, and raising an error (spec 60 R123). There is no return
from an error: it is the operation's return value (60 R124). -/

namespace Sys2Proof.Machine

/-- Go on with what the first part answers; a fault or a refusal ends the whole. -/
def andThen {α β : Type} (o : Res α) (k : α → Res β) : Res β :=
  match o with
  | .next a => k a
  | .fault f => .fault f
  | .refused r => .refused r

/-! ### Memory -/

/-- The byte at an address: the listed one, or the unlisted value. -/
def Memory.read : Memory → Nat → Byte
  | [], _ => Memory.unlisted
  | c :: m, a => if c.1 = a then c.2 else Memory.read m a

/-- A cell put before the first cell of a higher address. -/
def Memory.insert (a : Nat) (b : Byte) : Memory → Memory
  | [] => [(a, b)]
  | c :: m => if a < c.1 then (a, b) :: c :: m else c :: Memory.insert a b m

/-- The memory with the addresses `lo .. lo + n - 1` at the unlisted value: what erasing leaves
(20 R60). -/
def Memory.clear (m : Memory) (lo n : Nat) : Memory :=
  m.filter fun c => !(decide (lo ≤ c.1) && decide (c.1 < lo + n))

/-- The memory with one byte written. -/
def Memory.write (m : Memory) (a : Nat) (b : Byte) : Memory :=
  if b = Memory.unlisted then m.clear a 1 else Memory.insert a b (m.clear a 1)

/-- The `n` bytes from an address, lowest address first: `MemRead` (00 R16, 20 R40). -/
def Memory.readBytes (m : Memory) (a n : Nat) : List Byte :=
  (List.range n).map fun i => m.read (a + i)

/-- Bytes written from an address, lowest address first (20 R40). -/
def Memory.writeBytes (m : Memory) (a : Nat) : List Byte → Memory
  | [] => m
  | b :: bs => Memory.writeBytes (m.write a b) (a + 1) bs

/-! ### One update for each piece of state -/

/-- `S.initialised <- b` -/
def State.setInitialised (s : State) (b : Bool) : State :=
  { s with ctrl := { s.ctrl with initialised := b } }

/-- `S.spi_cfg <- v` -/
def State.setSpiCfg (s : State) (v : SpiCfg) : State :=
  { s with ctrl := { s.ctrl with spiCfg := v } }

/-- `S.cs <- v` -/
def State.setCs (s : State) (v : CsLevel) : State :=
  { s with ctrl := { s.ctrl with cs := v } }

/-- `phase <- p` -/
def State.setPhase (s : State) (p : Phase) : State :=
  { s with ctrl := { s.ctrl with phase := p } }

/-- `S.off <- n` -/
def State.setOff (s : State) (n : Nat) : State :=
  { s with ctrl := { s.ctrl with off := n } }

/-- `S.attempt <- n` -/
def State.setAttempt (s : State) (n : Nat) : State :=
  { s with ctrl := { s.ctrl with attempt := n } }

/-- `S.xfer_active <- b` -/
def State.setXferActive (s : State) (b : Bool) : State :=
  { s with ctrl := { s.ctrl with xferActive := b } }

/-- `x[op] <- v` -/
def State.setOp (s : State) (v : BitVec 3) : State :=
  { s with x := { s.x with op := v } }

/-- `x[addr] <- v` -/
def State.setAddr (s : State) (v : Word32) : State :=
  { s with x := { s.x with addr := v } }

/-- `x[len] <- v` -/
def State.setLen (s : State) (v : Word32) : State :=
  { s with x := { s.x with len := v } }

/-- `x[count] <- v` -/
def State.setCount (s : State) (v : Word32) : State :=
  { s with x := { s.x with count := v } }

/-- `x[result] <- v` -/
def State.setResult (s : State) (v : BitVec 3) : State :=
  { s with x := { s.x with result := v } }

/-- `x[busy] <- b` -/
def State.setBusy (s : State) (b : Bool) : State :=
  { s with x := { s.x with busy := b } }

/-- `x[geo] <- g` -/
def State.setGeo (s : State) (g : Geometry) : State :=
  { s with x := { s.x with geo := g } }

/-- The source buffer, whole. -/
def State.setSrc (s : State) (m : Memory) : State := { s with src := m }

/-- The destination buffer, whole. -/
def State.setDst (s : State) (m : Memory) : State := { s with dst := m }

/-- `DEV.sr <- v` -/
def State.setSr (s : State) (v : Byte) : State :=
  { s with dev := { s.dev with sr := v } }

/-- `DEV.pending <- p` -/
def State.setPending (s : State) (p : Option Pending) : State :=
  { s with dev := { s.dev with pending := p } }

/-- `DEV`, whole: what a device of 20 section 6 has become. -/
def State.setDev (s : State) (d : Dev) : State := { s with dev := d }

/-- The trace gains one event (00 R17). -/
def State.addEvent (s : State) (e : WireEvent) : State :=
  { s with trace := s.trace ++ [e] }

/-- The caller's `r` of an exchange (41 R88). -/
def State.setCapture (s : State) (bs : List Byte) : State := { s with capture := bs }

/-- The free values drawn so far, `k` more. -/
def State.advanceDraws (s : State) (k : Nat) : State := { s with draws := s.draws + k }

/-- The host's lines still to run. -/
def State.setProgram (s : State) (ls : List Line) : State := { s with program := ls }

/-! ### The end of an operation -/

/-- `phase <- IDLE`; nothing of the device's replies outlives the operation (10 R24, R27). -/
def State.toIdle (s : State) : State :=
  (s.setPhase .idle).setCapture []

/-- `x[result] <- code; phase <- IDLE`: an operation ends with a result (00 R13). -/
def State.finish (s : State) (r : ResultCode) : State :=
  (s.setResult (resultCode r)).toIdle

/-- `raise <Error>` (00 R16, 60 R123): the result register takes the error's code, the phase returns
to IDLE, nothing is saved, no mode changes and no handler runs; chip-select is already
deasserted. -/
def State.raise (s : State) (e : ResultCode) : State :=
  s.finish e

end Sys2Proof.Machine
end

