-- ==== Sys2Proof/Machine/Operands.lean ====
section
/-! DEFINITION. The parameter validator (spec 40 R74 to R84), the operands as the address encoder and
the chunker take them (30 R66, 41 R91), and the preconditions under which an operation has a meaning
(60 R126, 70 R136). All arithmetic is over the natural numbers (00 R15, 40 R76). -/

namespace Sys2Proof.Machine

/-- `valid_read(a, n)` (40 R78). -/
def validRead (g : Geometry) (a n : Nat) : Bool :=
  decide (a < g.totalSize) && decide (a + n ≤ g.totalSize)

/-- `valid_write(a, n)`, the conjunction of four clauses (40 R79). -/
def validWrite (g : Geometry) (a n : Nat) : Bool :=
  decide (a < g.totalSize) && decide (n ≤ g.pageSize) &&
  decide (a % g.pageSize + n ≤ g.pageSize) && decide (a + n ≤ g.totalSize)

/-- `valid_erase(a)` (40 R80). -/
def validErase (g : Geometry) (a : Nat) : Bool :=
  decide (a % g.eraseBlockSize = 0) && decide (a + g.eraseBlockSize ≤ g.totalSize)

/-- The last of `n` addresses from `a` is one the 24-bit address encoder cannot name
(40 R81, 20 R39). -/
def beyondReach (a n : Nat) : Bool :=
  decide (2 ^ 24 ≤ a + n - 1)

/-- `x[addr]` as an exact number (40 R76). -/
def State.addrNat (s : State) : Nat := s.x.addr.toNat

/-- `x[len]` as an exact number (40 R76). -/
def State.lenNat (s : State) : Nat := s.x.len.toNat

/-- `x[count]` as an exact number. -/
def State.countNat (s : State) : Nat := s.x.count.toNat

/-- `x[addr][23:0]`, what the address encoder sends (30 R66). -/
def State.wireAddr (s : State) : Addr24 := s.x.addr.setWidth 24

/-- The sizes of the chunks of a data phase of `n` bytes, cut greedily: `min(MAX_XFER, rest)` until
nothing is left (41 R91). The first argument is fuel; `n` of it is enough when `MAX_XFER ≥ 1`. -/
def chunkSizes (maxXfer : Nat) : Nat → Nat → List Nat
  | 0, _ => []
  | fuel + 1, n => if n = 0 then [] else min maxXfer n :: chunkSizes maxXfer fuel (n - min maxXfer n)

/-- The rules hold for a well-formed `CFG` only; an ill-formed one is refused (00 R10, 93 U17). -/
def requireConfig (s : State) (k : State → Res State) : Res State :=
  if s.cfg.wf then k s else .refused .illFormedConfig

/-- A host operation is invoked in IDLE only (60 R126, 93 U6). -/
def requireIdle (s : State) (k : State → Res State) : Res State :=
  if s.ctrl.phase = .idle then k s else .refused .notIdle

/-- READ, WRITE, ERASE and IS_BUSY need a successful INIT (70 R136). -/
def requireInitialised (s : State) (k : State → Res State) : Res State :=
  if s.ctrl.initialised then k s else .refused .notInitialised

/-- What a host operation that uses the device demands before anything else (log entry 28). -/
def requireReady (s : State) (k : State → Res State) : Res State :=
  requireConfig s fun s => requireIdle s fun s => requireInitialised s k

/-- READ or WRITE of zero bytes (40 R82): refused by default; the admitting policy still requires the
address to name a byte of the array (40 R77) and then does nothing (log entry 27). -/
def zeroLength (s : State) : Res State :=
  match s.cfg.zeroLen with
  | .refuse => .refused .zeroLength
  | .succeed =>
    if s.addrNat < s.cfg.geo.totalSize then .next (s.finish .success)
    else .next (s.raise .outOfRange)

/-- ERASE with a zero count (40 R83): refused by default; the admitting policy still requires the
address to name a byte of the array (40 R77) and then does nothing (log entry 27). -/
def zeroCount (s : State) : Res State :=
  match s.cfg.zeroCount with
  | .refuse => .refused .zeroCount
  | .succeed =>
    if s.addrNat < s.cfg.geo.totalSize then .next (s.finish .success)
    else .next (s.raise .outOfRange)

end Sys2Proof.Machine
end

