-- ==== Sys2Proof/Machine/Device.lean ====
section
/-! DEFINITION. The device contract (spec 20 section 6): what the device drives in a byte time, what
it does with a frame at chip-select deassert, and the step of its program and erase engine. -/

namespace Sys2Proof.Machine

/-- The identity byte an identify command's `k`-th byte time after the opcode carries; after the
third the source says nothing (20 R56, 91 N24). -/
def identityByte (d : Dev) (k : Nat) : Option Byte :=
  if k = 0 then some d.id0
  else if k = 1 then some d.id1
  else if k = 2 then some d.id2
  else none

/-- The device outside a transaction: nothing received (20 R54). -/
def Dev.silence (d : Dev) : Dev := { d with rx := [], ignoring := false }

/-- The device takes one byte from the controller. The first is the opcode, and `WIP` at that moment
decides whether the device answers in this transaction (20 R54, R62). -/
def Dev.hear (d : Dev) (tx : Byte) : Dev :=
  { d with
    rx := d.rx ++ [tx]
    ignoring := if d.rx = [] then wip d.sr else d.ignoring }

/-- What the device drives in the next byte time, from the bytes it has received in this
transaction; none where it does not answer or its answer is not stated (20 R55, R56, R58, R62,
41 R90). A status command clocked on repeats the status byte (20 R55, log entry 30). A read or
identify whose opcode came while `WIP` was 1 drives nothing that is stated, even after the engine has
completed: those bytes are free values (20 R62, log entry 12). DESIGN CHOICE (log entry 8): an absent
or unready device drives nothing that is stated for identify and answers the other opcodes as a present
one. An array read goes on past `2^24 - 1` while the array does (20 R58, log entry 37). -/
def driven (v : Variant) (d : Dev) : Option Byte :=
  match d.rx with
  | [] => none
  | op :: rest =>
    if op = v.opStatus then some d.sr
    else if op = v.opIdentify then
      if d.ignoring || !d.profile.identifies then none else identityByte d rest.length
    else if op = v.opRead then
      if d.ignoring then none
      else
        match rest with
        | a2 :: a1 :: a0 :: more => some (d.array.read ((addrOfBytes a2 a1 a0).toNat + more.length))
        | _ => none
    else none

/-- Whether the read under way has made the device pass the end of the array, which holds no byte
(20 R38, R58, log entry 16). -/
def readPastEnd (c : Config) (d : Dev) : Bool :=
  match d.rx with
  | op :: a2 :: a1 :: a0 :: more =>
    op = c.var.opRead && !d.ignoring && decide (more ≠ []) &&
      decide (c.geo.totalSize < (addrOfBytes a2 a1 a0).toNat + more.length)
  | _ => false

/-- The write-enable command at a device: it sets `WEL`, or leaves it, or a free value decides
(20 R57); a busy device of the first two kinds ignores it (20 R62, log entries 7, 12). -/
def wrenEffect (s : State) : State :=
  match s.dev.profile.latch with
  | .sets => if wip s.dev.sr then s else s.setSr (withWel s.dev.sr true)
  | .stuck => s
  | .unstated =>
    (s.setSr (withWel s.dev.sr (wel s.dev.sr || Config.freeBit s.draws))).advanceDraws 1

/-- The device accepts an update: it becomes busy, and its engine will complete after a free number
of moments (20 R59, R60, R61). The free values that its completion may use are set aside now. -/
def accept (s : State) (u : ArrayUpdate) : State :=
  ((s.setSr (withWip s.dev.sr true)).setPending
    (some { update := u, delay := Config.freeDelay s.draws, draw := s.draws + 1 })).advanceDraws
      (2 + s.cfg.geo.pageSize)

/-- A program or erase command is taken when `WEL = 1` and `WIP = 0`, and ignored otherwise
(20 R59, R60, R62, 70 R139), whatever follows its opcode (log entry 14). -/
def acceptsUpdates (d : Dev) : Bool :=
  wel d.sr && !wip d.sr

/-- The addresses a program touches exist: within the page it is sent to when it would cross the
page's end, and where its bytes stand otherwise (20 R59). -/
def programInArray (g : Geometry) (a n : Nat) : Bool :=
  if a % g.pageSize + n ≤ g.pageSize then decide (a + n ≤ g.totalSize)
  else decide (a < g.totalSize)

/-- What a frame that completes none of the six commands leaves of an idle device: its first byte is
no opcode of the variant, or a program or erase frame ends before its last required byte. `WIP`, the
pending update and the array have only the setters that 10 R31, R33 and R34 name, and `WEL` is set by a
write-enable alone (10 R31), but who clears it is not stated (92 D7): it is kept or cleared, as a free
value says (log entry 14). A busy device ignores the frame (20 R62, 93 U22). -/
def strayEffect (s : State) : State :=
  if wip s.dev.sr then s
  else (s.setSr (withWel s.dev.sr (wel s.dev.sr && Config.freeBit s.draws))).advanceDraws 1

/-- The device acts on the command it has received, at chip-select deassert (20 R54, 41 R86), as it
is then: `WIP` and `WEL` are looked at now (log entry 13). The opcode selects the format, and bytes past
the end of a format of fixed length do not matter (20 R57, R60, 30 R65, log entry 14). DESIGN CHOICE (log
entry 14): to a transaction of no byte it does nothing. An update of an address outside the array is a
fault (log entry 16). An absent or unready device acts as a present one (log entry 8). -/
def deviceActs (s : State) : Res State :=
  let v := s.cfg.var
  let g := s.cfg.geo
  match s.dev.rx with
  | [] => .next s
  | op :: rest =>
    if op = v.opStatus then .next s
    else if op = v.opIdentify then .next s
    else if op = v.opRead then .next s
    else if op = v.opWren then .next (wrenEffect s)
    else if op = v.opProgram then
      if acceptsUpdates s.dev then
        match rest with
        | a2 :: a1 :: a0 :: data =>
          if data = [] then .next (strayEffect s)
          else if programInArray g (addrOfBytes a2 a1 a0).toNat data.length then
            .next (accept s (.program (addrOfBytes a2 a1 a0) data))
          else .fault .outsideArray
        | _ => .next (strayEffect s)
      else .next s
    else if op = v.opErase then
      if acceptsUpdates s.dev then
        match rest with
        | a2 :: a1 :: a0 :: _ =>
          if (addrOfBytes a2 a1 a0).toNat < g.totalSize then
            .next (accept s (.erase (addrOfBytes a2 a1 a0)))
          else .fault .outsideArray
        | _ => .next (strayEffect s)
      else .next s
    else .next (strayEffect s)

/-- `PROG(old, new)` on one byte (20 R59, 92 D21, log entry 10). -/
def progByte (r : ProgRule) (old new : Byte) : Byte :=
  match r with
  | .clearBits => old &&& new
  | .overwrite => new
  | .unstated => if old = 0xFF then new else Config.freeProg old new

/-- `MemWrite(A, n, d)`: each byte programmed over what the array holds (20 R59). -/
def programBytes (r : ProgRule) (m : Memory) (a : Nat) : List Byte → Memory
  | [] => m
  | d :: ds => programBytes r (m.write a (progByte r (m.read a) d)) (a + 1) ds

/-- The free bytes of the page that a page-crossing program leaves: the chip wraps or truncates
within the page, and which bytes it leaves is not stated (20 R59, 70 R140, 93 U14, log entry 15). -/
def openPage (g : Geometry) (m : Memory) (draws a : Nat) : Memory :=
  let base := a - a % g.pageSize
  m.writeBytes base
    ((List.range (min g.pageSize (g.totalSize - base))).map fun i => Config.freeByte (draws + i))

/-- The first address of the erase block that holds `a` (20 R60). -/
def blockBase (g : Geometry) (a : Nat) : Nat :=
  a - a % g.eraseBlockSize

/-- The array after a pending update has taken effect (20 R59, R60). -/
def updatedArray (c : Config) (m : Memory) (draws : Nat) : ArrayUpdate → Memory
  | .program a d =>
    if a.toNat % c.geo.pageSize + d.length ≤ c.geo.pageSize then
      programBytes c.prog m a.toNat d
    else openPage c.geo m draws a.toNat
  | .erase a => m.clear (blockBase c.geo a.toNat) c.geo.eraseBlockSize

/-- `WEL` after the completion of an update: cleared by the reference device, a free value in a
device that does not say (20 R57, R61, log entry 9). -/
def latchAfter (d : Dev) (p : Pending) : Bool :=
  if d.profile.clearsLatch then false
  else wel d.sr && Config.freeBit p.draw

/-- DEV_ENGINE completes an update: it takes effect in the array, nothing is pending, `WIP` is clear
(20 R61). -/
def Dev.complete (c : Config) (d : Dev) (p : Pending) : Dev :=
  { d with
    array := updatedArray c d.array (p.draw + 1) p.update
    pending := none
    sr := withWip (withWel d.sr (latchAfter d p)) false }

/-- DEV_ENGINE's one step: it completes when its free delay has run out, and otherwise lets one more
moment pass (20 R61, log entry 11). -/
def Dev.tick (c : Config) (d : Dev) : Dev :=
  match d.pending with
  | none => d
  | some p =>
    if p.delay = 0 then d.complete c p
    else { d with pending := some { p with delay := p.delay - 1 } }

/-- DEV_ENGINE's move at one moment. A moment comes at the start of every step, before every byte time
and before both edges of chip-select: the engine may complete at any time, inside an operation too
(00 R12, 20 R61). -/
def engineTick (s : State) : State := s.setDev (s.dev.tick s.cfg)

end Sys2Proof.Machine
end

