-- ==== Sys2Proof/Machine/Transport.lean ====
section
/-! DEFINITION. The chip-select and full-duplex SPI transactor (spec 41), and the meanings of the three
transport primitives. -/

namespace Sys2Proof.Machine

/-- `cs_assert()` (41 R85). Before the edge, as before every bus event, the engine may move
(00 R12, 20 R61). With chip-select asserted already R85 makes the call a fault of the model; with an
exchange active the fault is a DESIGN CHOICE (log entry 39). -/
def csAssert (s : State) : Res State :=
  if s.ctrl.cs = .deasserted ∧ s.ctrl.xferActive = false then
    let s := engineTick s
    .next ((((s.setCs .asserted).addEvent .csDown).setPhase .command).setDev s.dev.silence)
  else .fault .csProtocol

/-- `cs_deassert()` (41 R86): the engine may move, then the transaction is over and the device acts
on what it received. R86 gives a precondition and no consequence of breaking it: the fault is a DESIGN
CHOICE (log entry 39). -/
def csDeassert (s : State) : Res State :=
  if s.ctrl.cs = .asserted ∧ s.ctrl.xferActive = false then
    andThen (deviceActs (engineTick s)) fun s =>
      .next (((s.setCs .deasserted).addEvent .csUp).setDev s.dev.silence)
  else .fault .csProtocol

/-- The byte sampled in the next byte time: what the device drives, or a free value (41 R89, R90). -/
def sampled (s : State) : Byte :=
  (driven s.cfg.var s.dev).getD (Config.freeByte s.draws)

/-- How many free values the next byte time draws. -/
def sampleDraws (s : State) : Nat :=
  if driven s.cfg.var s.dev = none then 1 else 0

/-- `shift_byte(tx)` at byte granularity (41 R89, 92 D31): the device receives `tx`, and the trace
gains `tx/rx`. -/
def shiftByte (tx : Byte) (s : State) : State :=
  ((s.addEvent (.byte tx (sampled s))).setDev (s.dev.hear tx)).advanceDraws (sampleDraws s)

/-- The byte times of an exchange: the state after them and the bytes sampled (41 R88). The engine
may move before each of them (00 R12, 20 R61). -/
def shiftBytes : List Byte → State → State × List Byte
  | [], s => (s, [])
  | tx :: txs, s =>
    let e := engineTick s
    ((shiftBytes txs (shiftByte tx e)).1, sampled e :: (shiftBytes txs (shiftByte tx e)).2)

/-- The bytes an exchange transmits: `w`, then `TX_FILL` up to `max(wlen, n)` byte times (41 R88). -/
def txBytes (c : Config) (w : List Byte) (n : Nat) : List Byte :=
  w ++ List.replicate (n - w.length) c.txFill

/-- The byte times of an exchange around a change of phase: those of `w`, then, in the phase given,
those of the filler bytes, when there are any. -/
def shiftExchange (replyPhase : Phase) (w : List Byte) (n : Nat) (s : State) :
    State × List Byte :=
  let sent := shiftBytes w s
  let turned := if n ≤ w.length then sent.1 else sent.1.setPhase replyPhase
  let reply := shiftBytes (List.replicate (n - w.length) s.cfg.txFill) turned
  (reply.1, sent.2 ++ reply.2)

/-- `exchange(w, n)` (41 R88): full duplex, `max(wlen, n)` byte times, the first `n` sampled bytes
captured. An asynchronous exchange is observed to be complete before the next bus event, so it is the
same (41 R93, log entry 23); every exchange completes (60 R125, log entry 24). R88 gives a precondition
and no consequence of breaking it: the fault is a DESIGN CHOICE (log entry 39). -/
def exchangeIn (replyPhase : Phase) (w : List Byte) (n : Nat) (s : State) : Res State :=
  if s.ctrl.cs = .asserted ∧ s.ctrl.xferActive = false then
    let after := shiftExchange replyPhase w n (s.setXferActive true)
    if readPastEnd s.cfg after.1.dev then .fault .outsideArray
    else .next ((after.1.setXferActive false).setCapture (after.2.take n))
  else .fault .csProtocol

/-- An exchange inside one phase. -/
def exchange (w : List Byte) (n : Nat) (s : State) : Res State :=
  exchangeIn s.ctrl.phase w n s

/-- The one exchange of a command without a data phase: the header in COMMAND, and the reply, if the
command has one, in TRANSFER (10 R24, 41 R95, log entry 38). -/
def exchangeReply (w : List Byte) (n : Nat) (s : State) : Res State :=
  exchangeIn .transfer w n s

/-- CS_ASSERT (41 R85). -/
def execCsAssert (s : State) : Res State :=
  requireConfig s csAssert

/-- CS_DEASSERT (41 R86). No further transaction follows in the same step, so the phase returns to
IDLE (41 R95, log entry 18). -/
def execCsDeassert (s : State) : Res State :=
  requireConfig s fun s => andThen (csDeassert s) fun s => .next (s.setPhase .idle)

/-- EXCHANGE(w, n, async_flag) (41 R88, R91 to R93): both operands at most `MAX_XFER`. DESIGN CHOICE
(log entry 28): an operand that is too long is refused before the precondition on chip-select is
looked at; the spec gives the two grounds no order. -/
def execExchange (w : List Byte) (n : Nat) (_async : Bool) (s : State) : Res State :=
  requireConfig s fun s =>
    if w.length ≤ s.cfg.maxXfer ∧ n ≤ s.cfg.maxXfer then exchange w n s
    else .refused .exchangeTooLong

end Sys2Proof.Machine
end

