-- ==== Sys2Proof/Machine/WireCommands.lean ====
section
/-! DEFINITION. The six wire commands (spec 42 R97 to R102) as transactions (41 R95), and the meanings
of their rows. -/

namespace Sys2Proof.Machine

/-- A transaction that is one exchange: select, exchange, deselect (41 R95). It ends in DESELECT: the
operation goes on to SELECT when another transaction follows, and to IDLE when none does
(10 R24). -/
def transact (w : List Byte) (n : Nat) (s : State) : Res State :=
  andThen (csAssert (s.setPhase .select)) fun s =>
  andThen (exchangeReply w n s) fun s =>
  csDeassert (s.setPhase .deselect)

/-- A transaction with a data phase after its header (41 R95); it ends in DESELECT. -/
def transactData (hdr : List Byte) (data : State → Res State) (s : State) : Res State :=
  andThen (csAssert (s.setPhase .select)) fun s =>
  andThen (exchange hdr 0 s) fun s =>
  andThen (data ((s.setOff 0).setPhase .transfer)) fun s =>
  csDeassert (s.setPhase .deselect)

/-- CMD_WREN (42 R97). -/
def cmdWren (s : State) : Res State :=
  transact [s.cfg.var.opWren] 0 s

/-- CMD_STATUS (42 R98): the status byte is the second captured byte. -/
def cmdStatus (s : State) : Res State :=
  transact [s.cfg.var.opStatus] 2 s

/-- The status byte of a status transaction's reply, `r[1]` (42 R98). -/
def State.capturedStatus (s : State) : Byte := s.capture.getD 1 0

/-- CMD_IDENTIFY (42 R99): the identity is captured bytes 1 to 3. -/
def cmdIdentify (s : State) : Res State :=
  transact [s.cfg.var.opIdentify] 4 s

/-- Whether the captured identity is the one the variant expects; byte 0 is not compared
(43 R105, 92 D27). -/
def State.identityMatches (s : State) : Bool :=
  s.capture.getD 1 0 = s.cfg.var.id0 && s.capture.getD 2 0 = s.cfg.var.id1 &&
    s.capture.getD 3 0 = s.cfg.var.id2

/-- The chunks of a read's data phase: each captured byte goes to `dst` at its index (42 R100). -/
def readChunks : List Nat → State → Res State
  | [], s => .next s
  | c :: cs, s =>
    andThen (exchange [] c s) fun s =>
      readChunks cs ((s.setDst (s.dst.writeBytes s.ctrl.off s.capture)).setOff (s.ctrl.off + c))

/-- CMD_READ(A, n, dst) (42 R100). -/
def cmdRead (a : Addr24) (n : Nat) (s : State) : Res State :=
  transactData (header s.cfg.var.opRead a) (readChunks (chunkSizes s.cfg.maxXfer n n)) s

/-- The chunks of a program's data phase, from what is left of the payload (42 R101). -/
def programChunks : List Nat → List Byte → State → Res State
  | [], _, s => .next s
  | c :: cs, data, s =>
    andThen (exchange (data.take c) 0 s) fun s =>
      programChunks cs (data.drop c) (s.setOff (s.ctrl.off + c))

/-- CMD_PROGRAM(A, n, src) (42 R101), the data given as the bytes of `src[0 .. n-1]`. -/
def cmdProgram (a : Addr24) (data : List Byte) (s : State) : Res State :=
  transactData (header s.cfg.var.opProgram a)
    (programChunks (chunkSizes s.cfg.maxXfer data.length data.length) data) s

/-- CMD_ERASE(A) (42 R102). -/
def cmdErase (a : Addr24) (s : State) : Res State :=
  transact (header s.cfg.var.opErase a) 0 s

/-- A wire command run as an instruction of its own: no transaction follows it in the same step, so
the phase returns to IDLE (41 R95, log entry 18). What it captured stays in `capture`: it is what the
command returns. -/
def alone (cmd : State → Res State) (s : State) : Res State :=
  requireConfig s fun s => andThen (cmd s) fun s => .next (s.setPhase .idle)

/-- The row CMD_WREN (42 R97). -/
def execCmdWren (s : State) : Res State := alone cmdWren s

/-- The row CMD_STATUS (42 R98). -/
def execCmdStatus (s : State) : Res State := alone cmdStatus s

/-- The row CMD_IDENTIFY (42 R99). -/
def execCmdIdentify (s : State) : Res State := alone cmdIdentify s

/-- The row CMD_READ (42 R100). DESIGN CHOICE (log entry 37): run by itself it has no reach test, so
its data phase may pass address `2^24 - 1`; the test of 40 R81 stands in the operations. -/
def execCmdRead (a : Addr24) (n : Nat) (s : State) : Res State := alone (cmdRead a n) s

/-- The row CMD_PROGRAM (42 R101), without the reach test of the operations (log entry 37). -/
def execCmdProgram (a : Addr24) (data : List Byte) (s : State) : Res State :=
  alone (cmdProgram a data) s

/-- The row CMD_ERASE (42 R102), without the reach test of the operations: a block that straddles `2^24`
is erased whole (log entry 37). -/
def execCmdErase (a : Addr24) (s : State) : Res State := alone (cmdErase a) s

end Sys2Proof.Machine
end

