-- ==== Sys2Proof/Machine/Checks.lean ====
section
/-! DEFINITION. The two checks built from the wire commands (spec 42 R103, R104), the self-test
(43 R107), and the meanings of their rows. -/

namespace Sys2Proof.Machine

/-- `WIP` as the last status transaction captured it (42 R98, R103). -/
def State.sawWip (s : State) : Bool := wip s.capturedStatus

/-- `WEL` as the last status transaction captured it (42 R98, R104). -/
def State.sawWel (s : State) : Bool := wel s.capturedStatus

/-- BUSY_CHECK: one status transaction; its result is `sawWip` of the state after it (42 R103). -/
def busyCheck (s : State) : Res State :=
  cmdStatus s

/-- WREN_HANDSHAKE: write-enable, then one status transaction; its result is `sawWel` of the state
after it (42 R104). -/
def wrenHandshake (s : State) : Res State :=
  andThen (cmdWren s) cmdStatus

/-- `if BUSY_CHECK() = 1: raise Busy` (42 R103). -/
def unlessBusy (s : State) (k : State → Res State) : Res State :=
  andThen (busyCheck s) fun s => if s.sawWip then .next (s.raise .busy) else k s

/-- `if WREN_HANDSHAKE() = 0: raise WriteEnableFailed` (42 R104). -/
def whenEnabled (s : State) (k : State → Res State) : Res State :=
  andThen (wrenHandshake s) fun s =>
    if s.sawWel then k s else .next (s.raise .writeEnableFailed)

/-- The row BUSY_CHECK (42 R103). -/
def execBusyCheck (s : State) : Res State := alone busyCheck s

/-- The row WREN_HANDSHAKE (42 R104). -/
def execWrenHandshake (s : State) : Res State := alone wrenHandshake s

/-- The row SELFTEST (43 R107): it is run only when `DESTRUCTIVE_TEST` is set, and then the spec
refuses it; in a build without it nothing is run (log entry 29). -/
def execSelftest (s : State) : Res State :=
  requireConfig s fun s =>
    if s.cfg.destructiveTest then .refused .selftestNotSpecified else .next s

end Sys2Proof.Machine
end

