-- ==== Sys2Proof/Machine/HostOps.lean ====
section
/-! DEFINITION. The host operations: INIT (spec 43), READ (44), WRITE (45), ERASE (46), IS_BUSY and
GET_GEOMETRY (47), the reserved selections (30 R71), and the host's loop POLL (30 R73). -/

namespace Sys2Proof.Machine

/-- The identification loop of INIT: at most the given number of further attempts, ending at the
first match (43 R105, R106). The Boolean says whether one matched. -/
def identifyLoop : Nat → State → Res (State × Bool)
  | 0, s => .next (s, false)
  | fuel + 1, s =>
    andThen (cmdIdentify (s.setAttempt (s.ctrl.attempt + 1))) fun s =>
      if s.identityMatches then .next (s, true) else identifyLoop fuel s

/-- What INIT sets before it looks for the chip (43 R105): chip-select is configured deasserted with
no event on the wire. -/
def configureTransport (s : State) : State :=
  (((s.setInitialised false).setCs .deasserted).setSpiCfg
    { mode := s.cfg.var.spiMode, freq := s.cfg.var.spiFreq, msbFirst := true }).setAttempt 0

/-- INIT (43 R105). A build with the destructive self-test is refused before any bus traffic
(43 R107, log entry 29). -/
def execInit (s : State) : Res State :=
  requireConfig s fun s =>
  requireIdle s fun s =>
    if s.cfg.destructiveTest then .refused .selftestNotSpecified
    else
      andThen (identifyLoop s.cfg.idRetryMax (configureTransport s)) fun r =>
        if r.2 then .next ((r.1.setInitialised true).finish .success)
        else .next (r.1.raise .identificationFailed)

/-- READ (44 R109). -/
def execRead (s : State) : Res State :=
  requireReady s fun s =>
    if s.lenNat = 0 then zeroLength s
    else if !validRead s.cfg.geo s.addrNat s.lenNat then .next (s.raise .outOfRange)
    else if beyondReach s.addrNat s.lenNat then .refused .reachAbove24
    else
      unlessBusy s fun s =>
      andThen (cmdRead s.wireAddr s.lenNat s) fun s =>
      .next (s.finish .success)

/-- WRITE (45 R111). -/
def execWrite (s : State) : Res State :=
  requireReady s fun s =>
    if s.lenNat = 0 then zeroLength s
    else if !validWrite s.cfg.geo s.addrNat s.lenNat then .next (s.raise .outOfRange)
    else if beyondReach s.addrNat s.lenNat then .refused .reachAbove24
    else
      unlessBusy s fun s =>
      whenEnabled s fun s =>
      andThen (cmdProgram s.wireAddr (s.src.readBytes 0 s.lenNat) s) fun s =>
      .next (s.finish .success)

/-- The cursor one sector on (46 R114): `x[addr]` by one erase block, `x[count]` down by one. -/
def advanceCursor (s : State) : State :=
  (s.setAddr (BitVec.ofNat 32 (s.addrNat + s.cfg.geo.eraseBlockSize))).setCount
    (BitVec.ofNat 32 (s.countNat - 1))

/-- ERASE (46 R114): one sector, and the cursor moves on Success only. -/
def execErase (s : State) : Res State :=
  requireReady s fun s =>
    if s.countNat = 0 then zeroCount s
    else if !validErase s.cfg.geo s.addrNat then .next (s.raise .outOfRange)
    else if beyondReach s.addrNat s.cfg.geo.eraseBlockSize then .refused .reachAbove24
    else
      unlessBusy s fun s =>
      whenEnabled s fun s =>
      andThen (cmdErase s.wireAddr s) fun s =>
      .next ((advanceCursor s).finish .success)

/-- The status transaction of IS_BUSY and the register it writes; `x[result]` is not written
(47 R117). -/
def queryBusy (s : State) : Res State :=
  requireReady s fun s =>
  andThen (cmdStatus s) fun s =>
  .next (s.setBusy s.sawWip).toIdle

/-- IS_BUSY (47 R117). -/
def execIsBusy (s : State) : Res State := queryBusy s

/-- GET_GEOMETRY (47 R119): no bus traffic, and no need of an INIT. -/
def execGetGeometry (s : State) : Res State :=
  requireConfig s fun s =>
  requireIdle s fun s =>
  .next (s.setGeo s.cfg.geo).toIdle

/-- RESERVED_6 (30 R71): selects no operation. -/
def execReserved6 (_s : State) : Res State := .refused .reservedOp

/-- RESERVED_7 (30 R71): selects no operation. -/
def execReserved7 (_s : State) : Res State := .refused .reservedOp

/-- The host's line that polls. -/
def pollLine : Line where
  code := .event .poll
  addr := none
  len := none
  count := none
  src := none

/-- POLL, the host's `repeat { IS_BUSY } until x[busy] = 0` (30 R73, 20 R50): one round of the loop,
in which the host selects IS_BUSY (`x[op] <- 4`, 10 R28, 30 R70) and invokes it; while the device
reports busy the loop stays the host's next line (log entry 33). -/
def execPoll (s : State) : Res State :=
  andThen (queryBusy (s.setOp 4)) fun s =>
    if s.x.busy then .next (s.setProgram (pollLine :: s.program)) else .next s

end Sys2Proof.Machine
end

