-- ==== Sys2Proof/Machine/Dispatch.lean ====
section
/-! DEFINITION. The dispatch: one arm for each constructor of Instr. -/

namespace Sys2Proof.Machine

def exec (i : Instr) (s : State) : Host.Outcome State Fault Refusal :=
  match i with
  | .cmdWren => Sys2Proof.Machine.execCmdWren s
  | .cmdStatus => Sys2Proof.Machine.execCmdStatus s
  | .cmdIdentify => Sys2Proof.Machine.execCmdIdentify s
  | .cmdRead addr n => Sys2Proof.Machine.execCmdRead addr n s
  | .cmdProgram addr data => Sys2Proof.Machine.execCmdProgram addr data s
  | .cmdErase addr => Sys2Proof.Machine.execCmdErase addr s
  | .init => Sys2Proof.Machine.execInit s
  | .read => Sys2Proof.Machine.execRead s
  | .write => Sys2Proof.Machine.execWrite s
  | .erase => Sys2Proof.Machine.execErase s
  | .isBusy => Sys2Proof.Machine.execIsBusy s
  | .getGeometry => Sys2Proof.Machine.execGetGeometry s
  | .reserved6 => Sys2Proof.Machine.execReserved6 s
  | .reserved7 => Sys2Proof.Machine.execReserved7 s
  | .csAssert => Sys2Proof.Machine.execCsAssert s
  | .csDeassert => Sys2Proof.Machine.execCsDeassert s
  | .exchange w n async => Sys2Proof.Machine.execExchange w n async s
  | .busyCheck => Sys2Proof.Machine.execBusyCheck s
  | .wrenHandshake => Sys2Proof.Machine.execWrenHandshake s
  | .poll => Sys2Proof.Machine.execPoll s
  | .selftest => Sys2Proof.Machine.execSelftest s

end Sys2Proof.Machine
end

