-- ==== Sys2Proof/Machine/Fetch.lean ====
section
/-! DEFINITION. How the next instruction comes to the machine: the host's line writes the operand
registers and the source buffer, names what is invoked, and the decoder reads it (spec 10 R28,
30 R70, R72, 70 R144). -/

namespace Sys2Proof.Machine

/-- A value the line gives, or the one the register holds. -/
def given {α : Type} (o : Option α) (old : α) : α := o.getD old

/-- The HOST's writes before it invokes (10 R28): `x[op]` when an operation is selected, the operand
registers the line gives, and the first bytes of the source buffer. -/
def hostWrites (s : State) (l : Line) : State :=
  let s1 := match l.code with
    | .op c => s.setOp c
    | .frame _ => s
    | .event _ => s
  let s2 := ((s1.setAddr (given l.addr s1.x.addr)).setLen (given l.len s1.x.len)).setCount
    (given l.count s1.x.count)
  match l.src with
  | none => s2
  | some bs => s2.setSrc (s2.src.writeBytes 0 bs)

/-- The state in which the line's instruction runs: the line is taken off the program and its writes
are made. -/
def beginLine (s : State) (l : Line) (rest : List Line) : State :=
  hostWrites (s.setProgram rest) l

/-- What the line invokes, in the state its writes leave: the operation that `x[op]` selects, or the
frame or event itself (30 R70). -/
def invokedCode (s : State) (l : Line) : Code :=
  match l.code with
  | .op _ => .op s.x.op
  | .frame bytes => .frame bytes
  | .event i => .event i

/-- A line that only invokes. -/
def bareLine (c : Code) : Line where
  code := c
  addr := none
  len := none
  count := none
  src := none

/-- The line that invokes what a number of the opcode table stands for. -/
def lineOfTableWord (nbits w : Nat) : Line :=
  bareLine (codeOfTableWord nbits w)

end Sys2Proof.Machine
end

