-- ==== Sys2Proof/Machine/Step.lean ====
section
/-! DEFINITION. One step of the machine: the device's engine moves, and the host's next line, if there
is one, is invoked (spec 00 R12, R13, 20 R61). -/

namespace Sys2Proof.Machine

/-- One step. DEV_ENGINE moves first (20 R61). With no line left the block waits in IDLE for the host
(70 R134); otherwise the line's writes are made and its instruction runs. DESIGN CHOICE (log
entry 28): an ill-formed `CFG` is refused by the instruction, not by a step that runs none. -/
def step (s : State) : Host.Outcome State Fault Refusal :=
  match s.program with
  | [] => .next (engineTick s)
  | l :: rest =>
    match decodeCode s.cfg.var (invokedCode (beginLine (engineTick s) l rest) l) with
    | .ok i => exec i (beginLine (engineTick s) l rest)
    | .error e => .refused (.undecodable e)

/-- The state with the instruction of an opcode-table number as the host's next line, so that the
next step runs it (log entries 21, 22). -/
def State.withFetchWord (s : State) (nbits w : Nat) : State :=
  s.setProgram (lineOfTableWord nbits w :: s.program)

end Sys2Proof.Machine
end

