-- ==== Sys2Proof/Safety.lean ====
section
/-! DEFINITION. What counts as a safe state and a safe run, in the terms the statements use: the
engine's moments, the block between operations, the machine's invariant, the reading of a wire trace,
and the comparisons of two states. -/

namespace Sys2Proof.Machine

/-! ### The engine's moments -/

/-- The device after the engine has had `n` moments. -/
def Dev.ticks (c : Config) : Nat → Dev → Dev
  | 0, d => d
  | n + 1, d => Dev.ticks c n (d.tick c)

/-- The state after the engine has had `n` moments and nothing else has happened. -/
def engineTicks (n : Nat) (s : State) : State := s.setDev (s.dev.ticks s.cfg n)

/-- The device after byte times that sent it these bytes, with the engine's moment before each. -/
def Dev.hearAll (c : Config) (d : Dev) : List Byte → Dev
  | [] => d
  | tx :: txs => Dev.hearAll c ((d.tick c).hear tx) txs

/-- The device as it is when the status byte of a transaction that starts now is on the wire: the
engine has had a moment before chip-select falls, before the opcode and before the reply (20 R61). -/
def State.atCheck (s : State) : State := engineTicks 3 s

/-! ### States -/

/-- A transaction can start: `CFG` is well formed, chip-select is deasserted and no exchange runs
(00 R10, 41 R85). -/
def State.BusFree (s : State) : Prop :=
  s.cfg.wf = true ∧ s.ctrl.cs = .deasserted ∧ s.ctrl.xferActive = false

/-- INIT can start: whatever the level of chip-select, which is unspecified before the first INIT
(10 R37, 43 R105). -/
def State.InitCanStart (s : State) : Prop :=
  s.cfg.wf = true ∧ s.ctrl.xferActive = false ∧ s.ctrl.phase = .idle

/-- `WIP` shows exactly whether an update is pending in the device (10 R34, 20 R61); a clause of the
invariant below. -/
def State.Consistent (s : State) : Prop := s.dev.pending.isSome = wip s.dev.sr

/-- The block between operations (10 R23, R24). -/
def State.Between (s : State) : Prop :=
  s.BusFree ∧ s.ctrl.phase = .idle

/-- The block between operations after a successful INIT (70 R136). -/
def State.Ready (s : State) : Prop :=
  s.Between ∧ s.ctrl.initialised = true

/-- The pending update touches addresses of the array only. -/
def pendingInArray (g : Geometry) : Option Pending → Prop
  | none => True
  | some p =>
    match p.update with
    | .program a d => programInArray g a.toNat d.length = true
    | .erase a => a.toNat < g.totalSize

/-- The level of the chip-select line after a list of events, from a level on; none when an event is
out of place: a second `CS↓`, a second `CS↑`, or a byte outside a transaction (41 R87). -/
def levelAfter : CsLevel → List WireEvent → Option CsLevel
  | l, [] => some l
  | .deasserted, .csDown :: es => levelAfter .asserted es
  | .asserted, .csUp :: es => levelAfter .deasserted es
  | .asserted, .byte _ _ :: es => levelAfter .asserted es
  | .deasserted, .csUp :: _ => none
  | .deasserted, .byte _ _ :: _ => none
  | .asserted, .csDown :: _ => none

/-- The invariant of the machine: the memories are canonical and the array lists only addresses that
exist; `WIP` shows exactly whether an update is pending, and the pending update is inside the array;
no exchange is under way between two steps; chip-select is asserted only inside a transaction, the
device has received nothing outside one, and in one it can be busy only if it was busy when the opcode
came; and the wire trace is made of whole transactions, the last one open exactly when chip-select is
asserted. -/
structure State.Inv (s : State) : Prop where
  srcWf : s.src.wf
  dstWf : s.dst.wf
  arrayWf : s.dev.array.wf
  arrayBelow : s.dev.array.below s.cfg.geo.totalSize
  wipShowsPending : s.Consistent
  pendingExists : pendingInArray s.cfg.geo s.dev.pending
  noExchange : s.ctrl.xferActive = false
  busPosition :
    (s.ctrl.cs = .deasserted ∧ s.ctrl.phase = .idle ∧ s.dev.rx = [] ∧ s.dev.ignoring = false) ∨
      (s.ctrl.cs = .asserted ∧ s.ctrl.phase = .command)
  busySinceOpcode : s.dev.rx ≠ [] → wip s.dev.sr = true → s.dev.ignoring = true
  traceLevel : levelAfter .deasserted s.trace = some s.ctrl.cs

/-! ### The wire trace -/

/-- The frames of a trace and, before them, the bytes of a transaction that began earlier. -/
def splitFrames : List WireEvent → List Byte × List (List Byte)
  | [] => ([], [])
  | .csDown :: es => ([], (splitFrames es).1 :: (splitFrames es).2)
  | .csUp :: es => ([], (splitFrames es).2)
  | .byte tx _ :: es => (tx :: (splitFrames es).1, (splitFrames es).2)

/-- The bytes the block transmits, one list for each transaction of the trace (00 R17). -/
def sentFrames (es : List WireEvent) : List (List Byte) := (splitFrames es).2

/-- The events an instruction adds to the trace. -/
def newEvents (s t : State) (es : List WireEvent) : Prop := t.trace = s.trace ++ es

/-- The events are whole transactions (41 R87, R95). -/
def wholeTransactions (es : List WireEvent) : Prop :=
  levelAfter .deasserted es = some .deasserted

/-- From `s` to `t` the wire carried whole transactions, and these are the frames the block sent. -/
def sends (s t : State) (frames : List (List Byte)) : Prop :=
  ∃ es, newEvents s t es ∧ wholeTransactions es ∧ sentFrames es = frames

/-- The frame of a status transaction: the opcode and one filler byte (30 R63, F1R2). -/
def statusFrame (c : Config) : List Byte := [c.var.opStatus, c.txFill]

/-- The frame of an identify transaction: the opcode and three filler bytes (30 R63, F1R4). -/
def identifyFrame (c : Config) : List Byte := [c.var.opIdentify, c.txFill, c.txFill, c.txFill]

/-- The frame of a write-enable transaction (30 R63, F1). -/
def wrenFrame (c : Config) : List Byte := [c.var.opWren]

/-- The frame of a read transaction of `n` bytes (30 R63, F4Din). -/
def readFrame (c : Config) (a : Addr24) (n : Nat) : List Byte :=
  header c.var.opRead a ++ List.replicate n c.txFill

/-- The frame of a program transaction (30 R63, F4Dout). -/
def programFrame (c : Config) (a : Addr24) (d : List Byte) : List Byte :=
  header c.var.opProgram a ++ d

/-- The frame of an erase transaction (30 R63, F4). -/
def eraseFrame (c : Config) (a : Addr24) : List Byte := header c.var.opErase a

/-! ### Comparing two states -/

/-- Every byte of two memories reads the same. -/
def SameBytes (m n : Memory) : Prop := ∀ a, n.read a = m.read a

/-- The device holds the same: status, identity, every byte of the array, the pending update. -/
def SameDevice (s t : State) : Prop :=
  t.dev.sr = s.dev.sr ∧ t.dev.id0 = s.dev.id0 ∧ t.dev.id1 = s.dev.id1 ∧ t.dev.id2 = s.dev.id2 ∧
    SameBytes s.dev.array t.dev.array ∧ t.dev.pending = s.dev.pending ∧
    t.dev.profile = s.dev.profile

/-- The device holds the same but for `WIP`, `WEL` and the pending update. -/
def SameDeviceButWriting (s t : State) : Prop :=
  (∀ k, 2 ≤ k → t.dev.sr.getLsbD k = s.dev.sr.getLsbD k) ∧ t.dev.id0 = s.dev.id0 ∧
    t.dev.id1 = s.dev.id1 ∧ t.dev.id2 = s.dev.id2 ∧ SameBytes s.dev.array t.dev.array ∧
    t.dev.profile = s.dev.profile

/-- The device holds what the engine left after some number of moments. -/
def DeviceMoved (s t : State) : Prop := ∃ n, SameDevice (engineTicks n s) t

/-- The device holds what the engine left after some number of moments, but for `WIP`, `WEL` and the
pending update. -/
def DeviceMovedButWriting (s t : State) : Prop := ∃ n, SameDeviceButWriting (engineTicks n s) t

/-- Nothing has become pending, and `WIP` is as the engine left it. -/
def NothingAccepted (s t : State) : Prop :=
  ∃ n, t.dev.pending = (engineTicks n s).dev.pending ∧ wip t.dev.sr = wip (engineTicks n s).dev.sr

/-- Every byte of the array reads as before, or as the update that was pending leaves it. -/
def ArrayMoved (s t : State) : Prop :=
  SameBytes s.dev.array t.dev.array ∨
    ∃ p, s.dev.pending = some p ∧
      SameBytes (updatedArray s.cfg s.dev.array (p.draw + 1) p.update) t.dev.array

/-- The host's side is the same: configuration, operand and result registers, both buffers, and the
lines still to run. -/
def SameHost (s t : State) : Prop :=
  t.cfg = s.cfg ∧ t.x = s.x ∧ SameBytes s.src t.src ∧ SameBytes s.dst t.dst ∧
    t.program = s.program

/-- The controller is the same but for its position: phase and chip-select. -/
def SameCtrlButPosition (s t : State) : Prop :=
  t.ctrl = { s.ctrl with phase := t.ctrl.phase, cs := t.ctrl.cs }

/-- The controller is the same but for its position and its data counter. -/
def SameCtrlButOffset (s t : State) : Prop :=
  t.ctrl = { s.ctrl with phase := t.ctrl.phase, cs := t.ctrl.cs, off := t.ctrl.off }

/-- The opcode byte of a wire command under a variant; none of any other instruction (30 R68). -/
def commandOpcode (v : Variant) : Instr → Option Byte
  | .cmdWren => some v.opWren
  | .cmdStatus => some v.opStatus
  | .cmdIdentify => some v.opIdentify
  | .cmdRead _ _ => some v.opRead
  | .cmdProgram _ _ => some v.opProgram
  | .cmdErase _ => some v.opErase
  | .init => none
  | .read => none
  | .write => none
  | .erase => none
  | .isBusy => none
  | .getGeometry => none
  | .reserved6 => none
  | .reserved7 => none
  | .poll => none
  | .csAssert => none
  | .csDeassert => none
  | .exchange _ _ _ => none
  | .busyCheck => none
  | .wrenHandshake => none
  | .selftest => none

/-- The host operations: what `x[op]` selects (30 R70), and the host's loop POLL (30 R73). -/
def isHostOp : Instr → Bool
  | .init => true
  | .read => true
  | .write => true
  | .erase => true
  | .isBusy => true
  | .getGeometry => true
  | .reserved6 => true
  | .reserved7 => true
  | .poll => true
  | .cmdWren => false
  | .cmdStatus => false
  | .cmdIdentify => false
  | .cmdRead _ _ => false
  | .cmdProgram _ _ => false
  | .cmdErase _ => false
  | .csAssert => false
  | .csDeassert => false
  | .exchange _ _ _ => false
  | .busyCheck => false
  | .wrenHandshake => false
  | .selftest => false

end Sys2Proof.Machine
end

