-- ==== Sys2Proof/Certificates/Slice0/Obligations.lean ====
section
/-! DEFINITION. The statements for the provers, each a proposition about the machine of
Sys2Proof/Machine, from the numbered rules of spec/. -/

open Sys2Proof Sys2Proof.Machine

/-! ### Encoding -/

/-- A few frames and selection codes, written out from 30 R63, R64, R68 (the `REF` column) and R70,
are the instructions they stand for. -/
def Obligations.SampleWordsDecode : Prop :=
  decodeFrame refVariant [0x06] = .ok .cmdWren ∧
  decodeFrame refVariant [0x05, 0x00] = .ok .cmdStatus ∧
  decodeFrame refVariant [0x9F, 0x00, 0x00, 0x00] = .ok .cmdIdentify ∧
  decodeFrame refVariant [0x03, 0x12, 0x34, 0x56, 0xA5, 0xA5] = .ok (.cmdRead 0x123456 2) ∧
  decodeFrame refVariant [0x02, 0x00, 0x00, 0xFA, 0x01, 0x02] =
    .ok (.cmdProgram 0x0000FA [0x01, 0x02]) ∧
  decodeFrame refVariant [0x52, 0x00, 0x80, 0x00] = .ok (.cmdErase 0x008000) ∧
  decodeOp 0 = .init ∧ decodeOp 1 = .read ∧ decodeOp 2 = .write ∧ decodeOp 3 = .erase ∧
  decodeOp 4 = .isBusy ∧ decodeOp 5 = .getGeometry ∧ decodeOp 6 = .reserved6 ∧
  decodeOp 7 = .reserved7

/-- Decoding the code of a well-formed instruction gives it back, for every instruction, every
operand and every well-formed configuration (30 R63 to R70). -/
def Obligations.DecodeAfterEncode : Prop :=
  ∀ (c : Config) (i : Instr), c.wf = true → i.wellFormed c = true →
    decodeCode c.var (encode c i) = .ok i

/-- A frame that decodes to a program or an erase command is, byte for byte, that command's frame,
and one that decodes to a read carries the read's header and one byte time for each byte read: no
bit of an address or of the data is lost or invented (30 R63, R64, R65). -/
def Obligations.DecodedFramesAreTheirFrames : Prop :=
  ∀ (c : Config) (bytes : List Byte) (a : Addr24), c.wf = true →
    (∀ d, decodeFrame c.var bytes = .ok (.cmdProgram a d) → bytes = programFrame c a d ∧ d ≠ []) ∧
    (decodeFrame c.var bytes = .ok (.cmdErase a) → bytes = eraseFrame c a) ∧
    (∀ n, decodeFrame c.var bytes = .ok (.cmdRead a n) →
      1 ≤ n ∧ bytes.length = 4 + n ∧ bytes.take 4 = header c.var.opRead a)

/-- Byte 0 alone selects the command: a frame that decodes to a command has that command's opcode as
its byte 0; two frames with the same byte 0 never decode to different commands, whatever bytes the
opcodes are; a first byte that is none of the six opcodes is rejected by name, and so is a frame of no
byte (30 R65, R68, R71). -/
def Obligations.UnknownOpcodesRejected : Prop :=
  ∀ (c : Config) (b : Byte) (rest : List Byte), c.wf = true →
    (∀ i, decodeFrame c.var (b :: rest) = .ok i → commandOpcode c.var i = some b) ∧
    (∀ i rest' j, decodeFrame c.var (b :: rest) = .ok i → decodeFrame c.var (b :: rest') = .ok j →
      ∀ v, commandOpcode v i = commandOpcode v j) ∧
    (decodeFrame c.var (b :: rest) = .error (.unknownOpcode b) ↔ b ∉ c.var.opcodes) ∧
    decodeFrame c.var [] = .error .emptyFrame

/-- The header and the address encoder: the header's bytes on the wire are the 32-bit `H`, opcode and
then address, its most significant byte first; the three address bytes are `x[addr][23:16]`,
`x[addr][15:8]`, `x[addr][7:0]`, and for an address below `2^24` they lose nothing (30 R64, R66). -/
def Obligations.AddressBytesBigEndian : Prop :=
  (∀ (op : Byte) (a : Addr24),
    let h := headerWord op a
    h.extractLsb' 24 8 = op ∧ h.extractLsb' 0 24 = a ∧ header op a =
      [h.extractLsb' 24 8, h.extractLsb' 16 8, h.extractLsb' 8 8, h.extractLsb' 0 8]) ∧
  ∀ s : State,
    addrBytes s.wireAddr =
      [s.x.addr.extractLsb' 16 8, s.x.addr.extractLsb' 8 8, s.x.addr.extractLsb' 0 8] ∧
    (s.addrNat < 2 ^ 24 → s.wireAddr.toNat = s.addrNat)

/-! ### Reset and the step -/

/-- The reset values the spec gives: not initialised, phase IDLE, no exchange active (10 R37,
70 R134). -/
def Obligations.ResetValuesOfTheSpec : Prop :=
  State.reset.ctrl.initialised = false ∧ State.reset.ctrl.phase = .idle ∧
    State.reset.ctrl.xferActive = false

/-- The invariant holds at reset. The clauses about chip-select, the buffers and the device rest on
values the model names (log entries 3, 4, 5). -/
def Obligations.ResetSatisfiesInvariant : Prop :=
  State.reset.Inv

/-- After reset the block starts nothing by itself: with no line of the host the step leaves the
reset state as it is (70 R134: it "waits in `IDLE` for the host"). That no line is there and nothing is
pending in the device are the model's choices (log entries 5, 21). -/
def Obligations.ResetWaitsForTheHost : Prop :=
  Machine.step State.reset = .next State.reset

/-- A step runs the decoded instruction: the engine moves, the host's line is taken off the program
and its writes are made, and then the step is `exec` of what `x[op]`, the frame or the event decodes
to; a line that decodes to nothing is refused by name; with no line the engine alone moves. The line and
the engine's place in the step are the model's (log entries 11, 21). -/
def Obligations.StepRunsDecodedInstruction : Prop :=
  (∀ (s : State) (l : Line) (rest : List Line) (i : Instr), s.program = l :: rest →
    decodeCode s.cfg.var (invokedCode (beginLine (engineTick s) l rest) l) = .ok i →
    Machine.step s = exec i (beginLine (engineTick s) l rest)) ∧
  (∀ (s : State) (l : Line) (rest : List Line) (e : DecodeError), s.program = l :: rest →
    decodeCode s.cfg.var (invokedCode (beginLine (engineTick s) l rest) l) = .error e →
    Machine.step s = .refused (.undecodable e)) ∧
  (∀ s : State, s.program = [] → Machine.step s = .next (engineTick s))

/-- What a line of the host does before its instruction runs: it leaves the program, `x[op]` takes
the code it selects, the operand registers it gives take their values and the others keep theirs,
the bytes it gives go to the source buffer from index 0, and nothing else changes (10 R28; the line is
the model's, log entry 21). -/
def Obligations.HostLineWritesOperands : Prop :=
  ∀ (s : State) (l : Line) (rest : List Line),
    let t := beginLine s l rest
    t.program = rest ∧
    t.x = { s.x with
      op := (match l.code with | .op c => c | .frame _ => s.x.op | .event _ => s.x.op)
      addr := l.addr.getD s.x.addr
      len := l.len.getD s.x.len
      count := l.count.getD s.x.count } ∧
    (∀ i, t.src.read i =
      if i < (l.src.getD []).length then (l.src.getD []).getD i 0 else s.src.read i) ∧
    t.cfg = s.cfg ∧ t.ctrl = s.ctrl ∧ t.dst = s.dst ∧ t.dev = s.dev ∧ t.trace = s.trace ∧
    t.capture = s.capture ∧ t.draws = s.draws

/-! ### Invariants and whole-machine rules -/

/-- Every step keeps the invariant: canonical memories, an array that lists only addresses that
exist, `WIP` equal to "an update is pending", no exchange left under way, nothing heard outside a
transaction and no device that becomes busy inside one, and a wire trace of whole transactions whose
level is `S.cs` (10 R23, R26, R34, 20 R54, R61, 41 R87). -/
def Obligations.StepKeepsInvariant : Prop :=
  ∀ s t : State, s.Inv → Machine.step s = .next t → t.Inv

/-- No operation writes any field of `CFG`, and no step does (10 R18). -/
def Obligations.ConfigurationNeverChanges : Prop :=
  (∀ (i : Instr) (s t : State), exec i s = .next t → t.cfg = s.cfg) ∧
  (∀ s t : State, Machine.step s = .next t → t.cfg = s.cfg)

/-- Only ERASE writes the cursor, `x[addr]` and `x[count]`, and only when it returns Success; an ERASE
of a non-zero count that returns Success, in any state, moves it by exactly one erase block; no
instruction writes `x[len]`, and none writes `x[op]` but POLL, the host's loop, which selects IS_BUSY
with it: one round of the loop a step is the model's (log entry 33) (10 R28, R29, 30 R70, R73, 46 R114,
R115). -/
def Obligations.OnlyEraseWritesTheCursor : Prop :=
  ∀ (i : Instr) (s t : State), exec i s = .next t →
    t.x.op = (if i = .poll then 4 else s.x.op) ∧ t.x.len = s.x.len ∧
    (i ≠ .erase ∨ t.x.result ≠ 0 → t.x.addr = s.x.addr ∧ t.x.count = s.x.count) ∧
    (i = .erase → t.x.result = 0 → s.countNat ≠ 0 →
      t.addrNat = s.addrNat + s.cfg.geo.eraseBlockSize ∧ t.countNat = s.countNat - 1)

/-- Which instruction writes which result: `x[result]` only INIT, READ, WRITE and ERASE; `x[busy]`
only IS_BUSY and POLL; `x[geo]` only GET_GEOMETRY; and what INIT, READ, WRITE and ERASE write is one
of the codes 60 R121 allows them, never a reserved one (10 R28, 60 R121). -/
def Obligations.ResultsAndTheirWriters : Prop :=
  ∀ (i : Instr) (s t : State), exec i s = .next t →
    (i ≠ .init → i ≠ .read → i ≠ .write → i ≠ .erase → t.x.result = s.x.result) ∧
    (i ≠ .isBusy → i ≠ .poll → t.x.busy = s.x.busy) ∧
    (i ≠ .getGeometry → t.x.geo = s.x.geo) ∧
    (i = .init → t.x.result = 0 ∨ t.x.result = 4) ∧
    (i = .read → t.x.result = 0 ∨ t.x.result = 1 ∨ t.x.result = 2) ∧
    (i = .write ∨ i = .erase →
      t.x.result = 0 ∨ t.x.result = 1 ∨ t.x.result = 2 ∨ t.x.result = 3)

/-- The array changes only when DEV_ENGINE completes the update that was pending, inside an
instruction or not: every byte reads as before, or as that update leaves it, and with nothing pending
every byte reads as before. No instruction changes the identity or the source buffer; `dst` is
written only by READ and CMD_READ, at the indexes they read (20 R48, R61, 10 R30, R32). -/
def Obligations.OnlyTheEngineChangesTheArray : Prop :=
  ∀ (i : Instr) (s t : State), exec i s = .next t →
    ArrayMoved s t ∧ (s.dev.pending = none → SameBytes s.dev.array t.dev.array) ∧
    SameBytes s.src t.src ∧
    t.dev.id0 = s.dev.id0 ∧ t.dev.id1 = s.dev.id1 ∧ t.dev.id2 = s.dev.id2 ∧
    (∀ k, (i = .read → s.lenNat ≤ k) → (∀ a n, i = .cmdRead a n → n ≤ k) →
      t.dst.read k = s.dst.read k)

/-- Whatever a host operation does, it does between transactions: started between operations (INIT:
at any level of chip-select) it ends between operations, with chip-select deasserted and phase IDLE,
and what it put on the wire is whole transactions; so every error is raised between transactions
(41 R87, 10 R23, R37, 43 R105). -/
def Obligations.HostOperationsEndBetweenTransactions : Prop :=
  ∀ (i : Instr) (s t : State), isHostOp i = true → s.Between ∨ i = .init ∧ s.InitCanStart →
    exec i s = .next t → t.Between ∧ ∃ frames, sends s t frames

/-- Every frame a host operation puts on the wire decodes, under the variant's opcodes, to a
well-formed wire command: never another opcode, never a read or program past the end of the array,
never a program that crosses its page, never an unaligned erase; and the address it carries is
`x[addr]`, whole, with the length or the data of the operation, no byte of it at or above `2^24`: READ
alone sends reads, WRITE programs, ERASE erases (20 R39, R41, 40 R81, 70 R140, 30 R71). -/
def Obligations.HostOperationsSendOnlyWellFormedFrames : Prop :=
  ∀ (i : Instr) (s t : State), isHostOp i = true → s.Between ∨ i = .init ∧ s.InitCanStart →
    exec i s = .next t →
    ∃ frames, sends s t frames ∧
      ∀ f ∈ frames, ∃ w, decodeFrame s.cfg.var f = .ok w ∧ w.wellFormed s.cfg = true ∧
        (∀ a n, w = .cmdRead a n → i = .read ∧ a.toNat = s.addrNat ∧ n = s.lenNat ∧
          a.toNat + n ≤ 2 ^ 24) ∧
        (∀ a d, w = .cmdProgram a d → i = .write ∧ a.toNat = s.addrNat ∧
          d = s.src.readBytes 0 s.lenNat ∧ a.toNat + d.length ≤ 2 ^ 24) ∧
        (∀ a, w = .cmdErase a → i = .erase ∧ a.toNat = s.addrNat ∧
          a.toNat + s.cfg.geo.eraseBlockSize ≤ 2 ^ 24)

/-- Nothing a host operation does depends on what an earlier exchange captured: the controller holds
no copy of the device's status, identity or data between operations (10 R27). -/
def Obligations.OperationsDoNotReadOldReplies : Prop :=
  ∀ (i : Instr) (s : State) (old : List Byte), isHostOp i = true →
    exec i (s.setCapture old) = exec i s

/-- Two memories in canonical form that read alike at every address are the same list: equal memories
are equal data. -/
def Obligations.CanonicalMemoriesAreEqual : Prop :=
  ∀ m n : Memory, m.wf → n.wf → SameBytes m n → m = n

/-! ### The engine -/

/-- DEV_ENGINE's one step: when its time has come the pending update takes effect, nothing is pending
and `WIP` is 0, and in the reference device `WEL` is 0; a program inside its page leaves
`PROG(old, new)` in each byte it covers, an erase leaves `0xFF` in every byte of the block that holds
its address, every other byte of the array is as it was, and nothing of the controller or the host
changes. Before that, and with nothing pending, the step changes no more than the delay (20 R59, R60,
R61). The delay is the model's (log entry 11), and `WEL` at completion is the reference device's, from
general knowledge (log entry 9). -/
def Obligations.EngineCompletesPendingUpdate : Prop :=
  (∀ (s : State) (p : Pending), s.dev.pending = some p → p.delay = 0 →
    let t := engineTick s
    t.dev.pending = none ∧ wip t.dev.sr = false ∧
    (s.dev.profile.clearsLatch = true → wel t.dev.sr = false) ∧
    (∀ a d, p.update = .program a d →
      a.toNat % s.cfg.geo.pageSize + d.length ≤ s.cfg.geo.pageSize → ∀ k, t.dev.array.read k =
        if a.toNat ≤ k ∧ k < a.toNat + d.length then
          progByte s.cfg.prog (s.dev.array.read k) (d.getD (k - a.toNat) 0)
        else s.dev.array.read k) ∧
    (∀ a, p.update = .erase a → ∀ k, t.dev.array.read k =
      if a.toNat - a.toNat % s.cfg.geo.eraseBlockSize ≤ k ∧
        k < a.toNat - a.toNat % s.cfg.geo.eraseBlockSize + s.cfg.geo.eraseBlockSize then 0xFF
      else s.dev.array.read k) ∧
    SameHost s t ∧ t.ctrl = s.ctrl ∧ t.trace = s.trace) ∧
  (∀ (s : State) (p : Pending), s.dev.pending = some p → p.delay ≠ 0 →
    engineTick s = s.setPending (some { p with delay := p.delay - 1 })) ∧
  (∀ s : State, s.dev.pending = none → engineTick s = s)

/-- Every pending update completes (20 R61, weak fairness; the delay is the model's, log entry 11). Left
alone, the engine needs one step more than its delay, and until then nothing that a program can see
changes. Every step at all, whatever line of the host it runs, brings the update nearer or leaves it
done: it is still pending with a smaller delay, or the array reads as it leaves it. And the host's
polling run, POLL repeated until it reads `WIP = 0`, ends: after at most two steps more than the delay no
line is left, `x[busy]` is 0 and the device is idle (20 R50, 30 R73). -/
def Obligations.PendingUpdateCompletes : Prop :=
  (∀ (s : State) (p : Pending), s.program = [] → s.dev.pending = some p →
    (∀ n ≤ p.delay, ∃ t, Host.Core.run core n s = .next t ∧
      t.dev = { s.dev with pending := some { p with delay := p.delay - n } }) ∧
    ∃ u, Host.Core.run core (p.delay + 1) s = .next u ∧ u.dev.pending = none ∧
      wip u.dev.sr = false) ∧
  (∀ (s t : State) (p : Pending), s.Consistent → s.dev.pending = some p →
    Machine.step s = .next t →
    (∃ d < p.delay, t.dev.pending = some { p with delay := d }) ∨
      SameBytes (updatedArray s.cfg s.dev.array (p.draw + 1) p.update) t.dev.array) ∧
  (∀ (s : State) (p : Pending), s.Ready → s.Consistent → s.dev.pending = some p →
    s.program = [pollLine] →
    ∃ n ≤ p.delay + 2, ∃ t, Host.Core.run core n s = .next t ∧ t.program = [] ∧
      t.x.busy = false ∧ t.dev.pending = none ∧ wip t.dev.sr = false)

/-- Programming an erased byte leaves the byte programmed, under every program function, and the
reference function, which is general knowledge (log entry 10), only clears bits (20 R59). -/
def Obligations.ProgramFunctionOnErasedBytes : Prop :=
  ∀ (r : ProgRule) (old new : Byte), progByte r 0xFF new = new ∧
    (r = .overwrite → progByte r old new = new) ∧
    (r = .clearBits → progByte r old new = old &&& new)

/-! ### The transport primitives -/

/-- CS_ASSERT with chip-select deasserted and no exchange active: chip-select is asserted, the trace
gains `CS↓`, the phase is COMMAND, and the device starts a new frame; nothing else changes but what the
engine does in its moment before the edge (log entry 11). With chip-select asserted already it is a
fault of the model (41 R85), and with an exchange active too, by the model's choice (log entry 39). -/
def Obligations.ChipSelectAsserts : Prop :=
  ∀ s : State, s.cfg.wf = true →
    (s.ctrl.cs = .deasserted → s.ctrl.xferActive = false → ∃ t, exec .csAssert s = .next t ∧
      t.ctrl = { s.ctrl with cs := .asserted, phase := .command } ∧
      t.trace = s.trace ++ [.csDown] ∧ t.dev.rx = [] ∧ t.dev.ignoring = false ∧
      SameDevice (engineTick s) t ∧ SameHost s t ∧ t.capture = s.capture ∧ t.draws = s.draws) ∧
    (s.ctrl.cs = .asserted ∨ s.ctrl.xferActive = true →
      exec .csAssert s = .fault .csProtocol)

/-- CS_DEASSERT after each kind of frame that a device takes: chip-select is deasserted, the trace
gains `CS↑`, the phase is IDLE, and the device, as the engine's moment before the edge has left it,
acts on what it received: nothing for no frame, status, identify or read; for write-enable `WEL` is set by
a healthy idle device, kept by a locked one and by a healthy busy one, and set or kept by one that leaves
it to a free value, as that value says; an update accepted, `WIP` set, for a program or erase frame of the
array at a device with `WEL = 1` and `WIP = 0`, and nothing at any other, whatever follows the opcode
byte; a frame that completes no command keeps or clears `WEL` of an idle device, as a free value says, and
does nothing at a busy one (41 R86, 20 R54 to R60, R62, 10 R31). The moment of action and the busy device
are general knowledge (log entries 12, 13). The model's: the phase after it (log entry 18); the engine's
moment (log entry 11); no frame at all, bytes past the end of a write-enable, erase, status or identify
frame, and a frame that completes no command (log entry 14); the free value of a latch (log entry 7); and
the fault with chip-select deasserted already or an exchange active (log entry 39). -/
def Obligations.ChipSelectDeasserts : Prop :=
  ∀ s : State, s.cfg.wf = true →
    let e := engineTick s
    let ended := fun t : State => t.ctrl = { s.ctrl with cs := .deasserted, phase := .idle } ∧
      t.trace = s.trace ++ [.csUp] ∧ t.dev.rx = [] ∧ t.dev.ignoring = false ∧ SameHost s t
    (s.ctrl.cs = .deasserted ∨ s.ctrl.xferActive = true →
      exec .csDeassert s = .fault .csProtocol) ∧
    (s.ctrl.cs = .asserted → s.ctrl.xferActive = false →
      ((s.dev.rx = [] ∨ ∃ op rest, s.dev.rx = op :: rest ∧
          (op = s.cfg.var.opStatus ∨ op = s.cfg.var.opIdentify ∨ op = s.cfg.var.opRead)) →
        ∃ t, exec .csDeassert s = .next t ∧ ended t ∧ SameDevice e t) ∧
      (∀ more, s.dev.rx = wrenFrame s.cfg ++ more → s.dev.profile.latch = .sets →
        wip e.dev.sr = false → ∃ t, exec .csDeassert s = .next t ∧ ended t ∧ wel t.dev.sr = true ∧
          wip t.dev.sr = false ∧ t.dev.pending = e.dev.pending ∧ SameDeviceButWriting e t) ∧
      (∀ more, s.dev.rx = wrenFrame s.cfg ++ more →
        (s.dev.profile.latch = .stuck ∨ s.dev.profile.latch = .sets ∧ wip e.dev.sr = true) →
        ∃ t, exec .csDeassert s = .next t ∧ ended t ∧ SameDevice e t) ∧
      (∀ more, s.dev.rx = wrenFrame s.cfg ++ more → s.dev.profile.latch = .unstated →
        ∃ t, exec .csDeassert s = .next t ∧ ended t ∧
          wel t.dev.sr = (wel e.dev.sr || Config.freeBit s.draws) ∧
          wip t.dev.sr = wip e.dev.sr ∧ t.dev.pending = e.dev.pending ∧
          SameDeviceButWriting e t) ∧
      (∀ a d, s.dev.rx = programFrame s.cfg a d → d ≠ [] → wel e.dev.sr = true →
        wip e.dev.sr = false → a.toNat % s.cfg.geo.pageSize + d.length ≤ s.cfg.geo.pageSize →
        a.toNat + d.length ≤ s.cfg.geo.totalSize →
        ∃ t p, exec .csDeassert s = .next t ∧ ended t ∧ t.dev.pending = some p ∧
          p.update = .program a d ∧ wip t.dev.sr = true ∧ wel t.dev.sr = true ∧
          SameDeviceButWriting e t) ∧
      (∀ a more, s.dev.rx = eraseFrame s.cfg a ++ more → wel e.dev.sr = true →
        wip e.dev.sr = false → a.toNat < s.cfg.geo.totalSize →
        ∃ t p, exec .csDeassert s = .next t ∧ ended t ∧ t.dev.pending = some p ∧
          p.update = .erase a ∧ wip t.dev.sr = true ∧ wel t.dev.sr = true ∧
          SameDeviceButWriting e t) ∧
      (∀ op rest, s.dev.rx = op :: rest →
        (op = s.cfg.var.opProgram ∨ op = s.cfg.var.opErase) →
        (wel e.dev.sr = false ∨ wip e.dev.sr = true) →
        ∃ t, exec .csDeassert s = .next t ∧ ended t ∧ SameDevice e t) ∧
      (∀ op rest, s.dev.rx = op :: rest →
        (op ∉ s.cfg.var.opcodes ∨ wel e.dev.sr = true ∧
          (op = s.cfg.var.opProgram ∧ rest.length < 4 ∨
            op = s.cfg.var.opErase ∧ rest.length < 3)) →
        ∃ t, exec .csDeassert s = .next t ∧ ended t ∧
          (wip e.dev.sr = true → SameDevice e t) ∧
          (wip e.dev.sr = false →
            wel t.dev.sr = (wel e.dev.sr && Config.freeBit s.draws) ∧
            wip t.dev.sr = false ∧ t.dev.pending = e.dev.pending ∧ SameDeviceButWriting e t)))

/-- EXCHANGE(w, n) inside a transaction, not reading past the array's end: `max(wlen, n)` byte times;
the bytes of `w` and then `TX_FILL` go out; each byte sampled is what the device, having heard the bytes
before it and as the engine has then left it, drives in that byte time, where it drives one; the first
`n` are captured; and nothing but the trace, the device's received bytes, the engine's doing, the count
of free values and the capture buffer changes (41 R88 to R90, R93). The rest is the model's: outside a
transaction, or with an exchange active, it is a fault (log entry 39), an asynchronous exchange answers as
the synchronous one does (log entry 23), an operand longer than `MAX_XFER` is refused before anything
else (log entries 25, 28), and reading past the end of the array is a fault (log entry 16). -/
def Obligations.ExchangeIsFullDuplex : Prop :=
  ∀ (s : State) (w : List Byte) (n : Nat), s.cfg.wf = true →
    let tx := w ++ List.replicate (n - w.length) s.cfg.txFill
    (∀ async, exec (.exchange w n async) s = exec (.exchange w n false) s) ∧
    (w.length ≤ s.cfg.maxXfer → n ≤ s.cfg.maxXfer →
      (s.ctrl.cs = .deasserted ∨ s.ctrl.xferActive = true →
        exec (.exchange w n false) s = .fault .csProtocol) ∧
      (s.ctrl.cs = .asserted → s.ctrl.xferActive = false →
        readPastEnd s.cfg (s.dev.hearAll s.cfg tx) = true →
        exec (.exchange w n false) s = .fault .outsideArray) ∧
      (s.ctrl.cs = .asserted → s.ctrl.xferActive = false →
        readPastEnd s.cfg (s.dev.hearAll s.cfg tx) = false →
        ∃ t rs, exec (.exchange w n false) s = .next t ∧ rs.length = max w.length n ∧
          (∀ k b, k < tx.length →
            driven s.cfg.var ((s.dev.hearAll s.cfg (tx.take k)).tick s.cfg) = some b →
            rs.getD k 0 = b) ∧
          t.capture = rs.take n ∧ t.trace = s.trace ++ List.zipWith WireEvent.byte tx rs ∧
          t.dev.rx = s.dev.rx ++ tx ∧ t.ctrl = s.ctrl ∧
          SameDevice (engineTicks tx.length s) t ∧ SameHost s t)) ∧
    (¬ (w.length ≤ s.cfg.maxXfer ∧ n ≤ s.cfg.maxXfer) →
      exec (.exchange w n false) s = .refused .exchangeTooLong)

/-! ### The wire commands and the checks -/

/-- CMD_STATUS and BUSY_CHECK: one transaction of two byte times; the second captured byte is the
device's status byte at that moment, whether or not it is busy; the device is as the engine leaves it
after the transaction's four moments, and the host's side does not change (42 R98, R103, 20 R55). Here
and below the phase after a wire command run by itself is the model's (log entry 18), and so is where
the engine's moments lie (log entry 11). -/
def Obligations.StatusCommandReturnsStatus : Prop :=
  ∀ s : State, s.BusFree →
    (∃ t, exec .cmdStatus s = .next t ∧ t.capture.length = 2 ∧
      t.capture.getD 1 0 = s.atCheck.dev.sr ∧ sends s t [statusFrame s.cfg] ∧
      SameDevice (engineTicks 4 s) t ∧ SameHost s t ∧ t.ctrl = { s.ctrl with phase := .idle }) ∧
    (∃ t, exec .busyCheck s = .next t ∧ wip (t.capture.getD 1 0) = wip s.atCheck.dev.sr ∧
      sends s t [statusFrame s.cfg] ∧ SameDevice (engineTicks 4 s) t ∧ SameHost s t ∧
      t.ctrl = { s.ctrl with phase := .idle })

/-- CMD_IDENTIFY: one transaction of four byte times, whatever the device is; the last three captured
bytes are the identity of a device that is idle when the opcode comes and that answers; the device is as
the engine leaves it after the transaction's six moments, and the host's side does not change (42 R99,
20 R56, R62; the phase is log entry 18's). -/
def Obligations.IdentifyCommandReturnsIdentity : Prop :=
  ∀ s : State, s.BusFree →
    ∃ t, exec .cmdIdentify s = .next t ∧ t.capture.length = 4 ∧
      (wip (engineTicks 2 s).dev.sr = false → s.dev.profile.identifies = true →
        t.capture.drop 1 = [s.dev.id0, s.dev.id1, s.dev.id2]) ∧
      sends s t [identifyFrame s.cfg] ∧ SameDevice (engineTicks 6 s) t ∧ SameHost s t ∧
      t.ctrl = { s.ctrl with phase := .idle }

/-- CMD_WREN: one transaction of one byte time; a healthy device that is idle when chip-select rises
sets `WEL`, a locked one leaves it, and no device does anything else, but for the engine in the
transaction's three moments (42 R97, 20 R57; the phase is log entry 18's). -/
def Obligations.WriteEnableSetsTheLatch : Prop :=
  ∀ s : State, s.BusFree →
    let e := engineTicks 3 s
    ∃ t, exec .cmdWren s = .next t ∧ sends s t [wrenFrame s.cfg] ∧
      (s.dev.profile.latch = .sets → wip e.dev.sr = false → wel t.dev.sr = true) ∧
      (s.dev.profile.latch = .stuck → wel t.dev.sr = wel e.dev.sr) ∧
      (wel e.dev.sr = true → wel t.dev.sr = true) ∧
      wip t.dev.sr = wip e.dev.sr ∧ t.dev.pending = e.dev.pending ∧
      SameDeviceButWriting e t ∧ SameHost s t ∧ t.ctrl = { s.ctrl with phase := .idle }

/-- WREN_HANDSHAKE: a write-enable and then one status transaction, which captures the device's status
byte as CMD_STATUS does after CMD_WREN; so at a device with nothing pending, when the write-enable is
taken, the `WEL` it reports is the latch: set by a healthy device, as it was in a locked one
(42 R104; the phase is log entry 18's). -/
def Obligations.HandshakeReportsTheLatch : Prop :=
  ∀ s : State, s.BusFree →
    ∃ v t, exec .cmdWren s = .next v ∧ exec .wrenHandshake s = .next t ∧
      sends s t [wrenFrame s.cfg, statusFrame s.cfg] ∧
      t.capture.getD 1 0 = v.atCheck.dev.sr ∧ SameDevice (engineTicks 4 v) t ∧ SameHost s t ∧
      t.ctrl = { s.ctrl with phase := .idle } ∧
      (s.Consistent → wip (engineTicks 3 s).dev.sr = false →
        wel (t.capture.getD 1 0) = wel t.dev.sr ∧
        (s.dev.profile.latch = .sets → wel t.dev.sr = true) ∧
        (s.dev.profile.latch = .stuck → wel t.dev.sr = wel (engineTicks 3 s).dev.sr))

/-- CMD_READ(A, n) of a range of the array at a device that is idle when the opcode comes: one
transaction, header and `n` byte times, across pages, blocks and chunks; `dst[i]` becomes
`DEV.array[A + i]` for `i < n`, every other byte of `dst` stays, and the device does no more than its
engine does. At a device that is busy then the transaction is the same and the bytes read are free
values (20 R62, log entry 12). Past the end of the array an idle device gives nothing to read: a fault
of the model (log entry 16) (42 R100, 20 R58, 41 R91; the phase is log entry 18's, a range that passes
`2^24 - 1` log entry 37's). -/
def Obligations.ReadCommandReturnsArray : Prop :=
  ∀ (s : State) (a : Addr24) (n : Nat), s.BusFree → 1 ≤ n →
    let e := engineTicks 2 s
    (a.toNat + n ≤ s.cfg.geo.totalSize ∨ wip e.dev.sr = true →
      ∃ t, exec (.cmdRead a n) s = .next t ∧ sends s t [readFrame s.cfg a n] ∧
        (s.Consistent → wip e.dev.sr = false →
          ∀ i < n, t.dst.read i = e.dev.array.read (a.toNat + i)) ∧
        (∀ i, n ≤ i → t.dst.read i = s.dst.read i) ∧
        SameDevice (engineTicks (n + 6) s) t ∧ t.cfg = s.cfg ∧ t.x = s.x ∧
        SameBytes s.src t.src ∧ t.program = s.program ∧
        t.ctrl = { s.ctrl with phase := .idle, off := n }) ∧
    (s.cfg.geo.totalSize < a.toNat + n → wip e.dev.sr = false →
      exec (.cmdRead a n) s = .fault .outsideArray)

/-- CMD_PROGRAM(A, d) inside one page and the array: one transaction, the header and the data; a
device with `WEL = 1` and `WIP = 0` when chip-select rises accepts the program and becomes busy, every
other ignores it; no byte of the array changes but by the engine (42 R101, 20 R59, 70 R139; that a busy
device ignores it is general knowledge, log entries 12, 13, and the phase is log entry 18's). -/
def Obligations.ProgramCommandIsAccepted : Prop :=
  ∀ (s : State) (a : Addr24) (d : List Byte), s.BusFree →
    (Instr.cmdProgram a d).wellFormed s.cfg = true →
    let e := engineTicks (d.length + 6) s
    (wel e.dev.sr = true → wip e.dev.sr = false →
      ∃ t p, exec (.cmdProgram a d) s = .next t ∧ sends s t [programFrame s.cfg a d] ∧
        t.dev.pending = some p ∧ p.update = .program a d ∧ wip t.dev.sr = true ∧
        wel t.dev.sr = true ∧ SameDeviceButWriting e t ∧ SameHost s t ∧
        t.ctrl = { s.ctrl with phase := .idle, off := d.length }) ∧
    (wel e.dev.sr = false ∨ wip e.dev.sr = true →
      ∃ t, exec (.cmdProgram a d) s = .next t ∧ sends s t [programFrame s.cfg a d] ∧
        SameDevice e t ∧ SameHost s t ∧ t.ctrl = { s.ctrl with phase := .idle, off := d.length })

/-- CMD_ERASE(A): one transaction of four byte times; a device with `WEL = 1` and `WIP = 0` when
chip-select rises accepts the erase and becomes busy, every other ignores it; no byte of the array
changes but by the engine (42 R102, 20 R60, 70 R139; that a busy device ignores it is general knowledge,
log entries 12, 13; an unaligned address is the model's, log entry 17, and the phase log entry
18's). -/
def Obligations.EraseCommandIsAccepted : Prop :=
  ∀ (s : State) (a : Addr24), s.BusFree → a.toNat < s.cfg.geo.totalSize →
    let e := engineTicks 6 s
    (wel e.dev.sr = true → wip e.dev.sr = false →
      ∃ t p, exec (.cmdErase a) s = .next t ∧ sends s t [eraseFrame s.cfg a] ∧
        t.dev.pending = some p ∧ p.update = .erase a ∧ wip t.dev.sr = true ∧
        wel t.dev.sr = true ∧ SameDeviceButWriting e t ∧ SameHost s t ∧
        t.ctrl = { s.ctrl with phase := .idle }) ∧
    (wel e.dev.sr = false ∨ wip e.dev.sr = true →
      ∃ t, exec (.cmdErase a) s = .next t ∧ sends s t [eraseFrame s.cfg a] ∧
        SameDevice e t ∧ SameHost s t ∧ t.ctrl = { s.ctrl with phase := .idle })

/-- The frame of the primitives, the wire commands and the two checks, in any state: none writes a
register, the source buffer, the identity or a status bit other than `WIP` and `WEL`, none changes the
array but by the engine's moments, and none touches the controller but for its position and its data
counter; only CMD_READ writes `dst`; and CMD_STATUS, CMD_IDENTIFY, CMD_READ, BUSY_CHECK, CS_ASSERT and
EXCHANGE leave the device as the engine has moved it (42 R97 to R104, 41 R85 to R88, 20 R44, R61). -/
def Obligations.WireLevelFrame : Prop :=
  ∀ (i : Instr) (s t : State), isHostOp i = false → exec i s = .next t →
    t.cfg = s.cfg ∧ t.x = s.x ∧ SameBytes s.src t.src ∧ t.program = s.program ∧
    DeviceMovedButWriting s t ∧ SameCtrlButOffset s t ∧
    ((∀ a n, i ≠ .cmdRead a n) → SameBytes s.dst t.dst) ∧
    ((∀ a n, i ≠ .cmdRead a n) → (∀ a d, i ≠ .cmdProgram a d) → t.ctrl.off = s.ctrl.off) ∧
    (i ≠ .cmdWren → i ≠ .wrenHandshake → i ≠ .csDeassert → (∀ a d, i ≠ .cmdProgram a d) →
      (∀ a, i ≠ .cmdErase a) → DeviceMoved s t)

/-! ### INIT -/

/-- INIT with the expected chip answering, idle when the first opcode comes, at any level of
chip-select before: the first identify transaction matches; Success, the block initialised, the
transport configured and chip-select deasserted; the device is as its engine leaves it, and the host's
buffers do not change (43 R105, 10 R37). -/
def Obligations.InitFindsTheChip : Prop :=
  ∀ s : State, s.InitCanStart → s.cfg.destructiveTest = false →
    wip (engineTicks 2 s).dev.sr = false →
    s.dev.profile.identifies = true → s.dev.id0 = s.cfg.var.id0 → s.dev.id1 = s.cfg.var.id1 →
    s.dev.id2 = s.cfg.var.id2 →
    ∃ t, exec .init s = .next t ∧ t.x = { s.x with result := 0 } ∧
      t.ctrl = { s.ctrl with
        initialised := true
        cs := .deasserted
        spiCfg := { mode := s.cfg.var.spiMode, freq := s.cfg.var.spiFreq, msbFirst := true }
        phase := .idle
        attempt := 1 } ∧
      sends s t [identifyFrame s.cfg] ∧ SameDevice (engineTicks 6 s) t ∧ t.cfg = s.cfg ∧
      SameBytes s.src t.src ∧ SameBytes s.dst t.dst ∧ t.program = s.program

/-- INIT with a chip that answers with another identity, one byte of the three being enough, idle when
the first opcode comes, at any level of chip-select before: IdentificationFailed after exactly
`ID_RETRY_MAX` identify transactions, the block not initialised, the transport configured and
chip-select deasserted (43 R105, R106, R108, 10 R37). -/
def Obligations.InitGivesUpAfterTheBound : Prop :=
  ∀ s : State, s.InitCanStart → s.cfg.destructiveTest = false →
    wip (engineTicks 2 s).dev.sr = false →
    s.dev.profile.identifies = true →
    ¬ (s.dev.id0 = s.cfg.var.id0 ∧ s.dev.id1 = s.cfg.var.id1 ∧ s.dev.id2 = s.cfg.var.id2) →
    ∃ t, exec .init s = .next t ∧ t.x = { s.x with result := 4 } ∧
      t.ctrl = { s.ctrl with
        initialised := false
        cs := .deasserted
        spiCfg := { mode := s.cfg.var.spiMode, freq := s.cfg.var.spiFreq, msbFirst := true }
        phase := .idle
        attempt := s.cfg.idRetryMax } ∧
      sends s t (List.replicate s.cfg.idRetryMax (identifyFrame s.cfg)) ∧
      SameDevice (engineTicks (6 * s.cfg.idRetryMax) s) t ∧ t.cfg = s.cfg ∧
      SameBytes s.src t.src ∧ SameBytes s.dst t.dst ∧ t.program = s.program

/-- INIT at any device, busy, absent or unready ones too, and at any level of chip-select, ends: between
1 and `ID_RETRY_MAX` identify transactions, as many as attempts counted, with the transport configured
and chip-select deasserted, and then Success with the block initialised or IdentificationFailed with it
not (43 R105, R106, 10 R21, R22, R37). That every exchange completes is the model's (log entry 24). -/
def Obligations.InitAlwaysEnds : Prop :=
  ∀ s : State, s.InitCanStart → s.cfg.destructiveTest = false →
    ∃ t k, exec .init s = .next t ∧ 1 ≤ k ∧ k ≤ s.cfg.idRetryMax ∧
      t.ctrl = { s.ctrl with
        initialised := t.ctrl.initialised
        cs := .deasserted
        spiCfg := { mode := s.cfg.var.spiMode, freq := s.cfg.var.spiFreq, msbFirst := true }
        phase := .idle
        attempt := k } ∧
      sends s t (List.replicate k (identifyFrame s.cfg)) ∧ t.Between ∧
      SameDevice (engineTicks (6 * k) s) t ∧
      ((t.x = { s.x with result := 0 } ∧ t.ctrl.initialised = true) ∨
        (t.x = { s.x with result := 4 } ∧ t.ctrl.initialised = false ∧ k = s.cfg.idRetryMax))

/-- After an INIT that returned IdentificationFailed the block is idle with chip-select deasserted
and not initialised; READ, WRITE, ERASE and IS_BUSY (and POLL, which is made of it) are refused, and
stay so until an INIT succeeds, since no other instruction makes the block initialised; GET_GEOMETRY
still works (43 R108). -/
def Obligations.FailedInitLeavesFlashUnusable : Prop :=
  (∀ s t : State, exec .init s = .next t → t.x.result = 4 →
    t.ctrl.initialised = false ∧ t.ctrl.phase = .idle ∧ t.ctrl.cs = .deasserted ∧
    exec .read t = .refused .notInitialised ∧ exec .write t = .refused .notInitialised ∧
    exec .erase t = .refused .notInitialised ∧ exec .isBusy t = .refused .notInitialised ∧
    exec .poll t = .refused .notInitialised ∧
    ∃ u, exec .getGeometry t = .next u ∧ u.x.geo = t.cfg.geo) ∧
  (∀ (i : Instr) (s t : State), exec i s = .next t → s.ctrl.initialised = false →
    t.ctrl.initialised = true → i = .init ∧ t.x.result = 0)

/-- A build with the destructive self-test is outside the admitted subset: INIT and SELFTEST are
refused; without it SELFTEST runs nothing and leaves the state as it was (43 R107; that nothing is run
is the model's reading, log entry 29). -/
def Obligations.DestructiveSelfTestRefused : Prop :=
  ∀ s : State, s.cfg.wf = true →
    (s.cfg.destructiveTest = true → s.ctrl.phase = .idle →
      exec .init s = .refused .selftestNotSpecified) ∧
    (s.cfg.destructiveTest = true → exec .selftest s = .refused .selftestNotSpecified) ∧
    (s.cfg.destructiveTest = false → exec .selftest s = .next s)

/-! ### READ -/

/-- READ of a range of the array below `2^24` at a device whose status byte shows it idle: Success;
`dst[i]` is `DEV.array[x[addr] + i]` for every `i < x[len]`, the array being the device's when the
status byte is read, and every other byte of `dst` is as it was; two transactions, the status read and
the array read; neither the operands nor the source buffer change, and the device is as its engine left
it then (44 R109). -/
def Obligations.ReadReturnsArrayBytes : Prop :=
  ∀ s : State, s.Ready → s.Consistent → 1 ≤ s.lenNat →
    s.addrNat + s.lenNat ≤ s.cfg.geo.totalSize →
    s.addrNat + s.lenNat ≤ 2 ^ 24 → wip s.atCheck.dev.sr = false →
    ∃ t, exec .read s = .next t ∧ t.x = { s.x with result := 0 } ∧
      (∀ i < s.lenNat, t.dst.read i = s.atCheck.dev.array.read (s.addrNat + i)) ∧
      (∀ i, s.lenNat ≤ i → t.dst.read i = s.dst.read i) ∧
      sends s t [statusFrame s.cfg, readFrame s.cfg s.wireAddr s.lenNat] ∧
      SameDevice s.atCheck t ∧ SameBytes s.src t.src ∧ t.cfg = s.cfg ∧ t.program = s.program ∧
      t.ctrl = { s.ctrl with off := s.lenNat }

/-- The frame of READ, in any state and on every path: only `x[result]`, `dst` below `x[len]`, the
data counter, the position and what the engine does change (44 R109, 10 R29, 20 R61). -/
def Obligations.ReadFrame : Prop :=
  ∀ s t : State, exec .read s = .next t →
    t.x = { s.x with result := t.x.result } ∧ (∀ i, s.lenNat ≤ i → t.dst.read i = s.dst.read i) ∧
    (t.x.result ≠ 0 → SameBytes s.dst t.dst) ∧ SameBytes s.src t.src ∧ DeviceMoved s t ∧
    SameCtrlButOffset s t ∧ t.cfg = s.cfg ∧ t.program = s.program

/-! ### WRITE -/

/-- WRITE of at most the rest of a page, inside the array and below `2^24`, at a device whose status
byte shows it idle and that takes the write-enable (a healthy one, one whose latch is already set, or
one that leaves it to a free value, which sets it, log entry 7): Success after four transactions; the
device has the program of `src[0 .. x[len]-1]` pending and is busy; no byte of the array has changed
since the status byte was read, and no buffer and no operand has (45 R111, 20 R59). -/
def Obligations.WriteIsAccepted : Prop :=
  ∀ s : State, s.Ready → s.Consistent → 1 ≤ s.lenNat →
    s.addrNat % s.cfg.geo.pageSize + s.lenNat ≤ s.cfg.geo.pageSize →
    s.addrNat + s.lenNat ≤ s.cfg.geo.totalSize → s.addrNat + s.lenNat ≤ 2 ^ 24 →
    wip s.atCheck.dev.sr = false →
    (s.dev.profile.latch = .sets ∨ wel s.atCheck.dev.sr = true ∨
      s.dev.profile.latch = .unstated ∧ Config.freeBit (s.draws + 2) = true) →
    ∃ t p, exec .write s = .next t ∧ t.x = { s.x with result := 0 } ∧
      t.dev.pending = some p ∧
      p.update = .program s.wireAddr (s.src.readBytes 0 s.lenNat) ∧ wip t.dev.sr = true ∧
      sends s t [statusFrame s.cfg, wrenFrame s.cfg, statusFrame s.cfg,
        programFrame s.cfg s.wireAddr (s.src.readBytes 0 s.lenNat)] ∧
      SameDeviceButWriting s.atCheck t ∧ SameBytes s.src t.src ∧ SameBytes s.dst t.dst ∧
      t.cfg = s.cfg ∧ t.program = s.program ∧ t.ctrl = { s.ctrl with off := s.lenNat }

/-- The frame of WRITE, in any state and on every path: only `x[result]`, the data counter, the
position, `WIP`, `WEL`, the pending update and what the engine does change; on any error nothing is
accepted, and on Busy and OutOfRange the device does no more than its engine does (45 R111, 10 R29,
60 R123). -/
def Obligations.WriteFrame : Prop :=
  ∀ s t : State, exec .write s = .next t →
    t.x = { s.x with result := t.x.result } ∧ SameBytes s.dst t.dst ∧ SameBytes s.src t.src ∧
    DeviceMovedButWriting s t ∧ SameCtrlButOffset s t ∧ t.cfg = s.cfg ∧ t.program = s.program ∧
    (t.x.result ≠ 0 → NothingAccepted s t) ∧
    (t.x.result = 1 ∨ t.x.result = 2 → DeviceMoved s t)

/-- WRITE never splits and never truncates a request: one whose bytes do not fit in the rest of the
page, or are more than a page, is OutOfRange whole, even inside the array and at a busy device, with
no bus traffic and nothing else changed (45 R113, 40 R79, 60 R122). -/
def Obligations.WriteAcrossAPageIsOutOfRange : Prop :=
  ∀ s : State, s.Ready → 1 ≤ s.lenNat →
    (s.cfg.geo.totalSize ≤ s.addrNat ∨ s.cfg.geo.pageSize < s.lenNat ∨
      s.cfg.geo.pageSize < s.addrNat % s.cfg.geo.pageSize + s.lenNat ∨
      s.cfg.geo.totalSize < s.addrNat + s.lenNat) →
    ∃ t, exec .write s = .next t ∧ t.x = { s.x with result := 2 } ∧ t.trace = s.trace ∧
      t.dev = s.dev ∧ t.ctrl = s.ctrl ∧ t.src = s.src ∧ t.dst = s.dst ∧ t.cfg = s.cfg ∧
      t.draws = s.draws ∧ t.program = s.program

/-! ### ERASE -/

/-- ERASE of an aligned block inside the array and below `2^24`, with a non-zero count, at a device
whose status byte shows it idle and that takes the write-enable (a healthy one, one whose latch is
already set, or one that leaves it to a free value, which sets it, log entry 7): Success after four
transactions; exactly one erase is pending, whatever the count; `x[addr]` has moved on by one erase
block and `x[count]` is one less; no byte of the array has changed since the status byte was read, and
no buffer has (46 R114, R115). -/
def Obligations.EraseIsAcceptedAndMovesTheCursor : Prop :=
  ∀ s : State, s.Ready → s.Consistent → 1 ≤ s.countNat →
    s.addrNat % s.cfg.geo.eraseBlockSize = 0 →
    s.addrNat + s.cfg.geo.eraseBlockSize ≤ s.cfg.geo.totalSize →
    s.addrNat + s.cfg.geo.eraseBlockSize ≤ 2 ^ 24 →
    wip s.atCheck.dev.sr = false →
    (s.dev.profile.latch = .sets ∨ wel s.atCheck.dev.sr = true ∨
      s.dev.profile.latch = .unstated ∧ Config.freeBit (s.draws + 2) = true) →
    ∃ t p, exec .erase s = .next t ∧ t.x.result = 0 ∧
      t.addrNat = s.addrNat + s.cfg.geo.eraseBlockSize ∧ t.countNat = s.countNat - 1 ∧
      t.addrNat % s.cfg.geo.eraseBlockSize = 0 ∧
      t.x = { s.x with addr := t.x.addr, count := t.x.count, result := 0 } ∧
      t.dev.pending = some p ∧ p.update = .erase s.wireAddr ∧ wip t.dev.sr = true ∧
      sends s t [statusFrame s.cfg, wrenFrame s.cfg, statusFrame s.cfg,
        eraseFrame s.cfg s.wireAddr] ∧
      SameDeviceButWriting s.atCheck t ∧ SameBytes s.src t.src ∧ SameBytes s.dst t.dst ∧
      t.cfg = s.cfg ∧ t.program = s.program ∧ t.ctrl = s.ctrl

/-- The frame of ERASE, in any state and on every path: only `x[result]`, on Success the cursor, the
position, `WIP`, `WEL`, the pending update and what the engine does change; on any error the cursor is
unchanged and nothing is accepted (46 R114, 10 R29, 60 R123). -/
def Obligations.EraseFrame : Prop :=
  ∀ s t : State, exec .erase s = .next t →
    t.x = { s.x with addr := t.x.addr, count := t.x.count, result := t.x.result } ∧
    (t.x.result ≠ 0 → t.x.addr = s.x.addr ∧ t.x.count = s.x.count ∧ NothingAccepted s t) ∧
    (t.x.result = 1 ∨ t.x.result = 2 → DeviceMoved s t) ∧
    SameBytes s.dst t.dst ∧ SameBytes s.src t.src ∧ DeviceMovedButWriting s t ∧
    SameCtrlButPosition s t ∧ t.cfg = s.cfg ∧ t.program = s.program

/-- ERASE of an address that is no multiple of the erase block, or of a block that leaves the array,
is OutOfRange, whatever the count and even at a busy device, with no bus traffic and nothing else
changed (40 R80, 60 R122). -/
def Obligations.MisalignedEraseIsOutOfRange : Prop :=
  ∀ s : State, s.Ready → 1 ≤ s.countNat →
    (s.addrNat % s.cfg.geo.eraseBlockSize ≠ 0 ∨
      s.cfg.geo.totalSize < s.addrNat + s.cfg.geo.eraseBlockSize) →
    ∃ t, exec .erase s = .next t ∧ t.x = { s.x with result := 2 } ∧ t.trace = s.trace ∧
      t.dev = s.dev ∧ t.ctrl = s.ctrl ∧ t.src = s.src ∧ t.dst = s.dst ∧ t.cfg = s.cfg ∧
      t.draws = s.draws ∧ t.program = s.program

/-! ### Errors and refusals common to the operations -/

/-- READ outside the array is OutOfRange, with no bus traffic and nothing else changed, even at a
busy device; the sum of address and length is exact, so a length that would wrap 32 bits is rejected
too (40 R76, R78, 60 R122). -/
def Obligations.ReadOutsideTheArrayIsOutOfRange : Prop :=
  ∀ s : State, s.Ready → 1 ≤ s.lenNat →
    (s.cfg.geo.totalSize ≤ s.addrNat ∨ s.cfg.geo.totalSize < s.addrNat + s.lenNat) →
    ∃ t, exec .read s = .next t ∧ t.x = { s.x with result := 2 } ∧ t.trace = s.trace ∧
      t.dev = s.dev ∧ t.ctrl = s.ctrl ∧ t.src = s.src ∧ t.dst = s.dst ∧ t.cfg = s.cfg ∧
      t.draws = s.draws ∧ t.program = s.program

/-- A READ, WRITE or ERASE that passes validation at a device whose status byte shows it busy returns
Busy after one status transaction: no side effect on the device, which its engine alone moves, buffers
and cursor unchanged (42 R103, 60 R123, 20 R49). -/
def Obligations.BusyDeviceRejectsOperations : Prop :=
  ∀ (s : State) (i : Instr), s.Ready → wip s.atCheck.dev.sr = true →
    (i = .read ∧ 1 ≤ s.lenNat ∧ s.addrNat + s.lenNat ≤ s.cfg.geo.totalSize ∧
        s.addrNat + s.lenNat ≤ 2 ^ 24 ∨
      i = .write ∧ 1 ≤ s.lenNat ∧
        s.addrNat % s.cfg.geo.pageSize + s.lenNat ≤ s.cfg.geo.pageSize ∧
        s.addrNat + s.lenNat ≤ s.cfg.geo.totalSize ∧ s.addrNat + s.lenNat ≤ 2 ^ 24 ∨
      i = .erase ∧ 1 ≤ s.countNat ∧ s.addrNat % s.cfg.geo.eraseBlockSize = 0 ∧
        s.addrNat + s.cfg.geo.eraseBlockSize ≤ s.cfg.geo.totalSize ∧
        s.addrNat + s.cfg.geo.eraseBlockSize ≤ 2 ^ 24) →
    ∃ t, exec i s = .next t ∧ t.x = { s.x with result := 1 } ∧
      sends s t [statusFrame s.cfg] ∧ SameDevice (engineTicks 4 s) t ∧ SameBytes s.src t.src ∧
      SameBytes s.dst t.dst ∧ t.cfg = s.cfg ∧ t.program = s.program ∧ t.ctrl = s.ctrl

/-- A WRITE or ERASE that passes validation at an idle device whose latch is clear and does not set, a
locked one or one that leaves it to a free value which does not set it (log entry 7), returns
WriteEnableFailed after three transactions: no program or erase frame is sent, nothing becomes
pending, the cursor is unchanged (42 R104, 20 R57, 60 R123). -/
def Obligations.LatchThatDoesNotSetFailsTheOperation : Prop :=
  ∀ (s : State) (i : Instr), s.Ready → s.Consistent → wip s.atCheck.dev.sr = false →
    wel s.atCheck.dev.sr = false →
    (s.dev.profile.latch = .stuck ∨
      s.dev.profile.latch = .unstated ∧ Config.freeBit (s.draws + 2) = false) →
    (i = .write ∧ 1 ≤ s.lenNat ∧
        s.addrNat % s.cfg.geo.pageSize + s.lenNat ≤ s.cfg.geo.pageSize ∧
        s.addrNat + s.lenNat ≤ s.cfg.geo.totalSize ∧ s.addrNat + s.lenNat ≤ 2 ^ 24 ∨
      i = .erase ∧ 1 ≤ s.countNat ∧ s.addrNat % s.cfg.geo.eraseBlockSize = 0 ∧
        s.addrNat + s.cfg.geo.eraseBlockSize ≤ s.cfg.geo.totalSize ∧
        s.addrNat + s.cfg.geo.eraseBlockSize ≤ 2 ^ 24) →
    ∃ t, exec i s = .next t ∧ t.x = { s.x with result := 3 } ∧
      sends s t [statusFrame s.cfg, wrenFrame s.cfg, statusFrame s.cfg] ∧
      SameDevice s.atCheck t ∧ SameBytes s.src t.src ∧ SameBytes s.dst t.dst ∧
      t.cfg = s.cfg ∧ t.program = s.program ∧ t.ctrl = s.ctrl

/-- A request inside the array that reaches `2^24` or beyond is given no meaning: refused, neither
OutOfRange nor sent with a truncated address (40 R81, 20 R39). -/
def Obligations.ReachAboveTwentyFourBitsRefused : Prop :=
  ∀ s : State, s.Ready →
    (1 ≤ s.lenNat → s.addrNat + s.lenNat ≤ s.cfg.geo.totalSize → 2 ^ 24 < s.addrNat + s.lenNat →
      exec .read s = .refused .reachAbove24 ∧
      (s.addrNat % s.cfg.geo.pageSize + s.lenNat ≤ s.cfg.geo.pageSize →
        exec .write s = .refused .reachAbove24)) ∧
    (1 ≤ s.countNat → s.addrNat % s.cfg.geo.eraseBlockSize = 0 →
      s.addrNat + s.cfg.geo.eraseBlockSize ≤ s.cfg.geo.totalSize →
      2 ^ 24 < s.addrNat + s.cfg.geo.eraseBlockSize →
      exec .erase s = .refused .reachAbove24)

/-- READ and WRITE of zero bytes and ERASE with a zero count, under the spec's default policies, are
refused before any other test (40 R82, R83). Under the model's other policy they end with Success and
do nothing, at an address of the array, and with OutOfRange at any other (log entry 27). -/
def Obligations.ZeroLengthAndZeroCount : Prop :=
  ∀ s : State, s.Ready →
    (s.lenNat = 0 → s.cfg.zeroLen = .refuse →
      exec .read s = .refused .zeroLength ∧ exec .write s = .refused .zeroLength) ∧
    (s.countNat = 0 → s.cfg.zeroCount = .refuse → exec .erase s = .refused .zeroCount) ∧
    (s.lenNat = 0 → s.cfg.zeroLen = .succeed →
      ∃ t, exec .read s = .next t ∧ exec .write s = .next t ∧
        t.x = { s.x with
          result := if s.addrNat < s.cfg.geo.totalSize then 0 else 2 } ∧
        t.trace = s.trace ∧ t.dev = s.dev ∧ t.dst = s.dst) ∧
    (s.countNat = 0 → s.cfg.zeroCount = .succeed →
      ∃ t, exec .erase s = .next t ∧
        t.x = { s.x with
          result := if s.addrNat < s.cfg.geo.totalSize then 0 else 2 } ∧
        t.trace = s.trace ∧ t.dev = s.dev)

/-- The situations in which an operation has no meaning: an ill-formed configuration, a phase other
than IDLE, no successful INIT; and the two reserved selections, in every state (00 R10, 60 R126,
70 R136, 30 R71). The order of the three is the model's (log entry 28). -/
def Obligations.OperationsWithoutMeaningRefused : Prop :=
  ∀ s : State,
    (s.cfg.wf = false → ∀ i, i ≠ .reserved6 → i ≠ .reserved7 →
      exec i s = .refused .illFormedConfig) ∧
    (s.cfg.wf = true → s.ctrl.phase ≠ .idle → ∀ i, isHostOp i = true → i ≠ .reserved6 →
      i ≠ .reserved7 → exec i s = .refused .notIdle) ∧
    (s.cfg.wf = true → s.ctrl.phase = .idle → s.ctrl.initialised = false → ∀ i, i = .read ∨
      i = .write ∨ i = .erase ∨ i = .isBusy ∨ i = .poll → exec i s = .refused .notInitialised) ∧
    exec .reserved6 s = .refused .reservedOp ∧ exec .reserved7 s = .refused .reservedOp

/-! ### Queries -/

/-- IS_BUSY, `x[op] = 4`: one status transaction; `x[busy]` is the device's `WIP` when the status byte
is read, and neither `x[result]` nor any other register changes, nor the device but by its engine
(47 R117). -/
def Obligations.IsBusyReportsWip : Prop :=
  decodeOp 4 = .isBusy ∧ ∀ s : State, s.Ready →
    ∃ t, exec .isBusy s = .next t ∧ t.x = { s.x with busy := wip s.atCheck.dev.sr } ∧
      sends s t [statusFrame s.cfg] ∧ SameDevice (engineTicks 4 s) t ∧ SameBytes s.src t.src ∧
      SameBytes s.dst t.dst ∧ t.cfg = s.cfg ∧ t.program = s.program ∧ t.ctrl = s.ctrl

/-- One round of POLL is an IS_BUSY selected with `x[op] = 4`; while the device reports busy the loop
stays the host's next line, and when it reports idle the program goes on (30 R73, 10 R28, 20 R50; one
round a step is the model's, log entry 33). -/
def Obligations.PollRepeatsIsBusy : Prop :=
  ∀ s : State, s.Ready →
    ∃ t, exec .poll s = .next t ∧ t.x = { s.x with op := 4, busy := wip s.atCheck.dev.sr } ∧
      t.program = (if wip s.atCheck.dev.sr = true then pollLine :: s.program else s.program) ∧
      sends s t [statusFrame s.cfg] ∧ SameDevice (engineTicks 4 s) t ∧ SameBytes s.src t.src ∧
      SameBytes s.dst t.dst ∧ t.cfg = s.cfg ∧ t.ctrl = s.ctrl

/-- The frame of INIT, IS_BUSY and POLL, in any state: the device is as its engine left it and both
buffers are as they were; IS_BUSY writes no register but `x[busy]`, POLL none but `x[busy]` and the
`x[op]` that selects IS_BUSY, and both touch the controller in its position only; INIT writes no
register but `x[result]` and never the data counter (43 R105, 47 R117, 30 R73). -/
def Obligations.QueryAndInitFrame : Prop :=
  ∀ (i : Instr) (s t : State), i = .init ∨ i = .isBusy ∨ i = .poll → exec i s = .next t →
    DeviceMoved s t ∧ SameBytes s.src t.src ∧ SameBytes s.dst t.dst ∧ t.cfg = s.cfg ∧
    (i = .init → t.x = { s.x with result := t.x.result } ∧ t.ctrl.off = s.ctrl.off ∧
      t.program = s.program) ∧
    (i = .isBusy → t.x = { s.x with busy := t.x.busy } ∧ t.program = s.program) ∧
    (i = .poll → t.x = { s.x with op := 4, busy := t.x.busy }) ∧
    (i = .isBusy ∨ i = .poll → SameCtrlButPosition s t)

/-- GET_GEOMETRY, `x[op] = 5`: all eight fields of `CFG.geo` in `x[geo]`, with or without an INIT, at
any device, with no bus event and nothing else changed; it always succeeds in IDLE, and a second
call returns the same (47 R119). -/
def Obligations.GetGeometryReturnsTheGeometry : Prop :=
  decodeOp 5 = .getGeometry ∧ ∀ s : State, s.cfg.wf = true → s.ctrl.phase = .idle →
    ∃ t, exec .getGeometry s = .next t ∧ t.x = { s.x with geo := s.cfg.geo } ∧
      t.trace = s.trace ∧ t.ctrl = s.ctrl ∧ t.dev = s.dev ∧ t.src = s.src ∧ t.dst = s.dst ∧
      t.cfg = s.cfg ∧ t.draws = s.draws ∧ t.program = s.program ∧
      exec .getGeometry t = .next t

/-! ### Headline properties of the source -/

/-- The round trip: a WRITE that returned Success, any number of the engine's moments after which
nothing is pending, and a READ of the same range: Success, and `dst[i] = PROG(old[i], src[i])` for every
`i < x[len]`, where `old[i]` is the array's byte when WRITE returned, which is the one before it when
nothing was pending; so `dst` holds the bytes written wherever the range was erased (45 R112,
20 R59). -/
def Obligations.WriteThenReadRoundTrip : Prop :=
  ∀ (s t : State) (n : Nat), s.Ready → s.Consistent → 1 ≤ s.lenNat → exec .write s = .next t →
    t.x.result = 0 → (engineTicks n t).dev.pending = none →
    (s.dev.pending = none → SameBytes s.dev.array t.dev.array) ∧
    ∃ v, exec .read (engineTicks n t) = .next v ∧ v.x.result = 0 ∧
      ∀ i < s.lenNat,
        v.dst.read i = progByte s.cfg.prog (t.dev.array.read (s.addrNat + i)) (s.src.read i) ∧
        (t.dev.array.read (s.addrNat + i) = 0xFF → v.dst.read i = s.src.read i)

/-- The erase property: an ERASE that returned Success, any number of the engine's moments after which
nothing is pending, and a READ of the erased sector: every byte reads back as `0xFF`; and no byte
outside the sector has changed since ERASE returned, nor since before it when nothing was pending
(46 R116). -/
def Obligations.EraseThenReadGivesErasedBytes : Prop :=
  ∀ (s t u : State) (n : Nat), s.Ready → s.Consistent → 1 ≤ s.countNat → exec .erase s = .next t →
    t.x.result = 0 → (engineTicks n t).dev.pending = none →
    u = ((engineTicks n t).setAddr s.x.addr).setLen
      (BitVec.ofNat 32 s.cfg.geo.eraseBlockSize) →
    (s.dev.pending = none → SameBytes s.dev.array t.dev.array) ∧
    (∃ v, exec .read u = .next v ∧ v.x.result = 0 ∧
      ∀ i < s.cfg.geo.eraseBlockSize, v.dst.read i = 0xFF) ∧
    ∀ k, k < s.addrNat ∨ s.addrNat + s.cfg.geo.eraseBlockSize ≤ k →
      u.dev.array.read k = t.dev.array.read k
end

