-- ==== Sys2Proof/Laws/Flags.lean ====
section
/-! SUPPORT. The laws of the status bits: each update sets its own bit and leaves the other. -/

namespace Sys2Proof.Machine

@[simp] theorem wip_withWip (sr : Byte) (b : Bool) : wip (withWip sr b) = b := by
  cases b <;> simp [wip, withWip]

@[simp] theorem wel_withWip (sr : Byte) (b : Bool) : wel (withWip sr b) = wel sr := by
  cases b <;> simp [wel, withWip]

@[simp] theorem wel_withWel (sr : Byte) (b : Bool) : wel (withWel sr b) = b := by
  cases b <;> simp [wel, withWel]

@[simp] theorem wip_withWel (sr : Byte) (b : Bool) : wip (withWel sr b) = wip sr := by
  cases b <;> simp [wip, withWel]

/-- Setting `WIP` touches no other bit of the status byte. -/
theorem getLsbD_withWip (sr : Byte) (b : Bool) (k : Nat) (h : k ≠ 0) :
    (withWip sr b).getLsbD k = sr.getLsbD k := by
  by_cases hk : k < 8
  · have : k = 1 ∨ k = 2 ∨ k = 3 ∨ k = 4 ∨ k = 5 ∨ k = 6 ∨ k = 7 := by omega
    rcases this with rfl | rfl | rfl | rfl | rfl | rfl | rfl <;> cases b <;> simp [withWip]
  · simp [BitVec.getLsbD_of_ge _ k (Nat.le_of_not_lt hk)]

/-- Setting `WEL` touches no other bit of the status byte. -/
theorem getLsbD_withWel (sr : Byte) (b : Bool) (k : Nat) (h : k ≠ 1) :
    (withWel sr b).getLsbD k = sr.getLsbD k := by
  by_cases hk : k < 8
  · have : k = 0 ∨ k = 2 ∨ k = 3 ∨ k = 4 ∨ k = 5 ∨ k = 6 ∨ k = 7 := by omega
    rcases this with rfl | rfl | rfl | rfl | rfl | rfl | rfl <;> cases b <;> simp [withWel]
  · simp [BitVec.getLsbD_of_ge _ k (Nat.le_of_not_lt hk)]

/-- Writing the value that is there changes nothing. -/
theorem withWel_self (sr : Byte) : withWel sr (wel sr) = sr := by
  apply BitVec.eq_of_getLsbD_eq
  intro k hk
  by_cases h : k = 1
  · subst h; exact wel_withWel sr (wel sr)
  · exact getLsbD_withWel sr _ k h

end Sys2Proof.Machine
end

