-- ==== Sys2Proof/Laws/Memory.lean ====
section
/-! SUPPORT. The laws of memory: what a read gives after each memory operation, and that every memory
operation keeps the canonical form and the bound on the listed addresses. -/

namespace Sys2Proof.Machine

/-! ### Reading after an operation -/

theorem Memory.read_nil (a : Nat) : Memory.read [] a = Memory.unlisted := rfl

theorem Memory.read_cons (c : Host.Cell) (m : Memory) (a : Nat) :
    Memory.read (c :: m) a = if c.1 = a then c.2 else m.read a := rfl

theorem Memory.read_clear (m : Memory) (lo n a : Nat) :
    (m.clear lo n).read a = if lo ≤ a ∧ a < lo + n then Memory.unlisted else m.read a := by
  induction m with
  | nil => simp [Memory.clear, Memory.read]
  | cons c m ih =>
    by_cases hc : lo ≤ c.1 ∧ c.1 < lo + n
    · have : Memory.clear (c :: m) lo n = Memory.clear m lo n := by
        simp [Memory.clear, hc.1, hc.2]
      rw [this, ih, Memory.read_cons]
      by_cases hca : c.1 = a
      · subst hca; simp [hc]
      · simp [hca]
    · have : Memory.clear (c :: m) lo n = c :: Memory.clear m lo n := by
        simp only [Memory.clear, List.filter_cons]
        rw [if_pos]
        simp
        omega
      rw [this, Memory.read_cons, Memory.read_cons, ih]
      by_cases hca : c.1 = a
      · subst hca; simp [hc]
      · simp [hca]

theorem Memory.read_insert (m : Memory) (a : Nat) (b : Byte) (c : Nat)
    (h : ∀ d ∈ m, d.1 ≠ a) :
    (Memory.insert a b m).read c = if c = a then b else m.read c := by
  induction m with
  | nil => simp [Memory.insert, Memory.read, eq_comm]
  | cons d m ih =>
    have hd := h d (by simp)
    have ih := ih fun e he => h e (by simp [he])
    unfold Memory.insert
    split
    · simp [Memory.read_cons, eq_comm]
    · rw [Memory.read_cons, Memory.read_cons, ih]
      by_cases hda : d.1 = c
      · subst hda; simp [hd]
      · simp [hda]

theorem Memory.clear_ne (m : Memory) (a : Nat) : ∀ d ∈ m.clear a 1, d.1 ≠ a := by
  intro d hd
  simp only [Memory.clear, List.mem_filter] at hd
  rintro rfl
  simp at hd

/-- A read after a write: the byte written at its own address, the old byte everywhere else. -/
theorem Memory.read_write (m : Memory) (a : Nat) (b : Byte) (c : Nat) :
    (m.write a b).read c = if c = a then b else m.read c := by
  unfold Memory.write
  split
  · next h =>
    rw [Memory.read_clear, h]
    by_cases hc : c = a
    · simp [hc]
    · rw [if_neg (by omega), if_neg hc]
  · rw [Memory.read_insert _ _ _ _ (Memory.clear_ne m a), Memory.read_clear]
    by_cases hc : c = a
    · simp [hc]
    · rw [if_neg hc, if_neg hc, if_neg (by omega)]

/-- A read after a run of writes from `a`. -/
theorem Memory.read_writeBytes (bs : List Byte) : ∀ (m : Memory) (a c : Nat),
    (m.writeBytes a bs).read c =
      if a ≤ c ∧ c < a + bs.length then bs.getD (c - a) 0 else m.read c := by
  induction bs with
  | nil =>
    intro m a c
    have : ¬ (a ≤ c ∧ c < a) := by omega
    simp [Memory.writeBytes, this]
  | cons b bs ih =>
    intro m a c
    rw [Memory.writeBytes, ih, Memory.read_write]
    by_cases h1 : a + 1 ≤ c ∧ c < a + 1 + bs.length
    · have h2 : a ≤ c ∧ c < a + (b :: bs).length := by simp only [List.length_cons]; omega
      rw [if_pos h1, if_pos h2, show c - a = (c - (a + 1)) + 1 from by omega]
      simp
    · rw [if_neg h1]
      by_cases h3 : c = a
      · subst h3; simp
      · have h2 : ¬ (a ≤ c ∧ c < a + (b :: bs).length) := by simp only [List.length_cons]; omega
        rw [if_neg h3, if_neg h2]

theorem Memory.length_readBytes (m : Memory) (a n : Nat) : (m.readBytes a n).length = n := by
  simp [Memory.readBytes]

theorem Memory.getD_readBytes (m : Memory) (a n i : Nat) (h : i < n) :
    (m.readBytes a n).getD i 0 = m.read (a + i) := by
  simp [Memory.readBytes, h]

theorem Memory.readBytes_append (m : Memory) (a n k : Nat) :
    m.readBytes a (n + k) = m.readBytes a n ++ m.readBytes (a + n) k := by
  simp [Memory.readBytes, List.range_add, Nat.add_assoc, Function.comp_def]

/-! ### The canonical form -/

theorem Memory.wf_nil : Memory.wf [] := by simp [Memory.wf]

theorem Memory.wf_clear (m : Memory) (lo n : Nat) (h : m.wf) : (m.clear lo n).wf :=
  ⟨h.1.filter _, fun c hc => h.2 c (List.mem_of_mem_filter hc)⟩

theorem Memory.mem_insert (m : Memory) (a : Nat) (b : Byte) (c : Host.Cell) :
    c ∈ Memory.insert a b m ↔ c = (a, b) ∨ c ∈ m := by
  induction m with
  | nil => simp [Memory.insert]
  | cons d m ih =>
    unfold Memory.insert
    split
    · simp
    · simp only [List.mem_cons, ih]
      tauto

theorem Memory.pairwise_insert (m : Memory) (a : Nat) (b : Byte)
    (h : m.Pairwise (fun c d => c.1 < d.1)) (ha : ∀ d ∈ m, d.1 ≠ a) :
    (Memory.insert a b m).Pairwise (fun c d => c.1 < d.1) := by
  induction m with
  | nil => simp [Memory.insert]
  | cons d m ih =>
    rw [List.pairwise_cons] at h
    have hd := ha d (by simp)
    unfold Memory.insert
    split
    · next hlt =>
      rw [List.pairwise_cons]
      refine ⟨?_, List.pairwise_cons.2 h⟩
      intro e he
      rcases List.mem_cons.1 he with rfl | he
      · exact hlt
      · exact Nat.lt_trans hlt (h.1 e he)
    · next hge =>
      rw [List.pairwise_cons]
      refine ⟨?_, ih h.2 fun e he => ha e (by simp [he])⟩
      intro e he
      rcases (Memory.mem_insert m a b e).1 he with rfl | he
      · show d.1 < a
        omega
      · exact h.1 e he

/-- A write keeps the canonical form. -/
theorem Memory.wf_write (m : Memory) (a : Nat) (b : Byte) (h : m.wf) : (m.write a b).wf := by
  unfold Memory.write
  split
  · exact Memory.wf_clear m a 1 h
  · next hb =>
    have hc := Memory.wf_clear m a 1 h
    refine ⟨Memory.pairwise_insert _ a b hc.1 (Memory.clear_ne m a), ?_⟩
    intro c hm
    rcases (Memory.mem_insert _ a b c).1 hm with rfl | hm
    · exact hb
    · exact hc.2 c hm

/-- A run of writes keeps the canonical form. -/
theorem Memory.wf_writeBytes (bs : List Byte) : ∀ (m : Memory) (a : Nat), m.wf →
    (m.writeBytes a bs).wf := by
  induction bs with
  | nil => exact fun m a h => h
  | cons b bs ih => exact fun m a h => ih _ _ (Memory.wf_write m a b h)

/-! ### The bound on the listed addresses -/

theorem Memory.below_clear (m : Memory) (lo n k : Nat) (h : m.below k) : (m.clear lo n).below k :=
  fun c hc => h c (List.mem_of_mem_filter hc)

theorem Memory.below_write (m : Memory) (a : Nat) (b : Byte) (k : Nat) (h : m.below k)
    (ha : a < k) : (m.write a b).below k := by
  unfold Memory.write
  split
  · exact Memory.below_clear m a 1 k h
  · intro c hc
    rcases (Memory.mem_insert _ a b c).1 hc with rfl | hc
    · exact ha
    · exact Memory.below_clear m a 1 k h c hc

theorem Memory.below_writeBytes (bs : List Byte) : ∀ (m : Memory) (a k : Nat), m.below k →
    a + bs.length ≤ k → (m.writeBytes a bs).below k := by
  induction bs with
  | nil => exact fun m a k h _ => h
  | cons b bs ih =>
    intro m a k h hk
    simp only [List.length_cons] at hk
    exact ih _ _ _ (Memory.below_write m a b k h (by omega)) (by omega)

end Sys2Proof.Machine
end

