-- ==== Sys2Proof/Laws/State.lean ====
section
/-! SUPPORT. For every update of a piece of state, what each field holds after it: one lemma per field
per update, so that no later proof unfolds a record update. -/

namespace Sys2Proof.Machine

/-! `setInitialised` -/

@[simp] theorem State.setInitialised_cfg (s : State) (v : Bool) :
    (s.setInitialised v).cfg = s.cfg := rfl
@[simp] theorem State.setInitialised_ctrl_initialised (s : State) (v : Bool) :
    (s.setInitialised v).ctrl.initialised = v := rfl
@[simp] theorem State.setInitialised_ctrl_spiCfg (s : State) (v : Bool) :
    (s.setInitialised v).ctrl.spiCfg = s.ctrl.spiCfg := rfl
@[simp] theorem State.setInitialised_ctrl_cs (s : State) (v : Bool) :
    (s.setInitialised v).ctrl.cs = s.ctrl.cs := rfl
@[simp] theorem State.setInitialised_ctrl_phase (s : State) (v : Bool) :
    (s.setInitialised v).ctrl.phase = s.ctrl.phase := rfl
@[simp] theorem State.setInitialised_ctrl_off (s : State) (v : Bool) :
    (s.setInitialised v).ctrl.off = s.ctrl.off := rfl
@[simp] theorem State.setInitialised_ctrl_attempt (s : State) (v : Bool) :
    (s.setInitialised v).ctrl.attempt = s.ctrl.attempt := rfl
@[simp] theorem State.setInitialised_ctrl_xferActive (s : State) (v : Bool) :
    (s.setInitialised v).ctrl.xferActive = s.ctrl.xferActive := rfl
@[simp] theorem State.setInitialised_x (s : State) (v : Bool) : (s.setInitialised v).x = s.x := rfl
@[simp] theorem State.setInitialised_src (s : State) (v : Bool) :
    (s.setInitialised v).src = s.src := rfl
@[simp] theorem State.setInitialised_dst (s : State) (v : Bool) :
    (s.setInitialised v).dst = s.dst := rfl
@[simp] theorem State.setInitialised_dev (s : State) (v : Bool) :
    (s.setInitialised v).dev = s.dev := rfl
@[simp] theorem State.setInitialised_trace (s : State) (v : Bool) :
    (s.setInitialised v).trace = s.trace := rfl
@[simp] theorem State.setInitialised_capture (s : State) (v : Bool) :
    (s.setInitialised v).capture = s.capture := rfl
@[simp] theorem State.setInitialised_draws (s : State) (v : Bool) :
    (s.setInitialised v).draws = s.draws := rfl
@[simp] theorem State.setInitialised_program (s : State) (v : Bool) :
    (s.setInitialised v).program = s.program := rfl

/-! `setSpiCfg` -/

@[simp] theorem State.setSpiCfg_cfg (s : State) (v : SpiCfg) : (s.setSpiCfg v).cfg = s.cfg := rfl
@[simp] theorem State.setSpiCfg_ctrl_initialised (s : State) (v : SpiCfg) :
    (s.setSpiCfg v).ctrl.initialised = s.ctrl.initialised := rfl
@[simp] theorem State.setSpiCfg_ctrl_spiCfg (s : State) (v : SpiCfg) :
    (s.setSpiCfg v).ctrl.spiCfg = v := rfl
@[simp] theorem State.setSpiCfg_ctrl_cs (s : State) (v : SpiCfg) :
    (s.setSpiCfg v).ctrl.cs = s.ctrl.cs := rfl
@[simp] theorem State.setSpiCfg_ctrl_phase (s : State) (v : SpiCfg) :
    (s.setSpiCfg v).ctrl.phase = s.ctrl.phase := rfl
@[simp] theorem State.setSpiCfg_ctrl_off (s : State) (v : SpiCfg) :
    (s.setSpiCfg v).ctrl.off = s.ctrl.off := rfl
@[simp] theorem State.setSpiCfg_ctrl_attempt (s : State) (v : SpiCfg) :
    (s.setSpiCfg v).ctrl.attempt = s.ctrl.attempt := rfl
@[simp] theorem State.setSpiCfg_ctrl_xferActive (s : State) (v : SpiCfg) :
    (s.setSpiCfg v).ctrl.xferActive = s.ctrl.xferActive := rfl
@[simp] theorem State.setSpiCfg_x (s : State) (v : SpiCfg) : (s.setSpiCfg v).x = s.x := rfl
@[simp] theorem State.setSpiCfg_src (s : State) (v : SpiCfg) : (s.setSpiCfg v).src = s.src := rfl
@[simp] theorem State.setSpiCfg_dst (s : State) (v : SpiCfg) : (s.setSpiCfg v).dst = s.dst := rfl
@[simp] theorem State.setSpiCfg_dev (s : State) (v : SpiCfg) : (s.setSpiCfg v).dev = s.dev := rfl
@[simp] theorem State.setSpiCfg_trace (s : State) (v : SpiCfg) :
    (s.setSpiCfg v).trace = s.trace := rfl
@[simp] theorem State.setSpiCfg_capture (s : State) (v : SpiCfg) :
    (s.setSpiCfg v).capture = s.capture := rfl
@[simp] theorem State.setSpiCfg_draws (s : State) (v : SpiCfg) :
    (s.setSpiCfg v).draws = s.draws := rfl
@[simp] theorem State.setSpiCfg_program (s : State) (v : SpiCfg) :
    (s.setSpiCfg v).program = s.program := rfl

/-! `setCs` -/

@[simp] theorem State.setCs_cfg (s : State) (v : CsLevel) : (s.setCs v).cfg = s.cfg := rfl
@[simp] theorem State.setCs_ctrl_initialised (s : State) (v : CsLevel) :
    (s.setCs v).ctrl.initialised = s.ctrl.initialised := rfl
@[simp] theorem State.setCs_ctrl_spiCfg (s : State) (v : CsLevel) :
    (s.setCs v).ctrl.spiCfg = s.ctrl.spiCfg := rfl
@[simp] theorem State.setCs_ctrl_cs (s : State) (v : CsLevel) : (s.setCs v).ctrl.cs = v := rfl
@[simp] theorem State.setCs_ctrl_phase (s : State) (v : CsLevel) :
    (s.setCs v).ctrl.phase = s.ctrl.phase := rfl
@[simp] theorem State.setCs_ctrl_off (s : State) (v : CsLevel) :
    (s.setCs v).ctrl.off = s.ctrl.off := rfl
@[simp] theorem State.setCs_ctrl_attempt (s : State) (v : CsLevel) :
    (s.setCs v).ctrl.attempt = s.ctrl.attempt := rfl
@[simp] theorem State.setCs_ctrl_xferActive (s : State) (v : CsLevel) :
    (s.setCs v).ctrl.xferActive = s.ctrl.xferActive := rfl
@[simp] theorem State.setCs_x (s : State) (v : CsLevel) : (s.setCs v).x = s.x := rfl
@[simp] theorem State.setCs_src (s : State) (v : CsLevel) : (s.setCs v).src = s.src := rfl
@[simp] theorem State.setCs_dst (s : State) (v : CsLevel) : (s.setCs v).dst = s.dst := rfl
@[simp] theorem State.setCs_dev (s : State) (v : CsLevel) : (s.setCs v).dev = s.dev := rfl
@[simp] theorem State.setCs_trace (s : State) (v : CsLevel) : (s.setCs v).trace = s.trace := rfl
@[simp] theorem State.setCs_capture (s : State) (v : CsLevel) :
    (s.setCs v).capture = s.capture := rfl
@[simp] theorem State.setCs_draws (s : State) (v : CsLevel) : (s.setCs v).draws = s.draws := rfl
@[simp] theorem State.setCs_program (s : State) (v : CsLevel) :
    (s.setCs v).program = s.program := rfl

/-! `setPhase` -/

@[simp] theorem State.setPhase_cfg (s : State) (v : Phase) : (s.setPhase v).cfg = s.cfg := rfl
@[simp] theorem State.setPhase_ctrl_initialised (s : State) (v : Phase) :
    (s.setPhase v).ctrl.initialised = s.ctrl.initialised := rfl
@[simp] theorem State.setPhase_ctrl_spiCfg (s : State) (v : Phase) :
    (s.setPhase v).ctrl.spiCfg = s.ctrl.spiCfg := rfl
@[simp] theorem State.setPhase_ctrl_cs (s : State) (v : Phase) :
    (s.setPhase v).ctrl.cs = s.ctrl.cs := rfl
@[simp] theorem State.setPhase_ctrl_phase (s : State) (v : Phase) :
    (s.setPhase v).ctrl.phase = v := rfl
@[simp] theorem State.setPhase_ctrl_off (s : State) (v : Phase) :
    (s.setPhase v).ctrl.off = s.ctrl.off := rfl
@[simp] theorem State.setPhase_ctrl_attempt (s : State) (v : Phase) :
    (s.setPhase v).ctrl.attempt = s.ctrl.attempt := rfl
@[simp] theorem State.setPhase_ctrl_xferActive (s : State) (v : Phase) :
    (s.setPhase v).ctrl.xferActive = s.ctrl.xferActive := rfl
@[simp] theorem State.setPhase_x (s : State) (v : Phase) : (s.setPhase v).x = s.x := rfl
@[simp] theorem State.setPhase_src (s : State) (v : Phase) : (s.setPhase v).src = s.src := rfl
@[simp] theorem State.setPhase_dst (s : State) (v : Phase) : (s.setPhase v).dst = s.dst := rfl
@[simp] theorem State.setPhase_dev (s : State) (v : Phase) : (s.setPhase v).dev = s.dev := rfl
@[simp] theorem State.setPhase_trace (s : State) (v : Phase) : (s.setPhase v).trace = s.trace := rfl
@[simp] theorem State.setPhase_capture (s : State) (v : Phase) :
    (s.setPhase v).capture = s.capture := rfl
@[simp] theorem State.setPhase_draws (s : State) (v : Phase) : (s.setPhase v).draws = s.draws := rfl
@[simp] theorem State.setPhase_program (s : State) (v : Phase) :
    (s.setPhase v).program = s.program := rfl

/-! `setOff` -/

@[simp] theorem State.setOff_cfg (s : State) (v : Nat) : (s.setOff v).cfg = s.cfg := rfl
@[simp] theorem State.setOff_ctrl_initialised (s : State) (v : Nat) :
    (s.setOff v).ctrl.initialised = s.ctrl.initialised := rfl
@[simp] theorem State.setOff_ctrl_spiCfg (s : State) (v : Nat) :
    (s.setOff v).ctrl.spiCfg = s.ctrl.spiCfg := rfl
@[simp] theorem State.setOff_ctrl_cs (s : State) (v : Nat) : (s.setOff v).ctrl.cs = s.ctrl.cs := rfl
@[simp] theorem State.setOff_ctrl_phase (s : State) (v : Nat) :
    (s.setOff v).ctrl.phase = s.ctrl.phase := rfl
@[simp] theorem State.setOff_ctrl_off (s : State) (v : Nat) : (s.setOff v).ctrl.off = v := rfl
@[simp] theorem State.setOff_ctrl_attempt (s : State) (v : Nat) :
    (s.setOff v).ctrl.attempt = s.ctrl.attempt := rfl
@[simp] theorem State.setOff_ctrl_xferActive (s : State) (v : Nat) :
    (s.setOff v).ctrl.xferActive = s.ctrl.xferActive := rfl
@[simp] theorem State.setOff_x (s : State) (v : Nat) : (s.setOff v).x = s.x := rfl
@[simp] theorem State.setOff_src (s : State) (v : Nat) : (s.setOff v).src = s.src := rfl
@[simp] theorem State.setOff_dst (s : State) (v : Nat) : (s.setOff v).dst = s.dst := rfl
@[simp] theorem State.setOff_dev (s : State) (v : Nat) : (s.setOff v).dev = s.dev := rfl
@[simp] theorem State.setOff_trace (s : State) (v : Nat) : (s.setOff v).trace = s.trace := rfl
@[simp] theorem State.setOff_capture (s : State) (v : Nat) : (s.setOff v).capture = s.capture := rfl
@[simp] theorem State.setOff_draws (s : State) (v : Nat) : (s.setOff v).draws = s.draws := rfl
@[simp] theorem State.setOff_program (s : State) (v : Nat) : (s.setOff v).program = s.program := rfl

/-! `setAttempt` -/

@[simp] theorem State.setAttempt_cfg (s : State) (v : Nat) : (s.setAttempt v).cfg = s.cfg := rfl
@[simp] theorem State.setAttempt_ctrl_initialised (s : State) (v : Nat) :
    (s.setAttempt v).ctrl.initialised = s.ctrl.initialised := rfl
@[simp] theorem State.setAttempt_ctrl_spiCfg (s : State) (v : Nat) :
    (s.setAttempt v).ctrl.spiCfg = s.ctrl.spiCfg := rfl
@[simp] theorem State.setAttempt_ctrl_cs (s : State) (v : Nat) :
    (s.setAttempt v).ctrl.cs = s.ctrl.cs := rfl
@[simp] theorem State.setAttempt_ctrl_phase (s : State) (v : Nat) :
    (s.setAttempt v).ctrl.phase = s.ctrl.phase := rfl
@[simp] theorem State.setAttempt_ctrl_off (s : State) (v : Nat) :
    (s.setAttempt v).ctrl.off = s.ctrl.off := rfl
@[simp] theorem State.setAttempt_ctrl_attempt (s : State) (v : Nat) :
    (s.setAttempt v).ctrl.attempt = v := rfl
@[simp] theorem State.setAttempt_ctrl_xferActive (s : State) (v : Nat) :
    (s.setAttempt v).ctrl.xferActive = s.ctrl.xferActive := rfl
@[simp] theorem State.setAttempt_x (s : State) (v : Nat) : (s.setAttempt v).x = s.x := rfl
@[simp] theorem State.setAttempt_src (s : State) (v : Nat) : (s.setAttempt v).src = s.src := rfl
@[simp] theorem State.setAttempt_dst (s : State) (v : Nat) : (s.setAttempt v).dst = s.dst := rfl
@[simp] theorem State.setAttempt_dev (s : State) (v : Nat) : (s.setAttempt v).dev = s.dev := rfl
@[simp] theorem State.setAttempt_trace (s : State) (v : Nat) :
    (s.setAttempt v).trace = s.trace := rfl
@[simp] theorem State.setAttempt_capture (s : State) (v : Nat) :
    (s.setAttempt v).capture = s.capture := rfl
@[simp] theorem State.setAttempt_draws (s : State) (v : Nat) :
    (s.setAttempt v).draws = s.draws := rfl
@[simp] theorem State.setAttempt_program (s : State) (v : Nat) :
    (s.setAttempt v).program = s.program := rfl

/-! `setXferActive` -/

@[simp] theorem State.setXferActive_cfg (s : State) (v : Bool) :
    (s.setXferActive v).cfg = s.cfg := rfl
@[simp] theorem State.setXferActive_ctrl_initialised (s : State) (v : Bool) :
    (s.setXferActive v).ctrl.initialised = s.ctrl.initialised := rfl
@[simp] theorem State.setXferActive_ctrl_spiCfg (s : State) (v : Bool) :
    (s.setXferActive v).ctrl.spiCfg = s.ctrl.spiCfg := rfl
@[simp] theorem State.setXferActive_ctrl_cs (s : State) (v : Bool) :
    (s.setXferActive v).ctrl.cs = s.ctrl.cs := rfl
@[simp] theorem State.setXferActive_ctrl_phase (s : State) (v : Bool) :
    (s.setXferActive v).ctrl.phase = s.ctrl.phase := rfl
@[simp] theorem State.setXferActive_ctrl_off (s : State) (v : Bool) :
    (s.setXferActive v).ctrl.off = s.ctrl.off := rfl
@[simp] theorem State.setXferActive_ctrl_attempt (s : State) (v : Bool) :
    (s.setXferActive v).ctrl.attempt = s.ctrl.attempt := rfl
@[simp] theorem State.setXferActive_ctrl_xferActive (s : State) (v : Bool) :
    (s.setXferActive v).ctrl.xferActive = v := rfl
@[simp] theorem State.setXferActive_x (s : State) (v : Bool) : (s.setXferActive v).x = s.x := rfl
@[simp] theorem State.setXferActive_src (s : State) (v : Bool) :
    (s.setXferActive v).src = s.src := rfl
@[simp] theorem State.setXferActive_dst (s : State) (v : Bool) :
    (s.setXferActive v).dst = s.dst := rfl
@[simp] theorem State.setXferActive_dev (s : State) (v : Bool) :
    (s.setXferActive v).dev = s.dev := rfl
@[simp] theorem State.setXferActive_trace (s : State) (v : Bool) :
    (s.setXferActive v).trace = s.trace := rfl
@[simp] theorem State.setXferActive_capture (s : State) (v : Bool) :
    (s.setXferActive v).capture = s.capture := rfl
@[simp] theorem State.setXferActive_draws (s : State) (v : Bool) :
    (s.setXferActive v).draws = s.draws := rfl
@[simp] theorem State.setXferActive_program (s : State) (v : Bool) :
    (s.setXferActive v).program = s.program := rfl

/-! `setOp` -/

@[simp] theorem State.setOp_cfg (s : State) (v : BitVec 3) : (s.setOp v).cfg = s.cfg := rfl
@[simp] theorem State.setOp_ctrl (s : State) (v : BitVec 3) : (s.setOp v).ctrl = s.ctrl := rfl
@[simp] theorem State.setOp_x_op (s : State) (v : BitVec 3) : (s.setOp v).x.op = v := rfl
@[simp] theorem State.setOp_x_addr (s : State) (v : BitVec 3) : (s.setOp v).x.addr = s.x.addr := rfl
@[simp] theorem State.setOp_x_len (s : State) (v : BitVec 3) : (s.setOp v).x.len = s.x.len := rfl
@[simp] theorem State.setOp_x_count (s : State) (v : BitVec 3) :
    (s.setOp v).x.count = s.x.count := rfl
@[simp] theorem State.setOp_x_result (s : State) (v : BitVec 3) :
    (s.setOp v).x.result = s.x.result := rfl
@[simp] theorem State.setOp_x_busy (s : State) (v : BitVec 3) : (s.setOp v).x.busy = s.x.busy := rfl
@[simp] theorem State.setOp_x_geo (s : State) (v : BitVec 3) : (s.setOp v).x.geo = s.x.geo := rfl
@[simp] theorem State.setOp_src (s : State) (v : BitVec 3) : (s.setOp v).src = s.src := rfl
@[simp] theorem State.setOp_dst (s : State) (v : BitVec 3) : (s.setOp v).dst = s.dst := rfl
@[simp] theorem State.setOp_dev (s : State) (v : BitVec 3) : (s.setOp v).dev = s.dev := rfl
@[simp] theorem State.setOp_trace (s : State) (v : BitVec 3) : (s.setOp v).trace = s.trace := rfl
@[simp] theorem State.setOp_capture (s : State) (v : BitVec 3) :
    (s.setOp v).capture = s.capture := rfl
@[simp] theorem State.setOp_draws (s : State) (v : BitVec 3) : (s.setOp v).draws = s.draws := rfl
@[simp] theorem State.setOp_program (s : State) (v : BitVec 3) :
    (s.setOp v).program = s.program := rfl

/-! `setAddr` -/

@[simp] theorem State.setAddr_cfg (s : State) (v : Word32) : (s.setAddr v).cfg = s.cfg := rfl
@[simp] theorem State.setAddr_ctrl (s : State) (v : Word32) : (s.setAddr v).ctrl = s.ctrl := rfl
@[simp] theorem State.setAddr_x_op (s : State) (v : Word32) : (s.setAddr v).x.op = s.x.op := rfl
@[simp] theorem State.setAddr_x_addr (s : State) (v : Word32) : (s.setAddr v).x.addr = v := rfl
@[simp] theorem State.setAddr_x_len (s : State) (v : Word32) : (s.setAddr v).x.len = s.x.len := rfl
@[simp] theorem State.setAddr_x_count (s : State) (v : Word32) :
    (s.setAddr v).x.count = s.x.count := rfl
@[simp] theorem State.setAddr_x_result (s : State) (v : Word32) :
    (s.setAddr v).x.result = s.x.result := rfl
@[simp] theorem State.setAddr_x_busy (s : State) (v : Word32) :
    (s.setAddr v).x.busy = s.x.busy := rfl
@[simp] theorem State.setAddr_x_geo (s : State) (v : Word32) : (s.setAddr v).x.geo = s.x.geo := rfl
@[simp] theorem State.setAddr_src (s : State) (v : Word32) : (s.setAddr v).src = s.src := rfl
@[simp] theorem State.setAddr_dst (s : State) (v : Word32) : (s.setAddr v).dst = s.dst := rfl
@[simp] theorem State.setAddr_dev (s : State) (v : Word32) : (s.setAddr v).dev = s.dev := rfl
@[simp] theorem State.setAddr_trace (s : State) (v : Word32) : (s.setAddr v).trace = s.trace := rfl
@[simp] theorem State.setAddr_capture (s : State) (v : Word32) :
    (s.setAddr v).capture = s.capture := rfl
@[simp] theorem State.setAddr_draws (s : State) (v : Word32) : (s.setAddr v).draws = s.draws := rfl
@[simp] theorem State.setAddr_program (s : State) (v : Word32) :
    (s.setAddr v).program = s.program := rfl

/-! `setLen` -/

@[simp] theorem State.setLen_cfg (s : State) (v : Word32) : (s.setLen v).cfg = s.cfg := rfl
@[simp] theorem State.setLen_ctrl (s : State) (v : Word32) : (s.setLen v).ctrl = s.ctrl := rfl
@[simp] theorem State.setLen_x_op (s : State) (v : Word32) : (s.setLen v).x.op = s.x.op := rfl
@[simp] theorem State.setLen_x_addr (s : State) (v : Word32) : (s.setLen v).x.addr = s.x.addr := rfl
@[simp] theorem State.setLen_x_len (s : State) (v : Word32) : (s.setLen v).x.len = v := rfl
@[simp] theorem State.setLen_x_count (s : State) (v : Word32) :
    (s.setLen v).x.count = s.x.count := rfl
@[simp] theorem State.setLen_x_result (s : State) (v : Word32) :
    (s.setLen v).x.result = s.x.result := rfl
@[simp] theorem State.setLen_x_busy (s : State) (v : Word32) : (s.setLen v).x.busy = s.x.busy := rfl
@[simp] theorem State.setLen_x_geo (s : State) (v : Word32) : (s.setLen v).x.geo = s.x.geo := rfl
@[simp] theorem State.setLen_src (s : State) (v : Word32) : (s.setLen v).src = s.src := rfl
@[simp] theorem State.setLen_dst (s : State) (v : Word32) : (s.setLen v).dst = s.dst := rfl
@[simp] theorem State.setLen_dev (s : State) (v : Word32) : (s.setLen v).dev = s.dev := rfl
@[simp] theorem State.setLen_trace (s : State) (v : Word32) : (s.setLen v).trace = s.trace := rfl
@[simp] theorem State.setLen_capture (s : State) (v : Word32) :
    (s.setLen v).capture = s.capture := rfl
@[simp] theorem State.setLen_draws (s : State) (v : Word32) : (s.setLen v).draws = s.draws := rfl
@[simp] theorem State.setLen_program (s : State) (v : Word32) :
    (s.setLen v).program = s.program := rfl

/-! `setCount` -/

@[simp] theorem State.setCount_cfg (s : State) (v : Word32) : (s.setCount v).cfg = s.cfg := rfl
@[simp] theorem State.setCount_ctrl (s : State) (v : Word32) : (s.setCount v).ctrl = s.ctrl := rfl
@[simp] theorem State.setCount_x_op (s : State) (v : Word32) : (s.setCount v).x.op = s.x.op := rfl
@[simp] theorem State.setCount_x_addr (s : State) (v : Word32) :
    (s.setCount v).x.addr = s.x.addr := rfl
@[simp] theorem State.setCount_x_len (s : State) (v : Word32) :
    (s.setCount v).x.len = s.x.len := rfl
@[simp] theorem State.setCount_x_count (s : State) (v : Word32) : (s.setCount v).x.count = v := rfl
@[simp] theorem State.setCount_x_result (s : State) (v : Word32) :
    (s.setCount v).x.result = s.x.result := rfl
@[simp] theorem State.setCount_x_busy (s : State) (v : Word32) :
    (s.setCount v).x.busy = s.x.busy := rfl
@[simp] theorem State.setCount_x_geo (s : State) (v : Word32) :
    (s.setCount v).x.geo = s.x.geo := rfl
@[simp] theorem State.setCount_src (s : State) (v : Word32) : (s.setCount v).src = s.src := rfl
@[simp] theorem State.setCount_dst (s : State) (v : Word32) : (s.setCount v).dst = s.dst := rfl
@[simp] theorem State.setCount_dev (s : State) (v : Word32) : (s.setCount v).dev = s.dev := rfl
@[simp] theorem State.setCount_trace (s : State) (v : Word32) :
    (s.setCount v).trace = s.trace := rfl
@[simp] theorem State.setCount_capture (s : State) (v : Word32) :
    (s.setCount v).capture = s.capture := rfl
@[simp] theorem State.setCount_draws (s : State) (v : Word32) :
    (s.setCount v).draws = s.draws := rfl
@[simp] theorem State.setCount_program (s : State) (v : Word32) :
    (s.setCount v).program = s.program := rfl

/-! `setResult` -/

@[simp] theorem State.setResult_cfg (s : State) (v : BitVec 3) : (s.setResult v).cfg = s.cfg := rfl
@[simp] theorem State.setResult_ctrl (s : State) (v : BitVec 3) :
    (s.setResult v).ctrl = s.ctrl := rfl
@[simp] theorem State.setResult_x_op (s : State) (v : BitVec 3) :
    (s.setResult v).x.op = s.x.op := rfl
@[simp] theorem State.setResult_x_addr (s : State) (v : BitVec 3) :
    (s.setResult v).x.addr = s.x.addr := rfl
@[simp] theorem State.setResult_x_len (s : State) (v : BitVec 3) :
    (s.setResult v).x.len = s.x.len := rfl
@[simp] theorem State.setResult_x_count (s : State) (v : BitVec 3) :
    (s.setResult v).x.count = s.x.count := rfl
@[simp] theorem State.setResult_x_result (s : State) (v : BitVec 3) :
    (s.setResult v).x.result = v := rfl
@[simp] theorem State.setResult_x_busy (s : State) (v : BitVec 3) :
    (s.setResult v).x.busy = s.x.busy := rfl
@[simp] theorem State.setResult_x_geo (s : State) (v : BitVec 3) :
    (s.setResult v).x.geo = s.x.geo := rfl
@[simp] theorem State.setResult_src (s : State) (v : BitVec 3) : (s.setResult v).src = s.src := rfl
@[simp] theorem State.setResult_dst (s : State) (v : BitVec 3) : (s.setResult v).dst = s.dst := rfl
@[simp] theorem State.setResult_dev (s : State) (v : BitVec 3) : (s.setResult v).dev = s.dev := rfl
@[simp] theorem State.setResult_trace (s : State) (v : BitVec 3) :
    (s.setResult v).trace = s.trace := rfl
@[simp] theorem State.setResult_capture (s : State) (v : BitVec 3) :
    (s.setResult v).capture = s.capture := rfl
@[simp] theorem State.setResult_draws (s : State) (v : BitVec 3) :
    (s.setResult v).draws = s.draws := rfl
@[simp] theorem State.setResult_program (s : State) (v : BitVec 3) :
    (s.setResult v).program = s.program := rfl

/-! `setBusy` -/

@[simp] theorem State.setBusy_cfg (s : State) (v : Bool) : (s.setBusy v).cfg = s.cfg := rfl
@[simp] theorem State.setBusy_ctrl (s : State) (v : Bool) : (s.setBusy v).ctrl = s.ctrl := rfl
@[simp] theorem State.setBusy_x_op (s : State) (v : Bool) : (s.setBusy v).x.op = s.x.op := rfl
@[simp] theorem State.setBusy_x_addr (s : State) (v : Bool) : (s.setBusy v).x.addr = s.x.addr := rfl
@[simp] theorem State.setBusy_x_len (s : State) (v : Bool) : (s.setBusy v).x.len = s.x.len := rfl
@[simp] theorem State.setBusy_x_count (s : State) (v : Bool) :
    (s.setBusy v).x.count = s.x.count := rfl
@[simp] theorem State.setBusy_x_result (s : State) (v : Bool) :
    (s.setBusy v).x.result = s.x.result := rfl
@[simp] theorem State.setBusy_x_busy (s : State) (v : Bool) : (s.setBusy v).x.busy = v := rfl
@[simp] theorem State.setBusy_x_geo (s : State) (v : Bool) : (s.setBusy v).x.geo = s.x.geo := rfl
@[simp] theorem State.setBusy_src (s : State) (v : Bool) : (s.setBusy v).src = s.src := rfl
@[simp] theorem State.setBusy_dst (s : State) (v : Bool) : (s.setBusy v).dst = s.dst := rfl
@[simp] theorem State.setBusy_dev (s : State) (v : Bool) : (s.setBusy v).dev = s.dev := rfl
@[simp] theorem State.setBusy_trace (s : State) (v : Bool) : (s.setBusy v).trace = s.trace := rfl
@[simp] theorem State.setBusy_capture (s : State) (v : Bool) :
    (s.setBusy v).capture = s.capture := rfl
@[simp] theorem State.setBusy_draws (s : State) (v : Bool) : (s.setBusy v).draws = s.draws := rfl
@[simp] theorem State.setBusy_program (s : State) (v : Bool) :
    (s.setBusy v).program = s.program := rfl

/-! `setGeo` -/

@[simp] theorem State.setGeo_cfg (s : State) (v : Geometry) : (s.setGeo v).cfg = s.cfg := rfl
@[simp] theorem State.setGeo_ctrl (s : State) (v : Geometry) : (s.setGeo v).ctrl = s.ctrl := rfl
@[simp] theorem State.setGeo_x_op (s : State) (v : Geometry) : (s.setGeo v).x.op = s.x.op := rfl
@[simp] theorem State.setGeo_x_addr (s : State) (v : Geometry) :
    (s.setGeo v).x.addr = s.x.addr := rfl
@[simp] theorem State.setGeo_x_len (s : State) (v : Geometry) : (s.setGeo v).x.len = s.x.len := rfl
@[simp] theorem State.setGeo_x_count (s : State) (v : Geometry) :
    (s.setGeo v).x.count = s.x.count := rfl
@[simp] theorem State.setGeo_x_result (s : State) (v : Geometry) :
    (s.setGeo v).x.result = s.x.result := rfl
@[simp] theorem State.setGeo_x_busy (s : State) (v : Geometry) :
    (s.setGeo v).x.busy = s.x.busy := rfl
@[simp] theorem State.setGeo_x_geo (s : State) (v : Geometry) : (s.setGeo v).x.geo = v := rfl
@[simp] theorem State.setGeo_src (s : State) (v : Geometry) : (s.setGeo v).src = s.src := rfl
@[simp] theorem State.setGeo_dst (s : State) (v : Geometry) : (s.setGeo v).dst = s.dst := rfl
@[simp] theorem State.setGeo_dev (s : State) (v : Geometry) : (s.setGeo v).dev = s.dev := rfl
@[simp] theorem State.setGeo_trace (s : State) (v : Geometry) : (s.setGeo v).trace = s.trace := rfl
@[simp] theorem State.setGeo_capture (s : State) (v : Geometry) :
    (s.setGeo v).capture = s.capture := rfl
@[simp] theorem State.setGeo_draws (s : State) (v : Geometry) : (s.setGeo v).draws = s.draws := rfl
@[simp] theorem State.setGeo_program (s : State) (v : Geometry) :
    (s.setGeo v).program = s.program := rfl

/-! `setSr` -/

@[simp] theorem State.setSr_cfg (s : State) (v : Byte) : (s.setSr v).cfg = s.cfg := rfl
@[simp] theorem State.setSr_ctrl (s : State) (v : Byte) : (s.setSr v).ctrl = s.ctrl := rfl
@[simp] theorem State.setSr_x (s : State) (v : Byte) : (s.setSr v).x = s.x := rfl
@[simp] theorem State.setSr_src (s : State) (v : Byte) : (s.setSr v).src = s.src := rfl
@[simp] theorem State.setSr_dst (s : State) (v : Byte) : (s.setSr v).dst = s.dst := rfl
@[simp] theorem State.setSr_dev_sr (s : State) (v : Byte) : (s.setSr v).dev.sr = v := rfl
@[simp] theorem State.setSr_dev_id0 (s : State) (v : Byte) : (s.setSr v).dev.id0 = s.dev.id0 := rfl
@[simp] theorem State.setSr_dev_id1 (s : State) (v : Byte) : (s.setSr v).dev.id1 = s.dev.id1 := rfl
@[simp] theorem State.setSr_dev_id2 (s : State) (v : Byte) : (s.setSr v).dev.id2 = s.dev.id2 := rfl
@[simp] theorem State.setSr_dev_array (s : State) (v : Byte) :
    (s.setSr v).dev.array = s.dev.array := rfl
@[simp] theorem State.setSr_dev_pending (s : State) (v : Byte) :
    (s.setSr v).dev.pending = s.dev.pending := rfl
@[simp] theorem State.setSr_dev_rx (s : State) (v : Byte) : (s.setSr v).dev.rx = s.dev.rx := rfl
@[simp] theorem State.setSr_dev_ignoring (s : State) (v : Byte) :
    (s.setSr v).dev.ignoring = s.dev.ignoring := rfl
@[simp] theorem State.setSr_dev_profile (s : State) (v : Byte) :
    (s.setSr v).dev.profile = s.dev.profile := rfl
@[simp] theorem State.setSr_trace (s : State) (v : Byte) : (s.setSr v).trace = s.trace := rfl
@[simp] theorem State.setSr_capture (s : State) (v : Byte) : (s.setSr v).capture = s.capture := rfl
@[simp] theorem State.setSr_draws (s : State) (v : Byte) : (s.setSr v).draws = s.draws := rfl
@[simp] theorem State.setSr_program (s : State) (v : Byte) : (s.setSr v).program = s.program := rfl

/-! `setPending` -/

@[simp] theorem State.setPending_cfg (s : State) (v : Option Pending) :
    (s.setPending v).cfg = s.cfg := rfl
@[simp] theorem State.setPending_ctrl (s : State) (v : Option Pending) :
    (s.setPending v).ctrl = s.ctrl := rfl
@[simp] theorem State.setPending_x (s : State) (v : Option Pending) :
    (s.setPending v).x = s.x := rfl
@[simp] theorem State.setPending_src (s : State) (v : Option Pending) :
    (s.setPending v).src = s.src := rfl
@[simp] theorem State.setPending_dst (s : State) (v : Option Pending) :
    (s.setPending v).dst = s.dst := rfl
@[simp] theorem State.setPending_dev_sr (s : State) (v : Option Pending) :
    (s.setPending v).dev.sr = s.dev.sr := rfl
@[simp] theorem State.setPending_dev_id0 (s : State) (v : Option Pending) :
    (s.setPending v).dev.id0 = s.dev.id0 := rfl
@[simp] theorem State.setPending_dev_id1 (s : State) (v : Option Pending) :
    (s.setPending v).dev.id1 = s.dev.id1 := rfl
@[simp] theorem State.setPending_dev_id2 (s : State) (v : Option Pending) :
    (s.setPending v).dev.id2 = s.dev.id2 := rfl
@[simp] theorem State.setPending_dev_array (s : State) (v : Option Pending) :
    (s.setPending v).dev.array = s.dev.array := rfl
@[simp] theorem State.setPending_dev_pending (s : State) (v : Option Pending) :
    (s.setPending v).dev.pending = v := rfl
@[simp] theorem State.setPending_dev_rx (s : State) (v : Option Pending) :
    (s.setPending v).dev.rx = s.dev.rx := rfl
@[simp] theorem State.setPending_dev_ignoring (s : State) (v : Option Pending) :
    (s.setPending v).dev.ignoring = s.dev.ignoring := rfl
@[simp] theorem State.setPending_dev_profile (s : State) (v : Option Pending) :
    (s.setPending v).dev.profile = s.dev.profile := rfl
@[simp] theorem State.setPending_trace (s : State) (v : Option Pending) :
    (s.setPending v).trace = s.trace := rfl
@[simp] theorem State.setPending_capture (s : State) (v : Option Pending) :
    (s.setPending v).capture = s.capture := rfl
@[simp] theorem State.setPending_draws (s : State) (v : Option Pending) :
    (s.setPending v).draws = s.draws := rfl
@[simp] theorem State.setPending_program (s : State) (v : Option Pending) :
    (s.setPending v).program = s.program := rfl

/-! `setDev` -/

@[simp] theorem State.setDev_cfg (s : State) (v : Dev) : (s.setDev v).cfg = s.cfg := rfl
@[simp] theorem State.setDev_ctrl (s : State) (v : Dev) : (s.setDev v).ctrl = s.ctrl := rfl
@[simp] theorem State.setDev_x (s : State) (v : Dev) : (s.setDev v).x = s.x := rfl
@[simp] theorem State.setDev_src (s : State) (v : Dev) : (s.setDev v).src = s.src := rfl
@[simp] theorem State.setDev_dst (s : State) (v : Dev) : (s.setDev v).dst = s.dst := rfl
@[simp] theorem State.setDev_dev (s : State) (v : Dev) : (s.setDev v).dev = v := rfl
@[simp] theorem State.setDev_trace (s : State) (v : Dev) : (s.setDev v).trace = s.trace := rfl
@[simp] theorem State.setDev_capture (s : State) (v : Dev) :
    (s.setDev v).capture = s.capture := rfl
@[simp] theorem State.setDev_draws (s : State) (v : Dev) : (s.setDev v).draws = s.draws := rfl
@[simp] theorem State.setDev_program (s : State) (v : Dev) :
    (s.setDev v).program = s.program := rfl

/-! `setSrc` -/

@[simp] theorem State.setSrc_cfg (s : State) (v : Memory) : (s.setSrc v).cfg = s.cfg := rfl
@[simp] theorem State.setSrc_ctrl (s : State) (v : Memory) : (s.setSrc v).ctrl = s.ctrl := rfl
@[simp] theorem State.setSrc_x (s : State) (v : Memory) : (s.setSrc v).x = s.x := rfl
@[simp] theorem State.setSrc_src (s : State) (v : Memory) : (s.setSrc v).src = v := rfl
@[simp] theorem State.setSrc_dst (s : State) (v : Memory) : (s.setSrc v).dst = s.dst := rfl
@[simp] theorem State.setSrc_dev (s : State) (v : Memory) : (s.setSrc v).dev = s.dev := rfl
@[simp] theorem State.setSrc_trace (s : State) (v : Memory) : (s.setSrc v).trace = s.trace := rfl
@[simp] theorem State.setSrc_capture (s : State) (v : Memory) :
    (s.setSrc v).capture = s.capture := rfl
@[simp] theorem State.setSrc_draws (s : State) (v : Memory) : (s.setSrc v).draws = s.draws := rfl
@[simp] theorem State.setSrc_program (s : State) (v : Memory) :
    (s.setSrc v).program = s.program := rfl

/-! `setDst` -/

@[simp] theorem State.setDst_cfg (s : State) (v : Memory) : (s.setDst v).cfg = s.cfg := rfl
@[simp] theorem State.setDst_ctrl (s : State) (v : Memory) : (s.setDst v).ctrl = s.ctrl := rfl
@[simp] theorem State.setDst_x (s : State) (v : Memory) : (s.setDst v).x = s.x := rfl
@[simp] theorem State.setDst_src (s : State) (v : Memory) : (s.setDst v).src = s.src := rfl
@[simp] theorem State.setDst_dst (s : State) (v : Memory) : (s.setDst v).dst = v := rfl
@[simp] theorem State.setDst_dev (s : State) (v : Memory) : (s.setDst v).dev = s.dev := rfl
@[simp] theorem State.setDst_trace (s : State) (v : Memory) : (s.setDst v).trace = s.trace := rfl
@[simp] theorem State.setDst_capture (s : State) (v : Memory) :
    (s.setDst v).capture = s.capture := rfl
@[simp] theorem State.setDst_draws (s : State) (v : Memory) : (s.setDst v).draws = s.draws := rfl
@[simp] theorem State.setDst_program (s : State) (v : Memory) :
    (s.setDst v).program = s.program := rfl

/-! `addEvent` -/

@[simp] theorem State.addEvent_cfg (s : State) (e : WireEvent) : (s.addEvent e).cfg = s.cfg := rfl
@[simp] theorem State.addEvent_ctrl (s : State) (e : WireEvent) :
    (s.addEvent e).ctrl = s.ctrl := rfl
@[simp] theorem State.addEvent_x (s : State) (e : WireEvent) : (s.addEvent e).x = s.x := rfl
@[simp] theorem State.addEvent_src (s : State) (e : WireEvent) : (s.addEvent e).src = s.src := rfl
@[simp] theorem State.addEvent_dst (s : State) (e : WireEvent) : (s.addEvent e).dst = s.dst := rfl
@[simp] theorem State.addEvent_dev (s : State) (e : WireEvent) : (s.addEvent e).dev = s.dev := rfl
@[simp] theorem State.addEvent_trace (s : State) (e : WireEvent) :
    (s.addEvent e).trace = s.trace ++ [e] := rfl
@[simp] theorem State.addEvent_capture (s : State) (e : WireEvent) :
    (s.addEvent e).capture = s.capture := rfl
@[simp] theorem State.addEvent_draws (s : State) (e : WireEvent) :
    (s.addEvent e).draws = s.draws := rfl
@[simp] theorem State.addEvent_program (s : State) (e : WireEvent) :
    (s.addEvent e).program = s.program := rfl

/-! `setCapture` -/

@[simp] theorem State.setCapture_cfg (s : State) (v : List Byte) :
    (s.setCapture v).cfg = s.cfg := rfl
@[simp] theorem State.setCapture_ctrl (s : State) (v : List Byte) :
    (s.setCapture v).ctrl = s.ctrl := rfl
@[simp] theorem State.setCapture_x (s : State) (v : List Byte) : (s.setCapture v).x = s.x := rfl
@[simp] theorem State.setCapture_src (s : State) (v : List Byte) :
    (s.setCapture v).src = s.src := rfl
@[simp] theorem State.setCapture_dst (s : State) (v : List Byte) :
    (s.setCapture v).dst = s.dst := rfl
@[simp] theorem State.setCapture_dev (s : State) (v : List Byte) :
    (s.setCapture v).dev = s.dev := rfl
@[simp] theorem State.setCapture_trace (s : State) (v : List Byte) :
    (s.setCapture v).trace = s.trace := rfl
@[simp] theorem State.setCapture_capture (s : State) (v : List Byte) :
    (s.setCapture v).capture = v := rfl
@[simp] theorem State.setCapture_draws (s : State) (v : List Byte) :
    (s.setCapture v).draws = s.draws := rfl
@[simp] theorem State.setCapture_program (s : State) (v : List Byte) :
    (s.setCapture v).program = s.program := rfl

/-! `advanceDraws` -/

@[simp] theorem State.advanceDraws_cfg (s : State) (k : Nat) : (s.advanceDraws k).cfg = s.cfg := rfl
@[simp] theorem State.advanceDraws_ctrl (s : State) (k : Nat) :
    (s.advanceDraws k).ctrl = s.ctrl := rfl
@[simp] theorem State.advanceDraws_x (s : State) (k : Nat) : (s.advanceDraws k).x = s.x := rfl
@[simp] theorem State.advanceDraws_src (s : State) (k : Nat) : (s.advanceDraws k).src = s.src := rfl
@[simp] theorem State.advanceDraws_dst (s : State) (k : Nat) : (s.advanceDraws k).dst = s.dst := rfl
@[simp] theorem State.advanceDraws_dev (s : State) (k : Nat) : (s.advanceDraws k).dev = s.dev := rfl
@[simp] theorem State.advanceDraws_trace (s : State) (k : Nat) :
    (s.advanceDraws k).trace = s.trace := rfl
@[simp] theorem State.advanceDraws_capture (s : State) (k : Nat) :
    (s.advanceDraws k).capture = s.capture := rfl
@[simp] theorem State.advanceDraws_draws (s : State) (k : Nat) :
    (s.advanceDraws k).draws = s.draws + k := rfl
@[simp] theorem State.advanceDraws_program (s : State) (k : Nat) :
    (s.advanceDraws k).program = s.program := rfl

/-! `setProgram` -/

@[simp] theorem State.setProgram_cfg (s : State) (v : List Line) :
    (s.setProgram v).cfg = s.cfg := rfl
@[simp] theorem State.setProgram_ctrl (s : State) (v : List Line) :
    (s.setProgram v).ctrl = s.ctrl := rfl
@[simp] theorem State.setProgram_x (s : State) (v : List Line) : (s.setProgram v).x = s.x := rfl
@[simp] theorem State.setProgram_src (s : State) (v : List Line) :
    (s.setProgram v).src = s.src := rfl
@[simp] theorem State.setProgram_dst (s : State) (v : List Line) :
    (s.setProgram v).dst = s.dst := rfl
@[simp] theorem State.setProgram_dev (s : State) (v : List Line) :
    (s.setProgram v).dev = s.dev := rfl
@[simp] theorem State.setProgram_trace (s : State) (v : List Line) :
    (s.setProgram v).trace = s.trace := rfl
@[simp] theorem State.setProgram_capture (s : State) (v : List Line) :
    (s.setProgram v).capture = s.capture := rfl
@[simp] theorem State.setProgram_draws (s : State) (v : List Line) :
    (s.setProgram v).draws = s.draws := rfl
@[simp] theorem State.setProgram_program (s : State) (v : List Line) :
    (s.setProgram v).program = v := rfl

end Sys2Proof.Machine
end

