-- ==== Sys2Proof/Laws/Sequencing.lean ====
section
/-! SUPPORT. The laws of `andThen`, of the ending of an operation, and of the preconditions: what each
answers, and what follows when a sequence answers a next state. -/

namespace Sys2Proof.Machine

variable {α β : Type}

@[simp] theorem andThen_next (a : α) (k : α → Res β) : andThen (.next a) k = k a := rfl

@[simp] theorem andThen_fault (f : Fault) (k : α → Res β) : andThen (.fault f) k = .fault f := rfl

@[simp] theorem andThen_refused (r : Refusal) (k : α → Res β) :
    andThen (.refused r) k = .refused r := rfl

/-- A sequence answers a next state exactly when both its parts do. -/
theorem andThen_eq_next {o : Res α} {k : α → Res β} {b : β} :
    andThen o k = .next b ↔ ∃ a, o = .next a ∧ k a = .next b := by
  cases o <;> simp

theorem andThen_assoc {γ : Type} (o : Res α) (k : α → Res β) (l : β → Res γ) :
    andThen (andThen o k) l = andThen o fun a => andThen (k a) l := by
  cases o <;> rfl

/-- Passing a precondition on the configuration. -/
theorem requireConfig_eq_next {s t : State} {k : State → Res State} :
    requireConfig s k = .next t ↔ s.cfg.wf = true ∧ k s = .next t := by
  unfold requireConfig
  split <;> simp_all

theorem requireIdle_eq_next {s t : State} {k : State → Res State} :
    requireIdle s k = .next t ↔ s.ctrl.phase = .idle ∧ k s = .next t := by
  unfold requireIdle
  split <;> simp_all

theorem requireInitialised_eq_next {s t : State} {k : State → Res State} :
    requireInitialised s k = .next t ↔ s.ctrl.initialised = true ∧ k s = .next t := by
  unfold requireInitialised
  split <;> simp_all

/-- What READ, WRITE, ERASE, IS_BUSY and POLL have passed before they do anything. -/
theorem requireReady_eq_next {s t : State} {k : State → Res State} :
    requireReady s k = .next t ↔
      s.cfg.wf = true ∧ s.ctrl.phase = .idle ∧ s.ctrl.initialised = true ∧ k s = .next t := by
  simp only [requireReady, requireConfig_eq_next, requireIdle_eq_next, requireInitialised_eq_next]

theorem requireConfig_pass {s : State} (k : State → Res State) (h : s.cfg.wf = true) :
    requireConfig s k = k s := by simp [requireConfig, h]

theorem requireIdle_pass {s : State} (k : State → Res State) (h : s.ctrl.phase = .idle) :
    requireIdle s k = k s := by simp [requireIdle, h]

theorem requireReady_pass {s : State} (k : State → Res State) (hc : s.cfg.wf = true)
    (hp : s.ctrl.phase = .idle) (hi : s.ctrl.initialised = true) : requireReady s k = k s := by
  simp [requireReady, requireConfig, requireIdle, requireInitialised, hc, hp, hi]

/-! ### Ending an operation -/

/-- The whole effect of ending an operation with a result: the result register, the phase, and the
captured reply forgotten. -/
theorem State.finish_eq (s : State) (r : ResultCode) :
    s.finish r =
      { s with ctrl := { s.ctrl with phase := .idle }
               x := { s.x with result := resultCode r }
               capture := [] } := rfl

/-- Raising an error is ending with its code. -/
theorem State.raise_eq (s : State) (r : ResultCode) : s.raise r = s.finish r := rfl

@[simp] theorem State.finish_dev (s : State) (r : ResultCode) : (s.finish r).dev = s.dev := rfl
@[simp] theorem State.finish_cfg (s : State) (r : ResultCode) : (s.finish r).cfg = s.cfg := rfl
@[simp] theorem State.finish_src (s : State) (r : ResultCode) : (s.finish r).src = s.src := rfl
@[simp] theorem State.finish_dst (s : State) (r : ResultCode) : (s.finish r).dst = s.dst := rfl
@[simp] theorem State.finish_trace (s : State) (r : ResultCode) :
    (s.finish r).trace = s.trace := rfl
@[simp] theorem State.finish_draws (s : State) (r : ResultCode) :
    (s.finish r).draws = s.draws := rfl
@[simp] theorem State.finish_program (s : State) (r : ResultCode) :
    (s.finish r).program = s.program := rfl
@[simp] theorem State.finish_capture (s : State) (r : ResultCode) :
    (s.finish r).capture = [] := rfl
@[simp] theorem State.finish_x (s : State) (r : ResultCode) :
    (s.finish r).x = { s.x with result := resultCode r } := rfl
@[simp] theorem State.finish_ctrl (s : State) (r : ResultCode) :
    (s.finish r).ctrl = { s.ctrl with phase := .idle } := rfl

/-- The result codes an operation can write are the five of 60 R121. -/
theorem resultCode_le_four (r : ResultCode) : (resultCode r).toNat ≤ 4 := by
  cases r <;> decide

end Sys2Proof.Machine
end

