-- ==== Sys2Proof/Laws/Device.lean ====
section
/-! SUPPORT. The laws of the device: the opcodes of a well-formed configuration are told apart; what
the device drives after each opcode; everything that acting on a frame can do; everything the engine
can do. -/

namespace Sys2Proof.Machine

/-- The fifteen inequalities between the six opcodes of a well-formed configuration (00 R10). -/
theorem opcodes_distinct {c : Config} (h : c.wf = true) :
    (c.var.opRead ≠ c.var.opProgram ∧ c.var.opRead ≠ c.var.opErase ∧
      c.var.opRead ≠ c.var.opStatus ∧ c.var.opRead ≠ c.var.opIdentify ∧
      c.var.opRead ≠ c.var.opWren) ∧
    (c.var.opProgram ≠ c.var.opErase ∧ c.var.opProgram ≠ c.var.opStatus ∧
      c.var.opProgram ≠ c.var.opIdentify ∧ c.var.opProgram ≠ c.var.opWren) ∧
    (c.var.opErase ≠ c.var.opStatus ∧ c.var.opErase ≠ c.var.opIdentify ∧
      c.var.opErase ≠ c.var.opWren) ∧
    (c.var.opStatus ≠ c.var.opIdentify ∧ c.var.opStatus ≠ c.var.opWren) ∧
    c.var.opIdentify ≠ c.var.opWren := by
  simp only [Config.wf, Bool.and_eq_true, decide_eq_true_eq, Variant.opcodes] at h
  simp only [List.nodup_cons, List.mem_cons, List.not_mem_nil, not_or, or_false] at h
  obtain ⟨-, h⟩ := h
  simp only [decide_eq_true_eq] at h
  tauto

/-- The bounds of a well-formed configuration (00 R10). -/
theorem config_bounds {c : Config} (h : c.wf = true) :
    1 ≤ c.geo.pageSize ∧ 1 ≤ c.geo.eraseBlockSize ∧ c.geo.eraseBlockSize ≤ c.geo.totalSize ∧
      c.geo.pageSize ≤ c.geo.totalSize ∧ 1 ≤ c.maxXfer ∧ 1 ≤ c.idRetryMax := by
  simp only [Config.wf, Bool.and_eq_true, decide_eq_true_eq] at h
  tauto

/-! ### What the device drives -/

theorem driven_nil {v : Variant} {d : Dev} (h : d.rx = []) : driven v d = none := by
  simp [driven, h]

theorem driven_status {c : Config} {d : Dev} {rest : List Byte}
    (h : d.rx = c.var.opStatus :: rest) : driven c.var d = some d.sr := by
  simp [driven, h]

theorem driven_identify {c : Config} (hc : c.wf = true) {d : Dev} {rest : List Byte}
    (h : d.rx = c.var.opIdentify :: rest) :
    driven c.var d =
      if d.ignoring || !d.profile.identifies then none else identityByte d rest.length := by
  have ho := opcodes_distinct hc
  simp [driven, h, ho.2.2.2.1.1.symm]

/-- After the write-enable, program and erase opcodes the device does not answer (41 R90). -/
theorem driven_silent {c : Config} {d : Dev} {op : Byte} {rest : List Byte}
    (h : d.rx = op :: rest) (h1 : op ≠ c.var.opStatus) (h2 : op ≠ c.var.opIdentify)
    (h3 : op ≠ c.var.opRead) : driven c.var d = none := by
  simp [driven, h, h1, h2, h3]

/-- In the address bytes of a read the device does not answer (41 R90). -/
theorem driven_readHeader {c : Config} (hc : c.wf = true) {d : Dev} {rest : List Byte}
    (h : d.rx = c.var.opRead :: rest) (hl : rest.length < 3) : driven c.var d = none := by
  have ho := opcodes_distinct hc
  match rest, hl with
  | [], _ => simp [driven, h, ho.1]
  | [_], _ => simp [driven, h, ho.1]
  | [_, _], _ => simp [driven, h, ho.1]

/-- After a read's header a device that took the opcode while idle streams the array (20 R58). -/
theorem driven_readData {c : Config} (hc : c.wf = true) {d : Dev} {a2 a1 a0 : Byte}
    {more : List Byte} (h : d.rx = c.var.opRead :: a2 :: a1 :: a0 :: more)
    (hw : d.ignoring = false) :
    driven c.var d = some (d.array.read ((addrOfBytes a2 a1 a0).toNat + more.length)) := by
  have ho := opcodes_distinct hc
  simp [driven, h, ho.1, hw]

/-- A device that was busy when the opcode came does not answer a read (20 R62). -/
theorem driven_readBusy {c : Config} (hc : c.wf = true) {d : Dev} {rest : List Byte}
    (h : d.rx = c.var.opRead :: rest) (hw : d.ignoring = true) : driven c.var d = none := by
  have ho := opcodes_distinct hc
  simp [driven, h, ho.1, hw]

/-! ### What the device does with a frame -/

/-- All that the write-enable command can do: it may set `WEL` and may draw one free value. -/
theorem wrenEffect_cases (s : State) :
    ∃ b k, wrenEffect s = (s.setSr (withWel s.dev.sr b)).advanceDraws k ∨ wrenEffect s = s := by
  unfold wrenEffect
  split
  · split
    · exact ⟨true, 0, .inr rfl⟩
    · exact ⟨true, 0, .inl rfl⟩
  · exact ⟨true, 0, .inr rfl⟩
  · exact ⟨_, 1, .inl rfl⟩

/-- All that a frame of none of the six commands can do: it may clear `WEL` and may draw one free
value. -/
theorem strayEffect_cases (s : State) :
    ∃ b k, strayEffect s = (s.setSr (withWel s.dev.sr b)).advanceDraws k ∨ strayEffect s = s := by
  unfold strayEffect
  split
  · exact ⟨true, 0, .inr rfl⟩
  · exact ⟨_, 1, .inl rfl⟩

/-- Everything a frame can do at chip-select deassert when the device takes it without a fault:
nothing, the write-enable effect, the stray frame's effect, or the acceptance of an update that touches
only addresses of the array, by a device with `WEL = 1` and `WIP = 0`. -/
theorem deviceActs_cases {s t : State} (h : deviceActs s = .next t) :
    t = s ∨ ((∃ rest, s.dev.rx = s.cfg.var.opWren :: rest) ∧ t = wrenEffect s) ∨
    t = strayEffect s ∨
    (∃ a2 a1 a0 data, s.dev.rx = s.cfg.var.opProgram :: a2 :: a1 :: a0 :: data ∧ data ≠ [] ∧
      acceptsUpdates s.dev = true ∧
      programInArray s.cfg.geo (addrOfBytes a2 a1 a0).toNat data.length = true ∧
      t = accept s (.program (addrOfBytes a2 a1 a0) data)) ∨
    (∃ a2 a1 a0 more, s.dev.rx = s.cfg.var.opErase :: a2 :: a1 :: a0 :: more ∧
      acceptsUpdates s.dev = true ∧ (addrOfBytes a2 a1 a0).toNat < s.cfg.geo.totalSize ∧
      t = accept s (.erase (addrOfBytes a2 a1 a0))) := by
  unfold deviceActs at h
  cases hrx : s.dev.rx with
  | nil => simp_all
  | cons op rest =>
    simp only [hrx] at h
    split at h
    · simp_all
    split at h
    · simp_all
    split at h
    · simp_all
    split at h
    · next hop => exact .inr (.inl ⟨⟨rest, by rw [hop]⟩, by simpa using h.symm⟩)
    split at h
    · next hop =>
      split at h
      · next hacc =>
        split at h
        · next a2 a1 a0 data =>
          split at h
          · exact .inr (.inr (.inl (by simpa using h.symm)))
          split at h
          · next hd hin =>
            subst hop
            exact .inr (.inr (.inr (.inl
              ⟨a2, a1, a0, data, rfl, hd, hacc, hin, by simpa using h.symm⟩)))
          · simp at h
        · exact .inr (.inr (.inl (by simpa using h.symm)))
      · simp_all
    split at h
    · next hop =>
      split at h
      · next hacc =>
        split at h
        · next a2 a1 a0 more =>
          split at h
          · next hlt =>
            subst hop
            exact .inr (.inr (.inr (.inr
              ⟨a2, a1, a0, more, rfl, hacc, hlt, by simpa using h.symm⟩)))
          · simp at h
        · exact .inr (.inr (.inl (by simpa using h.symm)))
      · simp_all
    · exact .inr (.inr (.inl (by simpa using h.symm)))

/-- What no frame changes: everything but `DEV.sr`, `DEV.pending` and the count of free values. -/
theorem deviceActs_frame {s t : State} (h : deviceActs s = .next t) :
    t.cfg = s.cfg ∧ t.ctrl = s.ctrl ∧ t.x = s.x ∧ t.src = s.src ∧ t.dst = s.dst ∧
      t.trace = s.trace ∧ t.capture = s.capture ∧ t.program = s.program ∧
      t.dev.id0 = s.dev.id0 ∧ t.dev.id1 = s.dev.id1 ∧ t.dev.id2 = s.dev.id2 ∧
      t.dev.array = s.dev.array ∧ t.dev.rx = s.dev.rx ∧ t.dev.ignoring = s.dev.ignoring ∧
      t.dev.profile = s.dev.profile ∧
      ∀ k, 2 ≤ k → t.dev.sr.getLsbD k = s.dev.sr.getLsbD k := by
  rcases deviceActs_cases h with rfl | ⟨-, rfl⟩ | rfl | ⟨a2, a1, a0, d, -, -, -, -, rfl⟩ |
    ⟨a2, a1, a0, more, -, -, -, rfl⟩
  · simp
  · obtain ⟨b, k, h | h⟩ := wrenEffect_cases s <;> rw [h]
    · exact ⟨rfl, rfl, rfl, rfl, rfl, rfl, rfl, rfl, rfl, rfl, rfl, rfl, rfl, rfl, rfl,
        fun j hj => getLsbD_withWel _ _ _ (by omega)⟩
    · simp
  · obtain ⟨b, k, h | h⟩ := strayEffect_cases s <;> rw [h]
    · exact ⟨rfl, rfl, rfl, rfl, rfl, rfl, rfl, rfl, rfl, rfl, rfl, rfl, rfl, rfl, rfl,
        fun j hj => getLsbD_withWel _ _ _ (by omega)⟩
    · simp
  · exact ⟨rfl, rfl, rfl, rfl, rfl, rfl, rfl, rfl, rfl, rfl, rfl, rfl, rfl, rfl, rfl,
      fun j hj => getLsbD_withWip _ _ _ (by omega)⟩
  · exact ⟨rfl, rfl, rfl, rfl, rfl, rfl, rfl, rfl, rfl, rfl, rfl, rfl, rfl, rfl, rfl,
      fun j hj => getLsbD_withWip _ _ _ (by omega)⟩

/-- The device stays consistent: `WIP` shows exactly whether an update is pending. -/
theorem deviceActs_consistent {s t : State} (h : deviceActs s = .next t)
    (hs : s.dev.pending.isSome = wip s.dev.sr) : t.dev.pending.isSome = wip t.dev.sr := by
  rcases deviceActs_cases h with rfl | ⟨-, rfl⟩ | rfl | ⟨a2, a1, a0, d, -, -, -, -, rfl⟩ |
    ⟨a2, a1, a0, more, -, -, -, rfl⟩
  · exact hs
  · obtain ⟨b, k, h | h⟩ := wrenEffect_cases s <;> rw [h] <;> simp [hs]
  · obtain ⟨b, k, h | h⟩ := strayEffect_cases s <;> rw [h] <;> simp [hs]
  · simp [accept]
  · simp [accept]

/-! ### Programming and the engine -/

/-- What programming leaves: each programmed byte through `PROG`, every other byte as it was
(20 R59). -/
theorem read_programBytes (r : ProgRule) (ds : List Byte) : ∀ (m : Memory) (a c : Nat),
    (programBytes r m a ds).read c =
      if a ≤ c ∧ c < a + ds.length then progByte r (m.read c) (ds.getD (c - a) 0)
      else m.read c := by
  induction ds with
  | nil =>
    intro m a c
    have : ¬ (a ≤ c ∧ c < a) := by omega
    simp [programBytes, this]
  | cons d ds ih =>
    intro m a c
    rw [programBytes, ih, Memory.read_write]
    by_cases h1 : a + 1 ≤ c ∧ c < a + 1 + ds.length
    · have h2 : a ≤ c ∧ c < a + (d :: ds).length := by simp only [List.length_cons]; omega
      rw [if_pos h1, if_pos h2, if_neg (by omega), show c - a = (c - (a + 1)) + 1 from by omega]
      simp
    · rw [if_neg h1]
      by_cases h3 : c = a
      · subst h3; simp
      · have h2 : ¬ (a ≤ c ∧ c < a + (d :: ds).length) := by simp only [List.length_cons]; omega
        rw [if_neg h3, if_neg h2]

theorem wf_programBytes (r : ProgRule) (ds : List Byte) : ∀ (m : Memory) (a : Nat), m.wf →
    (programBytes r m a ds).wf := by
  induction ds with
  | nil => exact fun m a h => h
  | cons d ds ih => exact fun m a h => ih _ _ (Memory.wf_write m a _ h)

theorem below_programBytes (r : ProgRule) (ds : List Byte) : ∀ (m : Memory) (a k : Nat),
    m.below k → a + ds.length ≤ k → (programBytes r m a ds).below k := by
  induction ds with
  | nil => exact fun m a k h _ => h
  | cons d ds ih =>
    intro m a k h hk
    simp only [List.length_cons] at hk
    exact ih _ _ _ (Memory.below_write m a _ k h (by omega)) (by omega)

/-- Programming an erased byte leaves the byte programmed, whatever the program function (20 R59). -/
theorem progByte_erased (r : ProgRule) (new : Byte) : progByte r 0xFF new = new := by
  cases r
  · simp [progByte]
    exact BitVec.allOnes_and
  · rfl
  · simp [progByte]

theorem wf_openPage (g : Geometry) (m : Memory) (k a : Nat) (h : m.wf) :
    (openPage g m k a).wf := Memory.wf_writeBytes _ _ _ h

theorem below_openPage (g : Geometry) (m : Memory) (k a : Nat) (h : m.below g.totalSize)
    (ha : a < g.totalSize) : (openPage g m k a).below g.totalSize := by
  refine Memory.below_writeBytes _ _ _ _ h ?_
  have : a - a % g.pageSize ≤ a := Nat.sub_le _ _
  simp only [List.length_map, List.length_range]
  omega

theorem wf_updatedArray (c : Config) (m : Memory) (k : Nat) (u : ArrayUpdate) (h : m.wf) :
    (updatedArray c m k u).wf := by
  cases u with
  | program a d =>
    simp only [updatedArray]
    split
    · exact wf_programBytes _ _ _ _ h
    · exact wf_openPage _ _ _ _ h
  | erase a => exact Memory.wf_clear _ _ _ h

/-! ### The device on the bus -/

/-- The device with these bytes received in this transaction. -/
def Dev.onBus (d : Dev) (r : List Byte) (g : Bool) : Dev := { d with rx := r, ignoring := g }

@[simp] theorem Dev.onBus_sr (d : Dev) (r : List Byte) (g : Bool) : (d.onBus r g).sr = d.sr := rfl
@[simp] theorem Dev.onBus_id0 (d : Dev) (r : List Byte) (g : Bool) :
    (d.onBus r g).id0 = d.id0 := rfl
@[simp] theorem Dev.onBus_id1 (d : Dev) (r : List Byte) (g : Bool) :
    (d.onBus r g).id1 = d.id1 := rfl
@[simp] theorem Dev.onBus_id2 (d : Dev) (r : List Byte) (g : Bool) :
    (d.onBus r g).id2 = d.id2 := rfl
@[simp] theorem Dev.onBus_array (d : Dev) (r : List Byte) (g : Bool) :
    (d.onBus r g).array = d.array := rfl
@[simp] theorem Dev.onBus_pending (d : Dev) (r : List Byte) (g : Bool) :
    (d.onBus r g).pending = d.pending := rfl
@[simp] theorem Dev.onBus_rx (d : Dev) (r : List Byte) (g : Bool) : (d.onBus r g).rx = r := rfl
@[simp] theorem Dev.onBus_ignoring (d : Dev) (r : List Byte) (g : Bool) :
    (d.onBus r g).ignoring = g := rfl
@[simp] theorem Dev.onBus_profile (d : Dev) (r : List Byte) (g : Bool) :
    (d.onBus r g).profile = d.profile := rfl
@[simp] theorem Dev.onBus_onBus (d : Dev) (r r' : List Byte) (g g' : Bool) :
    (d.onBus r g).onBus r' g' = d.onBus r' g' := rfl
theorem Dev.silence_eq (d : Dev) : d.silence = d.onBus [] false := rfl
@[simp] theorem Dev.silence_onBus (d : Dev) (r : List Byte) (g : Bool) :
    (d.onBus r g).silence = d.onBus [] false := rfl

theorem Dev.hear_eq (d : Dev) (tx : Byte) :
    d.hear tx = d.onBus (d.rx ++ [tx]) (if d.rx = [] then wip d.sr else d.ignoring) := rfl

/-! ### The engine -/

theorem Dev.tick_of_none {d : Dev} (c : Config) (h : d.pending = none) : d.tick c = d := by
  simp [Dev.tick, h]

theorem Dev.ticks_of_none {d : Dev} (c : Config) (h : d.pending = none) : ∀ n, d.ticks c n = d
  | 0 => rfl
  | n + 1 => by rw [Dev.ticks, Dev.tick_of_none c h]; exact Dev.ticks_of_none c h n

theorem Dev.ticks_add (c : Config) (m : Nat) : ∀ (d : Dev) (n : Nat),
    (d.ticks c n).ticks c m = d.ticks c (n + m)
  | _, 0 => by simp [Dev.ticks]
  | d, n + 1 => by
    rw [Dev.ticks, Dev.ticks_add c m _ n, show n + 1 + m = (n + m) + 1 by omega, Dev.ticks]

theorem Dev.tick_eq_ticks (c : Config) (d : Dev) : d.tick c = d.ticks c 1 := rfl

/-- What the engine does not look at and does not touch: the bytes on the bus. -/
@[simp] theorem Dev.tick_onBus (c : Config) (d : Dev) (r : List Byte) (g : Bool) :
    (d.onBus r g).tick c = (d.tick c).onBus r g := by
  cases hp : d.pending with
  | none => simp [Dev.tick, hp]
  | some p =>
    by_cases h : p.delay = 0
    · simp [Dev.tick, hp, h, Dev.complete, Dev.onBus, latchAfter]
    · simp [Dev.tick, hp, h, Dev.onBus]

@[simp] theorem Dev.ticks_onBus (c : Config) (r : List Byte) (g : Bool) : ∀ (n : Nat) (d : Dev),
    (d.onBus r g).ticks c n = (d.ticks c n).onBus r g
  | 0, _ => rfl
  | n + 1, d => by rw [Dev.ticks, Dev.tick_onBus, Dev.ticks_onBus c r g n]; rfl

/-- What the engine never changes. -/
theorem Dev.tick_frame (c : Config) (d : Dev) :
    (d.tick c).id0 = d.id0 ∧ (d.tick c).id1 = d.id1 ∧ (d.tick c).id2 = d.id2 ∧
      (d.tick c).rx = d.rx ∧ (d.tick c).ignoring = d.ignoring ∧
      (d.tick c).profile = d.profile ∧
      ∀ k, 2 ≤ k → (d.tick c).sr.getLsbD k = d.sr.getLsbD k := by
  unfold Dev.tick
  split
  · simp
  · split
    · refine ⟨rfl, rfl, rfl, rfl, rfl, rfl, fun k hk => ?_⟩
      simp only [Dev.complete]
      rw [getLsbD_withWip _ _ _ (by omega), getLsbD_withWel _ _ _ (by omega)]
    · simp

theorem Dev.ticks_frame (c : Config) : ∀ (n : Nat) (d : Dev),
    (d.ticks c n).id0 = d.id0 ∧ (d.ticks c n).id1 = d.id1 ∧ (d.ticks c n).id2 = d.id2 ∧
      (d.ticks c n).rx = d.rx ∧ (d.ticks c n).ignoring = d.ignoring ∧
      (d.ticks c n).profile = d.profile ∧
      ∀ k, 2 ≤ k → (d.ticks c n).sr.getLsbD k = d.sr.getLsbD k
  | 0, d => by simp [Dev.ticks]
  | n + 1, d => by
    obtain ⟨h0, h1, h2, h3, h4, h5, h6⟩ := Dev.tick_frame c d
    obtain ⟨k0, k1, k2, k3, k4, k5, k6⟩ := Dev.ticks_frame c n (d.tick c)
    exact ⟨k0.trans h0, k1.trans h1, k2.trans h2, k3.trans h3, k4.trans h4, k5.trans h5,
      fun k hk => (k6 k hk).trans (h6 k hk)⟩

@[simp] theorem Dev.ticks_id0 (c : Config) (n : Nat) (d : Dev) : (d.ticks c n).id0 = d.id0 :=
  (Dev.ticks_frame c n d).1
@[simp] theorem Dev.ticks_id1 (c : Config) (n : Nat) (d : Dev) : (d.ticks c n).id1 = d.id1 :=
  (Dev.ticks_frame c n d).2.1
@[simp] theorem Dev.ticks_id2 (c : Config) (n : Nat) (d : Dev) : (d.ticks c n).id2 = d.id2 :=
  (Dev.ticks_frame c n d).2.2.1
@[simp] theorem Dev.ticks_rx (c : Config) (n : Nat) (d : Dev) : (d.ticks c n).rx = d.rx :=
  (Dev.ticks_frame c n d).2.2.2.1
@[simp] theorem Dev.ticks_ignoring (c : Config) (n : Nat) (d : Dev) :
    (d.ticks c n).ignoring = d.ignoring := (Dev.ticks_frame c n d).2.2.2.2.1
@[simp] theorem Dev.ticks_profile (c : Config) (n : Nat) (d : Dev) :
    (d.ticks c n).profile = d.profile := (Dev.ticks_frame c n d).2.2.2.2.2.1

/-- The engine never makes a device busy (20 R61). -/
theorem Dev.tick_wip (c : Config) {d : Dev} (h : wip d.sr = false) : wip (d.tick c).sr = false := by
  unfold Dev.tick
  split
  · exact h
  · split <;> simp [Dev.complete, h]

theorem Dev.ticks_wip (c : Config) : ∀ (n : Nat) {d : Dev}, wip d.sr = false →
    wip (d.ticks c n).sr = false
  | 0, _, h => h
  | n + 1, _, h => Dev.ticks_wip c n (Dev.tick_wip c h)

/-- With nothing pending the engine has no more to do. -/
theorem Dev.ticks_settled {c : Config} {d : Dev} {m n : Nat} (h : (d.ticks c m).pending = none)
    (hn : m ≤ n) : d.ticks c n = d.ticks c m := by
  obtain ⟨k, rfl⟩ := Nat.exists_eq_add_of_le hn
  rw [← Dev.ticks_add, Dev.ticks_of_none c h]

/-- The engine keeps `WIP` in step with what is pending (20 R61). -/
theorem Dev.tick_consistent (c : Config) {d : Dev} (h : d.pending.isSome = wip d.sr) :
    (d.tick c).pending.isSome = wip (d.tick c).sr := by
  unfold Dev.tick
  split
  · exact h
  · next p hp => split <;> simp_all [Dev.complete]

theorem Dev.ticks_consistent (c : Config) : ∀ (n : Nat) {d : Dev}, d.pending.isSome = wip d.sr →
    (d.ticks c n).pending.isSome = wip (d.ticks c n).sr
  | 0, _, h => h
  | n + 1, _, h => Dev.ticks_consistent c n (Dev.tick_consistent c h)

/-- In a consistent device `WIP = 0` means that nothing is pending. -/
theorem Dev.ticks_idle {c : Config} {n : Nat} {d : Dev} (h : d.pending.isSome = wip d.sr)
    (hw : wip (d.ticks c n).sr = false) : (d.ticks c n).pending = none := by
  have := Dev.ticks_consistent c n h
  rw [hw] at this
  simpa using this

/-- What DEV_ENGINE leaves of a consistent device: `WIP` shows whether an update is pending, the array
is canonical and holds only addresses that exist, and so does the update still pending (20 R61). -/
structure Dev.Sound (c : Config) (d : Dev) : Prop where
  consistent : d.pending.isSome = wip d.sr
  wf : d.array.wf
  below : d.array.below c.geo.totalSize
  exists_ : ∀ p, d.pending = some p → match p.update with
    | .program a data => programInArray c.geo a.toNat data.length = true
    | .erase a => a.toNat < c.geo.totalSize

theorem below_updatedArray (c : Config) (m : Memory) (k : Nat) (u : ArrayUpdate)
    (h : m.below c.geo.totalSize) (hu : match u with
      | .program a data => programInArray c.geo a.toNat data.length = true
      | .erase a => a.toNat < c.geo.totalSize) :
    (updatedArray c m k u).below c.geo.totalSize := by
  cases u with
  | program a d =>
    simp only [programInArray] at hu
    simp only [updatedArray]
    split at hu
    · next hp =>
      rw [if_pos hp]
      exact below_programBytes _ _ _ _ _ h (by simpa using hu)
    · next hp =>
      rw [if_neg hp]
      exact below_openPage _ _ _ _ h (by simpa using hu)
  | erase a => exact Memory.below_clear _ _ _ _ h

theorem Dev.Sound.tick {c : Config} {d : Dev} (h : d.Sound c) : (d.tick c).Sound c := by
  unfold Dev.tick
  split
  · exact h
  · next p hp =>
    split
    · exact ⟨by simp [Dev.complete], wf_updatedArray _ _ _ _ h.wf,
        below_updatedArray _ _ _ _ h.below (h.exists_ p hp), by simp [Dev.complete]⟩
    · refine ⟨?_, h.wf, h.below, ?_⟩
      · simpa [hp] using h.consistent
      · intro q hq
        simp only [Option.some.injEq] at hq
        subst hq
        exact h.exists_ p hp

theorem Dev.Sound.ticks {c : Config} : ∀ (n : Nat) {d : Dev}, d.Sound c → (d.ticks c n).Sound c
  | 0, _, h => h
  | n + 1, _, h => Dev.Sound.ticks n h.tick

/-- The engine's completion clears `WIP` and the pending update together (20 R61). -/
theorem Dev.complete_consistent (c : Config) (d : Dev) (p : Pending) :
    (d.complete c p).pending = none ∧ wip (d.complete c p).sr = false := by
  simp [Dev.complete]

/-- The engine in closed form: its delay runs down, and then the update has completed (20 R61). -/
theorem Dev.ticks_of_some (c : Config) : ∀ (n : Nat) {d : Dev} {p : Pending}, d.pending = some p →
    d.ticks c n =
      if n ≤ p.delay then { d with pending := some { p with delay := p.delay - n } }
      else d.complete c p
  | 0, d, p, h => by simp [Dev.ticks, ← h]
  | n + 1, d, p, h => by
    by_cases hd : p.delay = 0
    · have ht : d.tick c = d.complete c p := by simp [Dev.tick, h, hd]
      rw [Dev.ticks, ht, Dev.ticks_of_none c rfl, if_neg (by omega)]
    · have ht : d.tick c = { d with pending := some { p with delay := p.delay - 1 } } := by
        simp [Dev.tick, h, hd]
      rw [Dev.ticks, ht, Dev.ticks_of_some c n rfl]
      by_cases hn : n + 1 ≤ p.delay
      · rw [if_pos hn, if_pos (show n ≤ p.delay - 1 by omega)]
        simp only [Nat.sub_sub, Nat.add_comm 1 n]
      · rw [if_neg hn, if_neg (show ¬ n ≤ p.delay - 1 by omega)]
        rfl

/-- The array after any number of moments: as it was, or the pending update has taken effect. -/
theorem Dev.ticks_array (c : Config) (n : Nat) (d : Dev) :
    (d.ticks c n).array = d.array ∨ ∃ p, d.pending = some p ∧
      (d.ticks c n).array = updatedArray c d.array (p.draw + 1) p.update := by
  cases hp : d.pending with
  | none => rw [Dev.ticks_of_none c hp]; exact .inl rfl
  | some p =>
    rw [Dev.ticks_of_some c n hp]
    split
    · exact .inl rfl
    · exact .inr ⟨p, rfl, rfl⟩

/-- An update that is no longer pending has taken effect in the array. -/
theorem Dev.ticks_completed {c : Config} {n : Nat} {d : Dev} {p : Pending}
    (hp : d.pending = some p) (hn : (d.ticks c n).pending = none) :
    (d.ticks c n).array = updatedArray c d.array (p.draw + 1) p.update := by
  rw [Dev.ticks_of_some c n hp] at hn ⊢
  split at hn
  · simp at hn
  · next h => rw [if_neg h]; rfl

/-- The engine does not look at the status byte but to keep its other bits: a device with another
`WEL` is moved alike. -/
theorem Dev.ticks_withSr (c : Config) (n : Nat) (d : Dev) (sr : Byte) (hw : wip sr = wip d.sr)
    (hb : ∀ k, 2 ≤ k → sr.getLsbD k = d.sr.getLsbD k) :
    ∃ sr', { d with sr := sr }.ticks c n = { d.ticks c n with sr := sr' } ∧
      wip sr' = wip (d.ticks c n).sr ∧
      ∀ k, 2 ≤ k → sr'.getLsbD k = (d.ticks c n).sr.getLsbD k := by
  rcases Option.eq_none_or_eq_some d.pending with hp | ⟨p, hp⟩
  · rw [Dev.ticks_of_none c hp, Dev.ticks_of_none c (d := { d with sr := sr }) hp]
    exact ⟨sr, rfl, hw, hb⟩
  · rw [Dev.ticks_of_some c n hp, Dev.ticks_of_some c n (d := { d with sr := sr }) hp]
    split
    · exact ⟨sr, rfl, hw, hb⟩
    · refine ⟨_, rfl, by simp [Dev.complete], fun k hk => ?_⟩
      simp only [Dev.complete]
      rw [getLsbD_withWip _ _ _ (by omega), getLsbD_withWel _ _ _ (by omega),
        getLsbD_withWip _ _ _ (by omega), getLsbD_withWel _ _ _ (by omega)]
      exact hb k hk

/-- The device after a run of byte times that began inside a transaction. -/
theorem Dev.hearAll_onBus (c : Config) : ∀ (txs : List Byte) (d : Dev) (r : List Byte) (g : Bool),
    r ≠ [] → (d.onBus r g).hearAll c txs = (d.ticks c txs.length).onBus (r ++ txs) g
  | [], d, r, g, _ => by simp [Dev.hearAll, Dev.ticks]
  | tx :: txs, d, r, g, h => by
    rw [Dev.hearAll, Dev.tick_onBus, Dev.hear_eq]
    simp only [Dev.onBus_rx, h, if_false, Dev.onBus_ignoring, Dev.onBus_onBus]
    rw [Dev.hearAll_onBus c txs _ _ _ (by simp)]
    simp [Dev.ticks]

/-- The device after a run of byte times that began a transaction: whether it answers was settled in
the first (20 R54, R62). -/
theorem Dev.hearAll_first (c : Config) (op : Byte) (txs : List Byte) (d : Dev) (g : Bool) :
    (d.onBus [] g).hearAll c (op :: txs) =
      (d.ticks c (txs.length + 1)).onBus (op :: txs) (wip (d.tick c).sr) := by
  rw [Dev.hearAll, Dev.tick_onBus, Dev.hear_eq]
  simp only [Dev.onBus_rx, if_true, Dev.onBus_sr, Dev.onBus_onBus, List.nil_append]
  rw [Dev.hearAll_onBus c txs _ _ _ (by simp)]
  simp [Dev.ticks]

theorem Dev.hearAll_append (c : Config) : ∀ (xs ys : List Byte) (d : Dev),
    d.hearAll c (xs ++ ys) = (d.hearAll c xs).hearAll c ys
  | [], _, _ => rfl
  | x :: xs, ys, d => by
    simp only [List.cons_append, Dev.hearAll]; exact Dev.hearAll_append c xs ys _

/-- All but the bytes on the bus is the engine's doing. -/
theorem Dev.hearAll_eq (c : Config) : ∀ (txs : List Byte) (d : Dev),
    ∃ r g, d.hearAll c txs = (d.ticks c txs.length).onBus r g ∧ r = d.rx ++ txs
  | [], d => ⟨d.rx, d.ignoring, rfl, by simp⟩
  | tx :: txs, d => by
    obtain ⟨r, g, h, hr⟩ := Dev.hearAll_eq c txs ((d.tick c).hear tx)
    refine ⟨r, g, ?_, ?_⟩
    · rw [Dev.hearAll, h, Dev.hear_eq, Dev.ticks_onBus]; rfl
    · rw [hr, Dev.hear_eq, Dev.onBus_rx, (Dev.tick_frame c d).2.2.2.1]; simp

theorem engineTicks_zero (s : State) : engineTicks 0 s = s := rfl

theorem engineTicks_of_none {s : State} (h : s.dev.pending = none) (n : Nat) :
    engineTicks n s = s := by
  rw [engineTicks, Dev.ticks_of_none _ h]; rfl

@[simp] theorem engineTicks_dev (n : Nat) (s : State) :
    (engineTicks n s).dev = s.dev.ticks s.cfg n := rfl
@[simp] theorem engineTick_dev (s : State) : (engineTick s).dev = s.dev.tick s.cfg := rfl
@[simp] theorem engineTick_cfg (s : State) : (engineTick s).cfg = s.cfg := rfl
@[simp] theorem engineTick_ctrl (s : State) : (engineTick s).ctrl = s.ctrl := rfl
@[simp] theorem engineTick_x (s : State) : (engineTick s).x = s.x := rfl
@[simp] theorem engineTick_src (s : State) : (engineTick s).src = s.src := rfl
@[simp] theorem engineTick_dst (s : State) : (engineTick s).dst = s.dst := rfl
@[simp] theorem engineTick_trace (s : State) : (engineTick s).trace = s.trace := rfl
@[simp] theorem engineTick_capture (s : State) : (engineTick s).capture = s.capture := rfl
@[simp] theorem engineTick_draws (s : State) : (engineTick s).draws = s.draws := rfl
@[simp] theorem engineTick_program (s : State) : (engineTick s).program = s.program := rfl

end Sys2Proof.Machine
end

