-- ==== Sys2Proof/Laws/Transport.lean ====
section
/-! SUPPORT. The laws of the transactor: what a run of byte times leaves, what it samples where the
device is silent and where it streams a read, and everything an exchange and the two chip-select
primitives can do. -/

namespace Sys2Proof.Machine

/-- The free values drawn from a count on. -/
def freeBytes (d n : Nat) : List Byte :=
  (List.range n).map fun i => Config.freeByte (d + i)

@[simp] theorem length_freeBytes (d n : Nat) : (freeBytes d n).length = n := by simp [freeBytes]

theorem freeBytes_succ (d n : Nat) :
    freeBytes d (n + 1) = Config.freeByte d :: freeBytes (d + 1) n := by
  simp only [freeBytes, List.range_succ_eq_map, List.map_cons, List.map_map, Nat.add_zero]
  congr 1
  apply List.map_congr_left
  intro i _
  simp only [Function.comp_apply, Nat.succ_eq_add_one]
  congr 1
  omega

/-- The state after the byte times `tx/rx`, of which `k` drew a free value. -/
def shifted (s : State) (tx rx : List Byte) (k : Nat) : State :=
  { s with dev := s.dev.hearAll s.cfg tx
           trace := s.trace ++ List.zipWith WireEvent.byte tx rx
           draws := s.draws + k }

theorem shiftByte_eq (tx : Byte) (s : State) :
    shiftByte tx (engineTick s) =
      shifted s [tx] [sampled (engineTick s)] (sampleDraws (engineTick s)) := rfl

theorem shifted_shifted (s : State) (t1 t2 r1 r2 : List Byte) (k1 k2 : Nat)
    (h : r1.length = t1.length) :
    shifted (shifted s t1 r1 k1) t2 r2 k2 = shifted s (t1 ++ t2) (r1 ++ r2) (k1 + k2) := by
  simp [shifted, List.zipWith_append h.symm, Nat.add_assoc, Dev.hearAll_append]

@[simp] theorem shifted_cfg (s : State) (tx rx : List Byte) (k : Nat) :
    (shifted s tx rx k).cfg = s.cfg := rfl
@[simp] theorem shifted_ctrl (s : State) (tx rx : List Byte) (k : Nat) :
    (shifted s tx rx k).ctrl = s.ctrl := rfl
@[simp] theorem shifted_dev (s : State) (tx rx : List Byte) (k : Nat) :
    (shifted s tx rx k).dev = s.dev.hearAll s.cfg tx := rfl
@[simp] theorem shifted_dst (s : State) (tx rx : List Byte) (k : Nat) :
    (shifted s tx rx k).dst = s.dst := rfl
@[simp] theorem shifted_draws (s : State) (tx rx : List Byte) (k : Nat) :
    (shifted s tx rx k).draws = s.draws + k := rfl

@[simp] theorem length_shiftBytes (txs : List Byte) : ∀ s : State,
    (shiftBytes txs s).2.length = txs.length := by
  induction txs with
  | nil => intro s; rfl
  | cons tx txs ih => intro s; simp [shiftBytes, ih]

/-- Everything a run of byte times does. -/
theorem shiftBytes_eq (txs : List Byte) : ∀ s : State,
    ∃ k, (shiftBytes txs s).1 = shifted s txs (shiftBytes txs s).2 k := by
  induction txs with
  | nil => intro s; exact ⟨0, by simp [shiftBytes, shifted, Dev.hearAll]⟩
  | cons tx txs ih =>
    intro s
    obtain ⟨k, hk⟩ := ih (shiftByte tx (engineTick s))
    refine ⟨sampleDraws (engineTick s) + k, ?_⟩
    simp only [shiftBytes]
    rw [hk, shiftByte_eq, shifted_shifted _ _ _ _ _ _ _ (by simp)]
    simp

/-- The byte sampled in a byte time is what the device drives then, where it drives one
(41 R89). -/
theorem shiftBytes_driven (txs : List Byte) : ∀ (s : State) (k : Nat) (b : Byte), k < txs.length →
    driven s.cfg.var ((s.dev.hearAll s.cfg (txs.take k)).tick s.cfg) = some b →
    (shiftBytes txs s).2.getD k 0 = b := by
  induction txs with
  | nil => intro s k b hk; simp at hk
  | cons tx txs ih =>
    intro s k b hk h
    cases k with
    | zero => simpa [shiftBytes, sampled, Dev.hearAll] using congrArg (Option.getD · _) h
    | succ k =>
      have := ih (shiftByte tx (engineTick s)) k b (by simpa using hk)
        (by rw [shiftByte_eq]; simpa [Dev.hearAll] using h)
      simpa [shiftBytes] using this

theorem shiftBytes_append (xs : List Byte) : ∀ (s : State) (ys : List Byte),
    shiftBytes (xs ++ ys) s =
      ((shiftBytes ys (shiftBytes xs s).1).1,
        (shiftBytes xs s).2 ++ (shiftBytes ys (shiftBytes xs s).1).2) := by
  induction xs with
  | nil => intro s ys; rfl
  | cons x xs ih => intro s ys; simp [shiftBytes, ih]

/-- The byte times do not look at the phase. -/
theorem shiftBytes_setPhase (txs : List Byte) : ∀ (s : State) (p : Phase),
    shiftBytes txs (s.setPhase p) =
      ((shiftBytes txs s).1.setPhase p, (shiftBytes txs s).2) := by
  induction txs with
  | nil => intro s p; rfl
  | cons tx txs ih =>
    intro s p
    simp only [shiftBytes]
    rw [show shiftByte tx (engineTick (s.setPhase p)) =
      (shiftByte tx (engineTick s)).setPhase p from rfl, ih]
    rfl

/-- Byte times in which the device is silent throughout sample free values, one each (41 R90). -/
theorem shiftBytes_silent (txs : List Byte) : ∀ s : State,
    (∀ k < txs.length,
      driven s.cfg.var ((s.dev.hearAll s.cfg (txs.take k)).tick s.cfg) = none) →
    shiftBytes txs s =
      (shifted s txs (freeBytes s.draws txs.length) txs.length, freeBytes s.draws txs.length) := by
  induction txs with
  | nil => intro s _; simp [shiftBytes, shifted, freeBytes, Dev.hearAll]
  | cons tx txs ih =>
    intro s h
    have h0 : driven s.cfg.var (s.dev.tick s.cfg) = none := by
      simpa [Dev.hearAll] using h 0 (by simp)
    have hs : shiftByte tx (engineTick s) = shifted s [tx] [Config.freeByte s.draws] 1 := by
      rw [shiftByte_eq]; simp [sampled, sampleDraws, h0]
    have hrec := ih (shiftByte tx (engineTick s)) (by
      intro k hk
      have := h (k + 1) (by simpa using hk)
      rw [hs]
      simpa [Dev.hearAll] using this)
    simp only [shiftBytes]
    rw [hrec, hs, shifted_shifted _ _ _ _ _ _ _ (by simp)]
    simp [sampled, h0, freeBytes_succ, Nat.add_comm 1 txs.length]

theorem readBytes_succ (m : Memory) (a n : Nat) :
    m.readBytes a (n + 1) = m.read a :: m.readBytes (a + 1) n := by
  rw [Nat.add_comm n 1, Memory.readBytes_append]
  simp [Memory.readBytes]

/-- Byte times after a read's header sample the array, byte after byte, when nothing is pending in
the device (20 R58). -/
theorem shiftBytes_readData (txs : List Byte) : ∀ (s : State) (a2 a1 a0 : Byte)
    (more : List Byte), s.cfg.wf = true →
    s.dev.rx = s.cfg.var.opRead :: a2 :: a1 :: a0 :: more → s.dev.ignoring = false →
    s.dev.pending = none →
    shiftBytes txs s =
      (shifted s txs (s.dev.array.readBytes ((addrOfBytes a2 a1 a0).toNat + more.length)
          txs.length) 0,
        s.dev.array.readBytes ((addrOfBytes a2 a1 a0).toNat + more.length) txs.length) := by
  induction txs with
  | nil =>
    intro s _ _ _ _ _ _ _ _
    simp [shiftBytes, shifted, Memory.readBytes, Dev.hearAll]
  | cons tx txs ih =>
    intro s a2 a1 a0 more hc hr hi hp
    have ht : s.dev.tick s.cfg = s.dev := Dev.tick_of_none _ hp
    have h0 := driven_readData hc hr hi
    have hs : shiftByte tx (engineTick s) = shifted s [tx]
        [s.dev.array.read ((addrOfBytes a2 a1 a0).toNat + more.length)] 0 := by
      rw [shiftByte_eq]; simp [sampled, sampleDraws, ht, h0]
    have hd : (shifted s [tx] [s.dev.array.read ((addrOfBytes a2 a1 a0).toNat + more.length)]
        0).dev = s.dev.onBus (s.dev.rx ++ [tx]) s.dev.ignoring := by
      simp [Dev.hearAll, ht, Dev.hear_eq, hr]
    have hrec := ih (shiftByte tx (engineTick s)) a2 a1 a0 (more ++ [tx]) (by rw [hs]; exact hc)
      (by rw [hs, hd]; simp [hr]) (by rw [hs, hd]; exact hi) (by rw [hs, hd]; exact hp)
    simp only [shiftBytes]
    rw [hrec, hs, hd, shifted_shifted _ _ _ _ _ _ _ (by simp)]
    simp [sampled, ht, h0, readBytes_succ, Nat.add_assoc]

/-! ### The primitives -/

theorem txBytes_length (c : Config) (w : List Byte) (n : Nat) :
    (txBytes c w n).length = max w.length n := by
  simp [txBytes]; omega

theorem txBytes_zero (c : Config) (w : List Byte) : txBytes c w 0 = w := by simp [txBytes]

/-- The phase after an exchange: changed when there were filler bytes. -/
def replied (p : Phase) (w : List Byte) (n : Nat) (s : State) : State :=
  if n ≤ w.length then s else s.setPhase p

/-- The byte times of an exchange are those of its bytes in one run, but for the phase. -/
theorem shiftExchange_eq (p : Phase) (w : List Byte) (n : Nat) (s : State) :
    shiftExchange p w n s =
      (replied p w n (shiftBytes (txBytes s.cfg w n) s).1, (shiftBytes (txBytes s.cfg w n) s).2) := by
  rw [txBytes, shiftBytes_append]
  unfold shiftExchange replied
  by_cases h : n ≤ w.length
  · simp [h]
  · simp [h, shiftBytes_setPhase]

/-- The whole effect of CS_ASSERT. -/
theorem csAssert_eq {s : State} (hcs : s.ctrl.cs = .deasserted) (hx : s.ctrl.xferActive = false) :
    csAssert s = .next
      { s with ctrl := { s.ctrl with cs := .asserted, phase := .command }
               dev := (s.dev.tick s.cfg).silence
               trace := s.trace ++ [.csDown] } := by
  unfold csAssert
  rw [if_pos ⟨hcs, hx⟩]
  rfl

theorem csAssert_eq_next {s t : State} (h : csAssert s = .next t) :
    s.ctrl.cs = .deasserted ∧ s.ctrl.xferActive = false ∧
      t = { s with ctrl := { s.ctrl with cs := .asserted, phase := .command }
                   dev := (s.dev.tick s.cfg).silence
                   trace := s.trace ++ [.csDown] } := by
  by_cases hp : s.ctrl.cs = .deasserted ∧ s.ctrl.xferActive = false
  · rw [csAssert_eq hp.1 hp.2] at h
    simp only [Host.Outcome.next.injEq] at h
    exact ⟨hp.1, hp.2, h.symm⟩
  · simp [csAssert, hp] at h

theorem setXferActive_self {s : State} (hx : s.ctrl.xferActive = false) :
    (s.setXferActive true).setXferActive false = s := by
  obtain ⟨cfg, ctrl, x, src, dst, dev, trace, capture, draws, program⟩ := s
  obtain ⟨i, sp, cs, ph, off, att, xa⟩ := ctrl
  have hxa : xa = false := hx
  subst hxa
  rfl

/-- The state after the byte times of an exchange that sampled `rs`. -/
def exchanged (p : Phase) (w : List Byte) (n : Nat) (s : State) (rs : List Byte) (k : Nat) :
    State :=
  (replied p w n (shifted s (txBytes s.cfg w n) rs k)).setCapture (rs.take n)

@[simp] theorem exchanged_cfg (p : Phase) (w : List Byte) (n : Nat) (s : State) (rs : List Byte)
    (k : Nat) : (exchanged p w n s rs k).cfg = s.cfg := by
  unfold exchanged replied; split <;> rfl
@[simp] theorem exchanged_dev (p : Phase) (w : List Byte) (n : Nat) (s : State) (rs : List Byte)
    (k : Nat) : (exchanged p w n s rs k).dev = s.dev.hearAll s.cfg (txBytes s.cfg w n) := by
  unfold exchanged replied; split <;> rfl

/-- In one phase an exchange leaves the phase. -/
theorem exchanged_self (w : List Byte) (n : Nat) (s : State) (rs : List Byte) (k : Nat) :
    exchanged s.ctrl.phase w n s rs k =
      { shifted s (txBytes s.cfg w n) rs k with capture := rs.take n } := by
  unfold exchanged replied
  split <;> rfl

/-- An exchange, once its byte times are known: what they leave, or the fault of a read that has gone
past the end of the array. -/
theorem exchangeIn_of_shift {p : Phase} {w : List Byte} {n : Nat} {s : State} {rs : List Byte}
    {k : Nat} (hcs : s.ctrl.cs = .asserted) (hx : s.ctrl.xferActive = false)
    (hs : shiftBytes (txBytes s.cfg w n) (s.setXferActive true) =
      (shifted (s.setXferActive true) (txBytes s.cfg w n) rs k, rs)) :
    exchangeIn p w n s =
      if readPastEnd s.cfg (s.dev.hearAll s.cfg (txBytes s.cfg w n)) = true then
        .fault .outsideArray
      else .next (exchanged p w n s rs k) := by
  have hd : ∀ u : State, (replied p w n u).dev = u.dev := by
    intro u; unfold replied; split <;> rfl
  have he : ((replied p w n (shifted (s.setXferActive true) (txBytes s.cfg w n) rs k)).setXferActive
      false).setCapture (rs.take n) = exchanged p w n s rs k := by
    obtain ⟨cfg, ctrl, x, src, dst, dev, trace, capture, draws, program⟩ := s
    obtain ⟨i, sp, cs, ph, off, att, xa⟩ := ctrl
    have hxa : xa = false := hx
    subst hxa
    unfold exchanged replied
    split <;> rfl
  unfold exchangeIn
  rw [if_pos ⟨hcs, hx⟩, shiftExchange_eq]
  simp only [State.setXferActive_cfg, hs, hd, shifted_dev, State.setXferActive_dev, he]

/-- Everything an exchange does in a transaction: its byte times, or the fault of a read that has gone
past the end of the array. -/
theorem exchangeIn_eq (p : Phase) (w : List Byte) (n : Nat) {s : State}
    (hcs : s.ctrl.cs = .asserted) (hx : s.ctrl.xferActive = false) :
    ∃ rs k, rs.length = (txBytes s.cfg w n).length ∧
      (∀ j b, j < (txBytes s.cfg w n).length → driven s.cfg.var
        ((s.dev.hearAll s.cfg ((txBytes s.cfg w n).take j)).tick s.cfg) = some b →
        rs.getD j 0 = b) ∧
      exchangeIn p w n s =
        if readPastEnd s.cfg (s.dev.hearAll s.cfg (txBytes s.cfg w n)) = true then
          .fault .outsideArray
        else .next (exchanged p w n s rs k) := by
  obtain ⟨k, hk⟩ := shiftBytes_eq (txBytes s.cfg w n) (s.setXferActive true)
  exact ⟨_, k, length_shiftBytes _ (s.setXferActive true),
    fun j b hj h => shiftBytes_driven _ (s.setXferActive true) j b hj h,
    exchangeIn_of_shift hcs hx (Prod.ext hk rfl)⟩

/-- Everything an exchange can do when it answers a next state: byte times on the wire, a captured
prefix of what was sampled, and nothing else. -/
theorem exchangeIn_eq_next {p : Phase} {w : List Byte} {n : Nat} {s t : State}
    (h : exchangeIn p w n s = .next t) :
    s.ctrl.cs = .asserted ∧ s.ctrl.xferActive = false ∧
      ∃ rs k, rs.length = (txBytes s.cfg w n).length ∧ t = exchanged p w n s rs k := by
  by_cases hp : s.ctrl.cs = .asserted ∧ s.ctrl.xferActive = false
  · obtain ⟨rs, k, hl, -, he⟩ := exchangeIn_eq p w n hp.1 hp.2
    rw [he] at h
    split at h
    · simp at h
    · simp only [Host.Outcome.next.injEq] at h
      exact ⟨hp.1, hp.2, rs, k, hl, h.symm⟩
  · simp [exchangeIn, hp] at h

/-- An exchange in one phase, as above. -/
theorem exchange_eq_next {w : List Byte} {n : Nat} {s t : State} (h : exchange w n s = .next t) :
    s.ctrl.cs = .asserted ∧ s.ctrl.xferActive = false ∧
      ∃ rs k, rs.length = (txBytes s.cfg w n).length ∧
        t = { shifted s (txBytes s.cfg w n) rs k with capture := rs.take n } := by
  obtain ⟨hcs, hx, rs, k, hl, ht⟩ := exchangeIn_eq_next h
  exact ⟨hcs, hx, rs, k, hl, by rw [ht, exchanged_self]⟩

/-- An exchange in one phase whose byte times are known and stay inside the array. -/
theorem exchange_of_shift {w : List Byte} {n : Nat} {s : State} {rs : List Byte} {k : Nat}
    (hcs : s.ctrl.cs = .asserted) (hx : s.ctrl.xferActive = false)
    (hs : shiftBytes (txBytes s.cfg w n) (s.setXferActive true) =
      (shifted (s.setXferActive true) (txBytes s.cfg w n) rs k, rs))
    (hp : readPastEnd s.cfg (s.dev.hearAll s.cfg (txBytes s.cfg w n)) = false) :
    exchange w n s =
      .next { shifted s (txBytes s.cfg w n) rs k with capture := rs.take n } := by
  rw [exchange, exchangeIn_of_shift hcs hx hs, if_neg (by simp [hp]), exchanged_self]

/-- Everything CS_DEASSERT can do when it answers a next state: the engine moves, the device acts, and
chip-select rises. -/
theorem csDeassert_eq_next {s t : State} (h : csDeassert s = .next t) :
    s.ctrl.cs = .asserted ∧ s.ctrl.xferActive = false ∧
      ∃ u, deviceActs (engineTick s) = .next u ∧
        t = { u with ctrl := { u.ctrl with cs := .deasserted }
                     dev := u.dev.silence
                     trace := u.trace ++ [.csUp] } := by
  by_cases hp : s.ctrl.cs = .asserted ∧ s.ctrl.xferActive = false
  · simp only [csDeassert, hp, and_self, if_true, andThen_eq_next] at h
    obtain ⟨u, hu, ht⟩ := h
    simp only [Host.Outcome.next.injEq] at ht
    exact ⟨hp.1, hp.2, u, hu, ht.symm⟩
  · simp [csDeassert, hp] at h

theorem csDeassert_of_acts {s u : State} (hcs : s.ctrl.cs = .asserted)
    (hx : s.ctrl.xferActive = false) (hu : deviceActs (engineTick s) = .next u) :
    csDeassert s = .next
      { u with ctrl := { u.ctrl with cs := .deasserted }
               dev := u.dev.silence
               trace := u.trace ++ [.csUp] } := by
  simp only [csDeassert, hcs, hx, and_self, if_true, hu, andThen_next]
  rfl

end Sys2Proof.Machine
end

