-- ==== Sys2Proof/Laws/WireCommands.lean ====
section
/-! SUPPORT. The laws of the wire commands: one closed form for each command when the bus is free, from
which everything it can do is read off. The engine has a moment before each bus event, so a transaction
of `n` byte times leaves the device `n + 2` moments on. -/

namespace Sys2Proof.Machine

/-! ### Chunking (41 R91) -/

/-- The chunks of a data phase add up to its length, no chunk is empty, and none is longer than
`MAX_XFER`. -/
theorem chunkSizes_spec (m : Nat) (hm : 1 ≤ m) : ∀ (fuel n : Nat), n ≤ fuel →
    (chunkSizes m fuel n).sum = n ∧ ∀ c ∈ chunkSizes m fuel n, 1 ≤ c ∧ c ≤ m := by
  intro fuel
  induction fuel with
  | zero => intro n h; simp [chunkSizes]; omega
  | succ fuel ih =>
    intro n h
    unfold chunkSizes
    split
    · next h0 => simp [h0]
    · next h0 =>
      obtain ⟨hs, hc⟩ := ih (n - min m n) (by omega)
      refine ⟨by simp [hs], ?_⟩
      intro c hcm
      rcases List.mem_cons.1 hcm with rfl | hcm
      · omega
      · exact hc c hcm

/-! ### A transaction between its edges -/

/-- The state after the edge that ends a transaction. -/
def raisedCs (u : State) : State :=
  { u with ctrl := { u.ctrl with cs := .deasserted }
           dev := u.dev.silence
           trace := u.trace ++ [.csUp] }

/-- The state after a transaction of the byte times `tx/rx`, of which `k` drew a free value, in which
the device did nothing. -/
def closed (s : State) (tx rx : List Byte) (k : Nat) : State :=
  { s with ctrl := { s.ctrl with phase := .deselect }
           dev := (s.dev.ticks s.cfg (tx.length + 2)).silence
           trace := s.trace ++ ([.csDown] ++ List.zipWith WireEvent.byte tx rx ++ [.csUp])
           draws := s.draws + k }

/-- The state in which the first exchange of a transaction starts. -/
def selected (s : State) : State :=
  { s with ctrl := { s.ctrl with cs := .asserted, phase := .command }
           dev := (s.dev.tick s.cfg).silence
           trace := s.trace ++ [.csDown] }

@[simp] theorem selected_cfg (s : State) : (selected s).cfg = s.cfg := rfl
@[simp] theorem selected_draws (s : State) : (selected s).draws = s.draws := rfl

/-- The state in which the device acts on the frame `tx`. -/
def sent (s : State) (tx rx : List Byte) (k : Nat) : State :=
  { s with ctrl := { s.ctrl with cs := .asserted, phase := .deselect }
           dev := (s.dev.ticks s.cfg (tx.length + 2)).onBus tx (wip (s.dev.ticks s.cfg 2).sr)
           trace := s.trace ++ [.csDown] ++ List.zipWith WireEvent.byte tx rx
           draws := s.draws + k }

theorem csAssert_setPhase {s : State} (hcs : s.ctrl.cs = .deasserted)
    (hx : s.ctrl.xferActive = false) : csAssert (s.setPhase .select) = .next (selected s) := by
  rw [csAssert_eq (by simpa using hcs) (by simpa using hx)]
  rfl

theorem csDeassert_setPhase {s : State} (hcs : s.ctrl.cs = .asserted)
    (hx : s.ctrl.xferActive = false) :
    csDeassert (s.setPhase .deselect) =
      andThen (deviceActs (engineTick (s.setPhase .deselect))) fun u => .next (raisedCs u) := by
  unfold csDeassert
  rw [if_pos (by exact ⟨hcs, hx⟩)]
  rfl

/-- The device once it has heard the bytes of a frame: whether it answers was settled by its `WIP` at
the opcode, two moments after the transaction began (20 R62). -/
theorem selected_hearAll (s : State) (op : Byte) (txs : List Byte) :
    (selected s).dev.hearAll s.cfg (op :: txs) =
      (s.dev.ticks s.cfg (txs.length + 2)).onBus (op :: txs) (wip (s.dev.ticks s.cfg 2).sr) := by
  change ((s.dev.tick s.cfg).onBus [] false).hearAll s.cfg (op :: txs) = _
  rw [Dev.hearAll_first]
  rfl

theorem Dev.tick_ticks (c : Config) (d : Dev) (n : Nat) : (d.ticks c n).tick c = d.ticks c (n + 1) := by
  rw [Dev.tick_eq_ticks, Dev.ticks_add]

theorem raisedCs_sent {s : State} (hcs : s.ctrl.cs = .deasserted) (tx rx : List Byte) (k : Nat) :
    raisedCs (sent s tx rx k) = closed s tx rx k := by
  simp [raisedCs, sent, closed, ← hcs, Dev.silence_eq]

theorem raisedCs_accept (s : State) (u : ArrayUpdate) :
    raisedCs (accept s u) = accept (raisedCs s) u := rfl

theorem raisedCs_strayEffect (s : State) :
    raisedCs (strayEffect s) = strayEffect (raisedCs s) := by
  have hs : (raisedCs s).dev.sr = s.dev.sr := rfl
  unfold strayEffect
  rw [hs]
  split <;> rfl

theorem raisedCs_wrenEffect (s : State) : raisedCs (wrenEffect s) = wrenEffect (raisedCs s) := by
  have hp : (raisedCs s).dev.profile = s.dev.profile := rfl
  have hs : (raisedCs s).dev.sr = s.dev.sr := rfl
  unfold wrenEffect
  rw [hp, hs]
  cases s.dev.profile.latch
  · cases wip s.dev.sr <;> rfl
  · rfl
  · rfl

/-- A one-exchange transaction, once its byte times are known: the device acts on the frame, and
chip-select rises. -/
theorem transact_of {op : Byte} {w : List Byte} {n : Nat} {s : State} {rs : List Byte} {k : Nat}
    (hcs : s.ctrl.cs = .deasserted) (hx : s.ctrl.xferActive = false)
    (hs : exchangeReply (op :: w) n (selected s) =
      .next (exchanged .transfer (op :: w) n (selected s) rs k)) :
    transact (op :: w) n s =
      andThen (deviceActs ((sent s (txBytes s.cfg (op :: w) n) rs k).setCapture (rs.take n)))
        fun u => .next (raisedCs u) := by
  have hc : (exchanged .transfer (op :: w) n (selected s) rs k).ctrl.cs = .asserted := by
    unfold exchanged replied; split <;> rfl
  have hxa : (exchanged .transfer (op :: w) n (selected s) rs k).ctrl.xferActive = false := by
    unfold exchanged replied; split <;> exact hx
  have he : engineTick ((exchanged .transfer (op :: w) n (selected s) rs k).setPhase .deselect) =
      (sent s (txBytes s.cfg (op :: w) n) rs k).setCapture (rs.take n) := by
    have hd : ((selected s).dev.hearAll s.cfg (txBytes s.cfg (op :: w) n)).tick s.cfg =
        (sent s (txBytes s.cfg (op :: w) n) rs k).dev := by
      rw [txBytes, List.cons_append, selected_hearAll, Dev.tick_onBus, Dev.tick_ticks]
      rfl
    unfold exchanged replied
    split <;> simp only [engineTick, State.setDev, State.setPhase, State.setCapture, shifted] <;>
      rw [show (selected s).cfg = s.cfg from rfl, hd] <;> rfl
  unfold transact
  rw [csAssert_setPhase hcs hx, andThen_next, hs, andThen_next, csDeassert_setPhase hc hxa, he]

theorem deviceActs_status {s : State} {rest : List Byte}
    (h : s.dev.rx = s.cfg.var.opStatus :: rest) : deviceActs s = .next s := by
  simp [deviceActs, h]

theorem deviceActs_identify {s : State} {rest : List Byte}
    (h : s.dev.rx = s.cfg.var.opIdentify :: rest) : deviceActs s = .next s := by
  simp [deviceActs, h]

theorem deviceActs_read {s : State} {rest : List Byte}
    (h : s.dev.rx = s.cfg.var.opRead :: rest) : deviceActs s = .next s := by
  simp [deviceActs, h]

/-- A write-enable acts, whatever follows its opcode (20 R57, log entry 14). -/
theorem deviceActs_wren {s : State} {rest : List Byte} (hc : s.cfg.wf = true)
    (h : s.dev.rx = s.cfg.var.opWren :: rest) : deviceActs s = .next (wrenEffect s) := by
  have ho := opcodes_distinct hc
  simp [deviceActs, h, ho.1.2.2.2.2.symm, ho.2.2.2.1.2.symm, ho.2.2.2.2.symm]

/-- CMD_STATUS when the bus is free: two byte times, the first a free value and the second the status
byte at that moment; nothing else changes (42 R98). -/
theorem cmdStatus_eq {s : State} (hcs : s.ctrl.cs = .deasserted)
    (hx : s.ctrl.xferActive = false) :
    cmdStatus s = .next ((closed s [s.cfg.var.opStatus, s.cfg.txFill]
      [Config.freeByte s.draws, (s.dev.ticks s.cfg 3).sr] 1).setCapture
        [Config.freeByte s.draws, (s.dev.ticks s.cfg 3).sr]) := by
  have htx : txBytes s.cfg [s.cfg.var.opStatus] 2 = [s.cfg.var.opStatus, s.cfg.txFill] := rfl
  unfold cmdStatus
  rw [transact_of (rs := [Config.freeByte s.draws, (s.dev.ticks s.cfg 3).sr]) (k := 1) hcs hx ?_,
    deviceActs_status (rest := [s.cfg.txFill]) rfl, andThen_next, ← raisedCs_sent hcs]
  · rfl
  · unfold exchangeReply
    rw [exchangeIn_of_shift (s := selected s)
      (rs := [Config.freeByte s.draws, (s.dev.ticks s.cfg 3).sr]) (k := 1) rfl hx, if_neg]
    · change ¬ readPastEnd s.cfg ((selected s).dev.hearAll s.cfg
        [s.cfg.var.opStatus, s.cfg.txFill]) = true
      rw [selected_hearAll]
      simp [readPastEnd]
    · change shiftBytes [s.cfg.var.opStatus, s.cfg.txFill] _ = (shifted _
        [s.cfg.var.opStatus, s.cfg.txFill] _ 1, _)
      have h1 : (selected s).dev.tick s.cfg = (s.dev.ticks s.cfg 2).onBus [] false := by
        change ((s.dev.tick s.cfg).onBus [] false).tick s.cfg = _
        rw [Dev.tick_onBus]; rfl
      have h2 : (((selected s).dev.tick s.cfg).hear s.cfg.var.opStatus).tick s.cfg =
          (s.dev.ticks s.cfg 3).onBus [s.cfg.var.opStatus] (wip (s.dev.ticks s.cfg 2).sr) := by
        rw [h1, Dev.hear_eq, Dev.onBus_onBus, Dev.tick_onBus, Dev.tick_ticks]; rfl
      have d1 : driven s.cfg.var ((selected s).dev.tick s.cfg) = none := by
        rw [h1]; exact driven_nil rfl
      have d2 : driven s.cfg.var ((((selected s).dev.tick s.cfg).hear s.cfg.var.opStatus).tick
          s.cfg) = some (s.dev.ticks s.cfg 3).sr := by
        rw [h2]; exact driven_status rfl
      simp only [shiftBytes, shiftByte_eq]
      rw [shifted_shifted _ _ _ _ _ _ _ (by simp)]
      simp [sampled, sampleDraws, shifted, Dev.hearAll, d1, d2]

/-- CMD_WREN when the bus is free: one byte time, and the latch as the device has it (42 R97,
20 R57). -/
theorem cmdWren_eq {s : State} (hc : s.cfg.wf = true) (hcs : s.ctrl.cs = .deasserted)
    (hx : s.ctrl.xferActive = false) :
    cmdWren s = .next (wrenEffect
      ((closed s [s.cfg.var.opWren] [Config.freeByte s.draws] 1).setCapture [])) := by
  unfold cmdWren
  have hu := deviceActs_wren (s := (sent s (txBytes s.cfg [s.cfg.var.opWren] 0)
    [Config.freeByte s.draws] 1).setCapture []) hc rfl
  rw [transact_of (rs := [Config.freeByte s.draws]) (k := 1) hcs hx ?_, List.take_zero, hu,
    andThen_next, raisedCs_wrenEffect, ← raisedCs_sent hcs]
  · rfl
  · unfold exchangeReply
    rw [exchangeIn_of_shift (s := selected s) (rs := [Config.freeByte s.draws]) (k := 1) rfl hx,
      if_neg]
    · change ¬ readPastEnd s.cfg ((selected s).dev.hearAll s.cfg [s.cfg.var.opWren]) = true
      rw [selected_hearAll]
      simp [readPastEnd]
    · have := shiftBytes_silent [s.cfg.var.opWren] ((selected s).setXferActive true) (by
        intro k hk
        have hk0 : k = 0 := by simpa using hk
        subst hk0
        exact driven_nil (Dev.tick_frame _ _).2.2.2.1)
      exact this

/-- CMD_IDENTIFY when the bus is free: four byte times, all captured; nothing else changes; a device
that is idle when the opcode comes, and that answers, sends its identity after the first
(42 R99, 20 R56, R62). -/
theorem cmdIdentify_eq {s : State} (hc : s.cfg.wf = true) (hcs : s.ctrl.cs = .deasserted)
    (hx : s.ctrl.xferActive = false) :
    ∃ rs k, rs.length = 4 ∧
      (wip (s.dev.ticks s.cfg 2).sr = false → s.dev.profile.identifies = true →
        rs.getD 1 0 = s.dev.id0 ∧ rs.getD 2 0 = s.dev.id1 ∧ rs.getD 3 0 = s.dev.id2) ∧
      cmdIdentify s = .next
        ((closed s [s.cfg.var.opIdentify, s.cfg.txFill, s.cfg.txFill, s.cfg.txFill] rs k).setCapture
          rs) := by
  have ho := opcodes_distinct hc
  obtain ⟨rs, k, hl, hb, he⟩ := exchangeIn_eq .transfer [s.cfg.var.opIdentify] 4
    (s := selected s) rfl hx
  have htx : txBytes s.cfg [s.cfg.var.opIdentify] 4 =
      [s.cfg.var.opIdentify, s.cfg.txFill, s.cfg.txFill, s.cfg.txFill] := rfl
  change rs.length = 4 at hl
  have htk : rs.take 4 = rs := List.take_of_length_le (by omega)
  refine ⟨rs, k, hl, ?_, ?_⟩
  · intro hw hid
    have drives : ∀ j rest b, s.cfg.var.opIdentify :: rest = (txBytes s.cfg
        [s.cfg.var.opIdentify] 4).take (j + 1) → identityByte s.dev rest.length = some b →
        j + 1 < 4 → rs.getD (j + 1) 0 = b := by
      intro j rest b hr hi hj
      refine hb (j + 1) b hj ?_
      change driven s.cfg.var (((selected s).dev.hearAll s.cfg ((txBytes s.cfg
        [s.cfg.var.opIdentify] 4).take (j + 1))).tick s.cfg) = _
      rw [← hr, selected_hearAll, Dev.tick_onBus, driven_identify hc (rest := rest) rfl]
      have hf := Dev.ticks_frame s.cfg (rest.length + 2) s.dev
      have hg := Dev.tick_frame s.cfg (s.dev.ticks s.cfg (rest.length + 2))
      simp only [Dev.onBus_ignoring, Dev.onBus_profile, hg.2.2.2.2.2.1, hf.2.2.2.2.2.1, hw, hid]
      rw [← hi]
      simp [identityByte, hg]
    exact ⟨drives 0 [] _ rfl rfl (by omega), drives 1 [_] _ rfl rfl (by omega),
      drives 2 [_, _] _ rfl rfl (by omega)⟩
  · unfold cmdIdentify
    rw [transact_of (rs := rs) (k := k) hcs hx ?_, deviceActs_identify
      (rest := [s.cfg.txFill, s.cfg.txFill, s.cfg.txFill]) rfl, andThen_next, ← raisedCs_sent hcs]
    · simp only [htx, htk]; rfl
    · unfold exchangeReply
      rw [he, if_neg]
      change ¬ readPastEnd s.cfg ((selected s).dev.hearAll s.cfg
        [s.cfg.var.opIdentify, s.cfg.txFill, s.cfg.txFill, s.cfg.txFill]) = true
      rw [selected_hearAll]
      simp [readPastEnd, ho.1.2.2.2.1.symm]

/-! ### Addressed commands -/

/-- The three address bytes of a header name the address again (30 R64, R66). -/
theorem addrOfBytes_addrBytes (a : Addr24) :
    addrOfBytes (a.extractLsb' 16 8) (a.extractLsb' 8 8) (a.extractLsb' 0 8) = a := by
  apply BitVec.eq_of_getLsbD_eq
  intro i hi
  simp only [addrOfBytes, BitVec.getLsbD_append, BitVec.getLsbD_extractLsb']
  by_cases h1 : i < 8
  · simp [h1]
  · by_cases h2 : i - 8 < 8
    · simp [h1, h2, show 8 + (i - 8) = i from by omega]
    · have h3 : i - 8 - 8 < 8 := by omega
      simp [h1, h2, h3, show 16 + (i - 8 - 8) = i from by omega]

theorem header_eq (op : Byte) (a : Addr24) :
    header op a = [op, a.extractLsb' 16 8, a.extractLsb' 8 8, a.extractLsb' 0 8] := rfl

theorem header_length (op : Byte) (a : Addr24) : (header op a).length = 4 := rfl

@[simp] theorem acceptsUpdates_onBus (d : Dev) (r : List Byte) (g : Bool) :
    acceptsUpdates (d.onBus r g) = acceptsUpdates d := rfl

/-- All that a program frame can do (20 R59, 70 R139). -/
theorem deviceActs_program {s : State} {a : Addr24} {data : List Byte} (hc : s.cfg.wf = true)
    (h : s.dev.rx = header s.cfg.var.opProgram a ++ data) :
    deviceActs s =
      if acceptsUpdates s.dev = true then
        if data = [] then .next (strayEffect s)
        else if programInArray s.cfg.geo a.toNat data.length = true then
          .next (accept s (.program a data))
        else .fault .outsideArray
      else .next s := by
  have ho := opcodes_distinct hc
  simp [deviceActs, h, header_eq, addrOfBytes_addrBytes, ho.1.1.symm, ho.2.1.2.1,
    ho.2.1.2.2.1, ho.2.1.2.2.2]

/-- All that an erase frame can do, whatever follows its address (20 R60, 70 R139, log entry 14). -/
theorem deviceActs_erase {s : State} {a : Addr24} {more : List Byte} (hc : s.cfg.wf = true)
    (h : s.dev.rx = header s.cfg.var.opErase a ++ more) :
    deviceActs s =
      if acceptsUpdates s.dev = true then
        if a.toNat < s.cfg.geo.totalSize then .next (accept s (.erase a))
        else .fault .outsideArray
      else .next s := by
  have ho := opcodes_distinct hc
  simp [deviceActs, h, header_eq, addrOfBytes_addrBytes, ho.1.2.1.symm, ho.2.1.1.symm,
    ho.2.2.1.1, ho.2.2.1.2.1, ho.2.2.1.2.2]

/-- A device that takes no updates ignores whatever follows the program and erase opcodes
(20 R59, R60, 70 R139). -/
theorem deviceActs_ignored {s : State} {op : Byte} {rest : List Byte} (hc : s.cfg.wf = true)
    (h : s.dev.rx = op :: rest) (hop : op = s.cfg.var.opProgram ∨ op = s.cfg.var.opErase)
    (hacc : acceptsUpdates s.dev = false) : deviceActs s = .next s := by
  have ho := opcodes_distinct hc
  rcases hop with rfl | rfl
  · simp [deviceActs, h, hacc, ho.1.1.symm, ho.2.1.2.1, ho.2.1.2.2.1, ho.2.1.2.2.2]
  · simp [deviceActs, h, hacc, ho.1.2.1.symm, ho.2.1.1.symm, ho.2.2.1.1, ho.2.2.1.2.1,
      ho.2.2.1.2.2]

/-- A frame that completes no command has the stray frame's effect: a first byte that is none of the six
opcodes (30 R71), and a program or erase opcode at a device that would take the command, with fewer bytes
after it than the command has (log entry 14). -/
theorem deviceActs_stray {s : State} {op : Byte} {rest : List Byte} (hc : s.cfg.wf = true)
    (h : s.dev.rx = op :: rest)
    (hop : op ∉ s.cfg.var.opcodes ∨ acceptsUpdates s.dev = true ∧
      (op = s.cfg.var.opProgram ∧ rest.length < 4 ∨ op = s.cfg.var.opErase ∧ rest.length < 3)) :
    deviceActs s = .next (strayEffect s) := by
  have ho := opcodes_distinct hc
  rcases hop with hop | ⟨hacc, ⟨rfl, hl⟩ | ⟨rfl, hl⟩⟩
  · simp only [Variant.opcodes, List.mem_cons, List.not_mem_nil, or_false, not_or] at hop
    simp [deviceActs, h, hop]
  · match rest, hl with
    | [], _ | [_], _ | [_, _], _ | [_, _, _], _ =>
      simp [deviceActs, h, hacc, ho.1.1.symm, ho.2.1.2.1, ho.2.1.2.2.1, ho.2.1.2.2.2]
  · match rest, hl with
    | [], _ | [_], _ | [_, _], _ =>
      simp [deviceActs, h, hacc, ho.1.2.1.symm, ho.2.1.1.symm, ho.2.2.1.1, ho.2.2.1.2.1,
        ho.2.2.1.2.2]

/-- In the header of an addressed command the device drives nothing (41 R90). -/
theorem header_silent {s : State} {op : Byte} {a : Addr24} (h1 : op ≠ s.cfg.var.opStatus)
    (h2 : op ≠ s.cfg.var.opIdentify) (k : Nat) (hk : k < 4) :
    driven s.cfg.var (((selected s).dev.hearAll s.cfg ((header op a).take k)).tick s.cfg) =
      none := by
  match k, hk with
  | 0, _ => exact driven_nil (Dev.tick_frame _ _).2.2.2.1
  | k + 1, hk =>
    rw [header_eq, List.take_succ_cons, selected_hearAll, Dev.tick_onBus]
    have hl : ∀ b1 b2 b3 : Byte, ([b1, b2, b3].take k).length < 3 := by simp; omega
    by_cases h3 : op = s.cfg.var.opRead
    · subst h3
      simp only [driven, Dev.onBus_rx, h1, h2, if_false, if_true]
      split
      · rfl
      · split
        · next heq =>
          have := congrArg List.length heq
          have := hl (a.extractLsb' 16 8) (a.extractLsb' 8 8) (a.extractLsb' 0 8)
          simp only [List.length_cons] at *
          omega
        · rfl
    · exact driven_silent (c := s.cfg) rfl h1 h2 h3

/-- The state after the header of an addressed command. -/
def headed (s : State) (op : Byte) (a : Addr24) : State :=
  (shifted (selected s) (header op a) (freeBytes s.draws 4) 4).setCapture []

theorem headed_dev (s : State) (op : Byte) (a : Addr24) :
    (headed s op a).dev =
      (s.dev.ticks s.cfg 5).onBus (header op a) (wip (s.dev.ticks s.cfg 2).sr) :=
  selected_hearAll s op (addrBytes a)

/-- The byte times of a header: four, all free values (41 R90). -/
theorem shiftBytes_header {s : State} {op : Byte} {a : Addr24} (h1 : op ≠ s.cfg.var.opStatus)
    (h2 : op ≠ s.cfg.var.opIdentify) :
    shiftBytes (txBytes s.cfg (header op a) 0) ((selected s).setXferActive true) =
      (shifted ((selected s).setXferActive true) (txBytes s.cfg (header op a) 0)
        (freeBytes s.draws 4) 4, freeBytes s.draws 4) := by
  rw [txBytes_zero]
  exact shiftBytes_silent (header op a) ((selected s).setXferActive true)
    fun k hk => header_silent (s := s) h1 h2 k hk

theorem readPastEnd_header (s : State) (op : Byte) (a : Addr24) :
    ¬ readPastEnd s.cfg ((selected s).dev.hearAll s.cfg (txBytes s.cfg (header op a) 0)) = true := by
  rw [txBytes_zero, header_eq, selected_hearAll]
  simp [readPastEnd]

theorem exchange_header {s : State} {op : Byte} {a : Addr24} (hx : s.ctrl.xferActive = false)
    (h1 : op ≠ s.cfg.var.opStatus) (h2 : op ≠ s.cfg.var.opIdentify) :
    exchange (header op a) 0 (selected s) = .next (headed s op a) := by
  rw [exchange_of_shift (s := selected s) (rs := freeBytes s.draws 4) (k := 4) rfl hx
    (shiftBytes_header (s := s) h1 h2) (by simpa using readPastEnd_header s op a), txBytes_zero,
    List.take_zero]
  rfl

theorem writeBytes_append (xs : List Byte) : ∀ (m : Memory) (a : Nat) (ys : List Byte),
    m.writeBytes a (xs ++ ys) = (m.writeBytes a xs).writeBytes (a + xs.length) ys := by
  induction xs with
  | nil => intro m a ys; simp [Memory.writeBytes]
  | cons x xs ih =>
    intro m a ys
    simp [Memory.writeBytes, ih, Nat.add_assoc, Nat.add_comm]

/-- The data phase of a read: each sampled byte goes to `dst`. They are the array's bytes when the
device answers and nothing is pending in it; a read that passes the end of the array faults
(42 R100, 20 R58, log entry 16). -/
theorem readChunks_eq : ∀ (cs : List Nat) (s : State) (a2 a1 a0 : Byte) (more : List Byte),
    (∀ c ∈ cs, 1 ≤ c) → s.cfg.wf = true → s.ctrl.cs = .asserted → s.ctrl.xferActive = false →
    s.dev.rx = s.cfg.var.opRead :: a2 :: a1 :: a0 :: more →
    (s.dev.ignoring = true ∨ more = [] ∨
      (addrOfBytes a2 a1 a0).toNat + more.length ≤ s.cfg.geo.totalSize) →
    ∃ rs k cap, rs.length = cs.sum ∧
      (s.dev.ignoring = false → s.dev.pending = none →
        rs = s.dev.array.readBytes ((addrOfBytes a2 a1 a0).toNat + more.length) cs.sum) ∧
      readChunks cs s =
        if s.dev.ignoring = true ∨ cs.sum = 0 ∨
          (addrOfBytes a2 a1 a0).toNat + more.length + cs.sum ≤ s.cfg.geo.totalSize then
          .next { shifted s (List.replicate cs.sum s.cfg.txFill) rs k with
            ctrl := { s.ctrl with off := s.ctrl.off + cs.sum }
            dst := s.dst.writeBytes s.ctrl.off rs
            capture := cap }
        else .fault .outsideArray := by
  intro cs
  induction cs with
  | nil =>
    intro s a2 a1 a0 more _ _ _ _ _ _
    exact ⟨[], 0, s.capture, rfl, fun _ _ => rfl, by
      simp [readChunks, shifted, Memory.writeBytes, Dev.hearAll]⟩
  | cons c cs ih =>
    intro s a2 a1 a0 more h1 hc hcs hx hr hin
    have hc1 : 1 ≤ c := h1 c (by simp)
    have htx : txBytes s.cfg [] c = List.replicate c s.cfg.txFill := by simp [txBytes]
    have hdev : s.dev = s.dev.onBus s.dev.rx s.dev.ignoring := rfl
    have hh : s.dev.hearAll s.cfg (List.replicate c s.cfg.txFill) =
        (s.dev.ticks s.cfg c).onBus (s.cfg.var.opRead :: a2 :: a1 :: a0 ::
          (more ++ List.replicate c s.cfg.txFill)) s.dev.ignoring := by
      rw [hdev, Dev.hearAll_onBus _ _ _ _ _ (by simp [hr]), hr]
      simp
    obtain ⟨k1, hk1⟩ := shiftBytes_eq (txBytes s.cfg [] c) (s.setXferActive true)
    obtain ⟨r1, hr1⟩ : ∃ r1, shiftBytes (txBytes s.cfg [] c) (s.setXferActive true) =
      (shifted (s.setXferActive true) (txBytes s.cfg [] c) r1 k1, r1) := ⟨_, Prod.ext hk1 rfl⟩
    have hl1 : r1.length = c := by
      have := length_shiftBytes (txBytes s.cfg [] c) (s.setXferActive true)
      rw [hr1] at this
      simpa [htx] using this
    have hd1 : s.dev.ignoring = false → s.dev.pending = none →
        r1 = s.dev.array.readBytes ((addrOfBytes a2 a1 a0).toNat + more.length) c := by
      intro hi hp
      have := shiftBytes_readData (txBytes s.cfg [] c) (s.setXferActive true) a2 a1 a0 more hc hr
        hi hp
      rw [hr1, htx, List.length_replicate] at this
      exact congrArg Prod.snd this
    have hex : exchange [] c s = if readPastEnd s.cfg (s.dev.hearAll s.cfg
        (List.replicate c s.cfg.txFill)) = true then .fault .outsideArray
        else .next { shifted s (List.replicate c s.cfg.txFill) r1 k1 with capture := r1 } := by
      rw [exchange, exchangeIn_of_shift hcs hx hr1, exchanged_self, htx,
        List.take_of_length_le (by omega)]
    have hpast : readPastEnd s.cfg (s.dev.hearAll s.cfg (List.replicate c s.cfg.txFill)) = true ↔
        s.dev.ignoring = false ∧
          s.cfg.geo.totalSize < (addrOfBytes a2 a1 a0).toNat + more.length + c := by
      rw [hh]
      simp only [readPastEnd, Dev.onBus_rx, Dev.onBus_ignoring, Bool.and_eq_true,
        decide_eq_true_eq, Bool.not_eq_true', List.length_append, List.length_replicate,
        Nat.add_assoc, true_and]
      constructor
      · exact fun h => ⟨h.1.1, h.2⟩
      · refine fun h => ⟨⟨h.1, ?_⟩, h.2⟩
        intro h0
        have := congrArg List.length h0
        simp at this
        omega
    have hs : ∀ b : State, b = { shifted s (List.replicate c s.cfg.txFill) r1 k1 with
        capture := r1 } → b.dev.ignoring = s.dev.ignoring ∧
        b.dev.rx = s.cfg.var.opRead :: a2 :: a1 :: a0 ::
          (more ++ List.replicate c s.cfg.txFill) ∧
        (s.dev.pending = none → b.dev.pending = none ∧ b.dev.array = s.dev.array) := by
      rintro b rfl
      simp only [shifted_dev, hh]
      refine ⟨rfl, rfl, fun hp => ?_⟩
      rw [Dev.ticks_of_none _ hp]
      exact ⟨hp, rfl⟩
    obtain ⟨hbi, hbr, hbp⟩ := hs _ rfl
    rw [readChunks, hex]
    by_cases hpe : readPastEnd s.cfg (s.dev.hearAll s.cfg (List.replicate c s.cfg.txFill)) = true
    · rw [if_pos hpe, andThen_fault]
      rw [hpast] at hpe
      refine ⟨s.dev.array.readBytes ((addrOfBytes a2 a1 a0).toNat + more.length) (c :: cs).sum, 0,
        [], Memory.length_readBytes _ _ _, fun _ _ => rfl, ?_⟩
      rw [if_neg]
      simp only [List.sum_cons, hpe.1, Bool.false_eq_true, false_or]
      omega
    · obtain ⟨r2, k2, cap, hl2, hd2, he2⟩ := ih
        ((({ shifted s (List.replicate c s.cfg.txFill) r1 k1 with capture := r1 } :
          State).setDst (s.dst.writeBytes s.ctrl.off r1)).setOff (s.ctrl.off + c))
        a2 a1 a0 (more ++ List.replicate c s.cfg.txFill) (fun x hx => h1 x (by simp [hx]))
        hc hcs hx hbr (by
          rw [hpast] at hpe
          rw [show ((({ shifted s (List.replicate c s.cfg.txFill) r1 k1 with capture := r1 } :
            State).setDst (s.dst.writeBytes s.ctrl.off r1)).setOff
            (s.ctrl.off + c)).dev.ignoring = s.dev.ignoring from hbi]
          cases hi : s.dev.ignoring
          · right; right
            simp only [List.length_append, List.length_replicate]
            change _ ≤ s.cfg.geo.totalSize
            simp only [hi, true_and, Nat.not_lt] at hpe
            omega
          · exact .inl rfl)
      have hlen : (addrOfBytes a2 a1 a0).toNat + (more ++ List.replicate c s.cfg.txFill).length =
          (addrOfBytes a2 a1 a0).toNat + more.length + c := by simp; omega
      rw [hlen] at hd2 he2
      refine ⟨r1 ++ r2, k1 + k2, cap, by simp [hl1, hl2], ?_, ?_⟩
      · intro hi hp
        obtain ⟨hp', ha'⟩ := hbp hp
        rw [hd1 hi hp, hd2 (hbi.trans hi) hp', List.sum_cons, Memory.readBytes_append]
        congr 2
      · rw [if_neg hpe, andThen_next]
        refine he2.trans ?_
        have hcond : (((({ shifted s (List.replicate c s.cfg.txFill) r1 k1 with
            capture := r1 } : State).setDst (s.dst.writeBytes s.ctrl.off r1)).setOff
            (s.ctrl.off + c)).dev.ignoring = true ∨ cs.sum = 0 ∨
              (addrOfBytes a2 a1 a0).toNat + more.length + c + cs.sum ≤ s.cfg.geo.totalSize) ↔
            (s.dev.ignoring = true ∨ (c :: cs).sum = 0 ∨
              (addrOfBytes a2 a1 a0).toNat + more.length + (c :: cs).sum ≤
                s.cfg.geo.totalSize) := by
          rw [hpast] at hpe
          rw [show ((({ shifted s (List.replicate c s.cfg.txFill) r1 k1 with capture := r1 } :
            State).setDst (s.dst.writeBytes s.ctrl.off r1)).setOff
            (s.ctrl.off + c)).dev.ignoring = s.dev.ignoring from hbi]
          simp only [List.sum_cons]
          cases hi : s.dev.ignoring
          · simp only [hi, true_and, Nat.not_lt] at hpe
            simp only [Bool.false_eq_true, false_or]
            omega
          · simp
        refine if_congr hcond ?_ rfl
        simp only [shifted, State.setDst, State.setOff, List.sum_cons, List.replicate_add,
          writeBytes_append, hl1, Dev.hearAll_append]
        rw [List.zipWith_append (by simp [hl1])]
        simp [Nat.add_assoc]

/-- The data phase of a program: the payload goes out, and the device stays silent (42 R101,
41 R90). -/
theorem programChunks_eq : ∀ (cs : List Nat) (data : List Byte) (s : State) (rest : List Byte),
    s.cfg.wf = true → s.ctrl.cs = .asserted → s.ctrl.xferActive = false →
    s.dev.rx = s.cfg.var.opProgram :: rest → s.capture = [] → cs.sum = data.length →
    programChunks cs data s = .next
      { shifted s data (freeBytes s.draws data.length) data.length with
        ctrl := { s.ctrl with off := s.ctrl.off + data.length } } := by
  intro cs
  induction cs with
  | nil =>
    intro data s rest _ _ _ _ _ hl
    have : data = [] := List.eq_nil_of_length_eq_zero (by simpa using hl.symm)
    subst this
    simp [programChunks, shifted, freeBytes, Dev.hearAll]
  | cons c cs ih =>
    intro data s rest hc hcs hx hr hcap hl
    simp only [List.sum_cons] at hl
    have ho := opcodes_distinct hc
    have hlt : (data.take c).length = c := by simp; omega
    have hdev : s.dev = s.dev.onBus s.dev.rx s.dev.ignoring := rfl
    have hh : ∀ txs, s.dev.hearAll s.cfg txs = (s.dev.ticks s.cfg txs.length).onBus
        (s.cfg.var.opProgram :: (rest ++ txs)) s.dev.ignoring := by
      intro txs
      rw [hdev, Dev.hearAll_onBus _ _ _ _ _ (by simp [hr]), hr]
      simp
    have hex : exchange (data.take c) 0 s = .next
        (shifted s (data.take c) (freeBytes s.draws c) c) := by
      rw [exchange_of_shift hcs hx (rs := freeBytes s.draws c) (k := c)]
      · rw [txBytes_zero, List.take_zero, ← hcap]; rfl
      · rw [txBytes_zero]
        have := shiftBytes_silent (data.take c) (s.setXferActive true) (by
          intro k _
          change driven s.cfg.var ((s.dev.hearAll s.cfg ((data.take c).take k)).tick s.cfg) = none
          rw [hh, Dev.tick_onBus]
          exact driven_silent (c := s.cfg) rfl ho.2.1.2.1 ho.2.1.2.2.1 ho.1.1.symm)
        rw [hlt] at this
        exact this
      · rw [txBytes_zero, hh]
        simp only [readPastEnd, Dev.onBus_rx]
        split
        · next heq =>
          simp only [List.cons.injEq] at heq
          simp [← heq.1, ho.1.1.symm]
        · rfl
    rw [programChunks, hex, andThen_next]
    refine (ih (data.drop c) ((shifted s (data.take c) (freeBytes s.draws c) c).setOff
      (s.ctrl.off + c)) (rest ++ data.take c) hc hcs hx
      (by simp [hh, shifted]) hcap (by simp; omega)).trans ?_
    have hld : data.length = c + (data.drop c).length := by simp; omega
    have hdat : data.take c ++ data.drop c = data := List.take_append_drop c data
    have hfb : freeBytes s.draws data.length =
        freeBytes s.draws c ++ freeBytes (s.draws + c) (data.drop c).length := by
      rw [hld]
      simp [freeBytes, List.range_add, Nat.add_assoc, Function.comp_def]
    have hz : List.zipWith WireEvent.byte data (freeBytes s.draws data.length) =
        List.zipWith WireEvent.byte (data.take c) (freeBytes s.draws c) ++
        List.zipWith WireEvent.byte (data.drop c)
          (freeBytes (s.draws + c) (data.drop c).length) := by
      rw [hfb, ← List.zipWith_append (by simp [hlt]), hdat]
    have hd : (s.dev.hearAll s.cfg (data.take c)).hearAll s.cfg (data.drop c) =
        s.dev.hearAll s.cfg data := by rw [← Dev.hearAll_append, hdat]
    simp only [shifted, State.setOff, hz, hd]
    rw [hld]
    simp [Nat.add_assoc, List.append_assoc]

/-- A transaction with a data phase, once the data phase is known to have stayed in the transaction:
the device acts on the frame, and chip-select rises. -/
theorem transactData_of {op : Byte} {a : Addr24} {data : State → Res State} {s m : State}
    (hcs : s.ctrl.cs = .deasserted) (hx : s.ctrl.xferActive = false)
    (h1 : op ≠ s.cfg.var.opStatus) (h2 : op ≠ s.cfg.var.opIdentify)
    (hd : data (((headed s op a).setOff 0).setPhase .transfer) = .next m)
    (hm : m.ctrl.cs = .asserted) (hmx : m.ctrl.xferActive = false) :
    transactData (header op a) data s =
      andThen (deviceActs (engineTick (m.setPhase .deselect))) fun u => .next (raisedCs u) := by
  unfold transactData
  rw [csAssert_setPhase hcs hx, andThen_next, exchange_header hx h1 h2, andThen_next, hd,
    andThen_next, csDeassert_setPhase hm hmx]

/-- The device after a whole frame, in the moment before chip-select rises. -/
theorem headed_hearAll (s : State) (op : Byte) (a : Addr24) (txs : List Byte) :
    ((headed s op a).dev.hearAll s.cfg txs).tick s.cfg =
      (s.dev.ticks s.cfg ((header op a ++ txs).length + 2)).onBus (header op a ++ txs)
        (wip (s.dev.ticks s.cfg 2).sr) := by
  rw [headed_dev, Dev.hearAll_onBus _ _ _ _ _ (by simp [header_eq]), Dev.tick_onBus, Dev.ticks_add,
    Dev.tick_ticks]
  congr 2
  simp [header_length]
  omega

/-- The state after a read transaction that sampled `rs` in its data phase. -/
def readDone (s : State) (a : Addr24) (rs : List Byte) (k : Nat) (cap : List Byte) : State :=
  { closed s (header s.cfg.var.opRead a ++ List.replicate rs.length s.cfg.txFill)
      (freeBytes s.draws 4 ++ rs) k with
    ctrl := { s.ctrl with off := rs.length, phase := .deselect }
    dst := s.dst.writeBytes 0 rs
    capture := cap }

/-- CMD_READ when the bus is free: the sampled bytes go to `dst`. They are the array's when the device
was idle at the opcode and nothing is pending in it; a read of an idle device that passes the end of
the array faults (42 R100, 20 R58, R62, log entry 16). -/
theorem cmdRead_eq {s : State} (a : Addr24) (n : Nat) (hc : s.cfg.wf = true)
    (hcs : s.ctrl.cs = .deasserted) (hx : s.ctrl.xferActive = false) :
    ∃ rs k cap, rs.length = n ∧
      (wip (s.dev.ticks s.cfg 2).sr = false → (s.dev.ticks s.cfg 5).pending = none →
        rs = (s.dev.ticks s.cfg 5).array.readBytes a.toNat n) ∧
      cmdRead a n s =
        if wip (s.dev.ticks s.cfg 2).sr = true ∨ n = 0 ∨ a.toNat + n ≤ s.cfg.geo.totalSize then
          .next (readDone s a rs k cap)
        else .fault .outsideArray := by
  have ho := opcodes_distinct hc
  obtain ⟨hsum, hpos⟩ := chunkSizes_spec s.cfg.maxXfer (config_bounds hc).2.2.2.2.1 n n le_rfl
  have hdev := headed_dev s s.cfg.var.opRead a
  obtain ⟨rs, k, cap, hl, hb, he⟩ := readChunks_eq (chunkSizes s.cfg.maxXfer n n)
    (((headed s s.cfg.var.opRead a).setOff 0).setPhase .transfer)
    (a.extractLsb' 16 8) (a.extractLsb' 8 8) (a.extractLsb' 0 8) [] (fun c h => (hpos c h).1) hc rfl
    hx (by simp [hdev, header_eq]; rfl) (.inr (.inl rfl))
  rw [hsum] at hl hb he
  simp only [addrOfBytes_addrBytes, List.length_nil, Nat.add_zero, State.setPhase_dev,
    State.setOff_dev, hdev, Dev.onBus_ignoring, Dev.onBus_pending, Dev.onBus_array] at hb he
  refine ⟨rs, 4 + k, cap, hl, hb, ?_⟩
  unfold cmdRead
  by_cases hcond : wip (s.dev.ticks s.cfg 2).sr = true ∨ n = 0 ∨
    a.toNat + n ≤ s.cfg.geo.totalSize
  · rw [if_pos hcond]
    rw [if_pos (by exact hcond)] at he
    have hdt := headed_hearAll s s.cfg.var.opRead a (List.replicate n s.cfg.txFill)
    rw [transactData_of hcs hx ho.1.2.2.1 ho.1.2.2.2.1 he rfl hx, deviceActs_read
      (rest := addrBytes a ++ List.replicate n s.cfg.txFill) (congrArg Dev.rx hdt), andThen_next]
    subst hl
    have hz : List.zipWith WireEvent.byte (header s.cfg.var.opRead a ++
          List.replicate rs.length s.cfg.txFill) (freeBytes s.draws 4 ++ rs) =
        List.zipWith WireEvent.byte (header s.cfg.var.opRead a) (freeBytes s.draws 4) ++
        List.zipWith WireEvent.byte (List.replicate rs.length s.cfg.txFill) rs :=
      List.zipWith_append (by simp [header_length])
    generalize hm : engineTick _ = m
    have hmd : m.dev = (s.dev.ticks s.cfg ((header s.cfg.var.opRead a ++
        List.replicate rs.length s.cfg.txFill).length + 2)).onBus (header s.cfg.var.opRead a ++
        List.replicate rs.length s.cfg.txFill) (wip (s.dev.ticks s.cfg 2).sr) := by
      rw [← hm]; exact hdt
    congr 1
    unfold raisedCs
    rw [hmd, ← hm]
    simp only [readDone, closed, hz]
    simp [engineTick, State.setDev, headed, shifted, selected, State.setPhase, State.setOff,
      State.setCapture, hcs, Nat.add_assoc, Dev.silence_eq]
  · rw [if_neg hcond]
    rw [if_neg (by exact hcond)] at he
    unfold transactData
    rw [csAssert_setPhase hcs hx, andThen_next, exchange_header hx ho.1.2.2.1 ho.1.2.2.2.1,
      andThen_next, he]
    rfl

/-- The state after a program transaction, when the device has not yet acted on it. -/
def programSent (s : State) (a : Addr24) (data : List Byte) : State :=
  { closed s (header s.cfg.var.opProgram a ++ data)
      (freeBytes s.draws (4 + data.length)) (4 + data.length) with
    ctrl := { s.ctrl with off := data.length, phase := .deselect }
    capture := [] }

/-- CMD_PROGRAM when the bus is free: the device, as it is when chip-select rises, takes the program or
ignores it (42 R101, 20 R59). -/
theorem cmdProgram_eq {s : State} (a : Addr24) (data : List Byte) (hc : s.cfg.wf = true)
    (hcs : s.ctrl.cs = .deasserted) (hx : s.ctrl.xferActive = false) :
    cmdProgram a data s =
      if acceptsUpdates (s.dev.ticks s.cfg (data.length + 6)) = true then
        if data = [] then .next (strayEffect (programSent s a data))
        else if programInArray s.cfg.geo a.toNat data.length = true then
          .next (accept (programSent s a data) (.program a data))
        else .fault .outsideArray
      else .next (programSent s a data) := by
  have ho := opcodes_distinct hc
  obtain ⟨hsum, -⟩ := chunkSizes_spec s.cfg.maxXfer (config_bounds hc).2.2.2.2.1 data.length
    data.length le_rfl
  have hdev := headed_dev s s.cfg.var.opProgram a
  have hch := programChunks_eq (chunkSizes s.cfg.maxXfer data.length data.length) data
    (((headed s s.cfg.var.opProgram a).setOff 0).setPhase .transfer)
    (addrBytes a) hc rfl hx (congrArg Dev.rx hdev) rfl hsum
  have hdt := headed_hearAll s s.cfg.var.opProgram a data
  have hlen : (header s.cfg.var.opProgram a ++ data).length + 2 = data.length + 6 := by
    simp [header_length]; omega
  rw [hlen] at hdt
  unfold cmdProgram
  rw [transactData_of hcs hx ho.2.1.2.1 ho.2.1.2.2.1 hch rfl hx]
  have hfb : freeBytes s.draws (4 + data.length) =
      freeBytes s.draws 4 ++ freeBytes (s.draws + 4) data.length := by
    simp [freeBytes, List.range_add, Nat.add_assoc, Function.comp_def]
  have hz : List.zipWith WireEvent.byte (header s.cfg.var.opProgram a ++ data)
        (freeBytes s.draws (4 + data.length)) =
      List.zipWith WireEvent.byte (header s.cfg.var.opProgram a) (freeBytes s.draws 4) ++
      List.zipWith WireEvent.byte data (freeBytes (s.draws + 4) data.length) := by
    rw [hfb]; exact List.zipWith_append (by simp [header_length])
  generalize hm : engineTick _ = m
  have hmd : m.dev = (s.dev.ticks s.cfg (data.length + 6)).onBus
      (header s.cfg.var.opProgram a ++ data) (wip (s.dev.ticks s.cfg 2).sr) := by
    rw [← hm]; exact hdt
  have hmc : m.cfg = s.cfg := by rw [← hm]; rfl
  have hraise : raisedCs m = programSent s a data := by
    unfold raisedCs
    rw [hmd, ← hm]
    simp only [programSent, closed, hz, hlen]
    simp [engineTick, State.setDev, headed, shifted, selected, State.setPhase, State.setOff,
      State.setCapture, hcs, Nat.add_assoc, Dev.silence_eq]
  rw [deviceActs_program (a := a) (data := data) (hmc ▸ hc) (by rw [hmd, hmc]; rfl), hmd, hmc,
    acceptsUpdates_onBus]
  split
  · split
    · rw [andThen_next, raisedCs_strayEffect, hraise]
    · split
      · rw [andThen_next, raisedCs_accept, hraise]
      · rfl
  · rw [andThen_next, hraise]

/-- The state after an erase transaction, when the device has not yet acted on it. -/
def eraseSent (s : State) (a : Addr24) : State :=
  (closed s (header s.cfg.var.opErase a) (freeBytes s.draws 4) 4).setCapture []

/-- CMD_ERASE when the bus is free: the device, as it is when chip-select rises, takes the erase or
ignores it (42 R102, 20 R60). -/
theorem cmdErase_eq {s : State} (a : Addr24) (hc : s.cfg.wf = true)
    (hcs : s.ctrl.cs = .deasserted) (hx : s.ctrl.xferActive = false) :
    cmdErase a s =
      if acceptsUpdates (s.dev.ticks s.cfg 6) = true then
        if a.toNat < s.cfg.geo.totalSize then .next (accept (eraseSent s a) (.erase a))
        else .fault .outsideArray
      else .next (eraseSent s a) := by
  have ho := opcodes_distinct hc
  unfold cmdErase
  have hu := deviceActs_erase (s := (sent s (header s.cfg.var.opErase a) (freeBytes s.draws 4)
    4).setCapture []) (a := a) (more := []) hc rfl
  rw [header_eq, transact_of (rs := freeBytes s.draws 4) (k := 4) hcs hx ?_, ← header_eq,
    txBytes_zero, List.take_zero, hu]
  · have hr : raisedCs ((sent s (header s.cfg.var.opErase a) (freeBytes s.draws 4) 4).setCapture
        []) = eraseSent s a := congrArg (·.setCapture []) (raisedCs_sent hcs _ _ _)
    rw [show acceptsUpdates ((sent s (header s.cfg.var.opErase a) (freeBytes s.draws 4)
      4).setCapture []).dev = acceptsUpdates (s.dev.ticks s.cfg 6) from rfl,
      show ((sent s (header s.cfg.var.opErase a) (freeBytes s.draws 4)
      4).setCapture []).cfg = s.cfg from rfl]
    split
    · split
      · rw [andThen_next, raisedCs_accept, hr]
      · rfl
    · rw [andThen_next, hr]
  · rw [← header_eq]
    exact (exchangeIn_of_shift (s := selected s) (rs := freeBytes s.draws 4) (k := 4) rfl hx
      (shiftBytes_header (s := s) ho.2.2.1.1 ho.2.2.1.2.1)).trans
      (if_neg (readPastEnd_header s _ a))

end Sys2Proof.Machine
end

