-- ==== Sys2Proof/Laws/Decode.lean ====
section
/-! SUPPORT. The laws of the codec: the address bytes and the address name each other, and a frame's
length under its format. -/

namespace Sys2Proof

/-- The three address bytes of the address that three bytes name are those bytes (30 R64, R66). -/
theorem addrBytes_addrOfBytes (a2 a1 a0 : Byte) :
    addrBytes (addrOfBytes a2 a1 a0) = [a2, a1, a0] := by
  simp only [addrBytes, addrOfBytes, List.cons.injEq, and_true]
  refine ⟨?_, ?_, ?_⟩ <;> ext i hi <;>
    simp only [BitVec.getElem_extractLsb', BitVec.getLsbD_append]
  · rw [if_neg (by omega), if_neg (by omega), ← BitVec.getLsbD_eq_getElem]
    congr 1; omega
  · rw [if_neg (by omega), if_pos (by omega), ← BitVec.getLsbD_eq_getElem]
    congr 1; omega
  · rw [if_pos (by omega), ← BitVec.getLsbD_eq_getElem]
    congr 1; omega

end Sys2Proof
end

