-- ==== Sys2Proof/Laws/Inversion.lean ====
section
/-! SUPPORT. Everything a wire command can do when it answers a next state, from any state: the state
it was in and the state it leaves, in closed form. -/

namespace Sys2Proof.Machine

/-! ### A transaction starts with the bus free -/

theorem csAssert_starts {s t : State} (h : csAssert (s.setPhase .select) = .next t) :
    s.ctrl.cs = .deasserted ∧ s.ctrl.xferActive = false := by
  obtain ⟨h1, h2, -⟩ := csAssert_eq_next h
  exact ⟨h1, h2⟩

theorem transact_starts {w : List Byte} {n : Nat} {s t : State} (h : transact w n s = .next t) :
    s.ctrl.cs = .deasserted ∧ s.ctrl.xferActive = false := by
  simp only [transact, andThen_eq_next] at h
  obtain ⟨a, ha, -⟩ := h
  exact csAssert_starts ha

theorem transactData_starts {hdr : List Byte} {data : State → Res State} {s t : State}
    (h : transactData hdr data s = .next t) :
    s.ctrl.cs = .deasserted ∧ s.ctrl.xferActive = false := by
  simp only [transactData, andThen_eq_next] at h
  obtain ⟨a, ha, -⟩ := h
  exact csAssert_starts ha

/-! ### CMD_STATUS -/

/-- The state after a status transaction. -/
def statusDone (s : State) : State :=
  (closed s [s.cfg.var.opStatus, s.cfg.txFill]
    [Config.freeByte s.draws, (s.dev.ticks s.cfg 3).sr] 1).setCapture
      [Config.freeByte s.draws, (s.dev.ticks s.cfg 3).sr]

theorem cmdStatus_done {s : State} (hcs : s.ctrl.cs = .deasserted)
    (hx : s.ctrl.xferActive = false) : cmdStatus s = .next (statusDone s) := cmdStatus_eq hcs hx

theorem cmdStatus_next {s t : State} (h : cmdStatus s = .next t) :
    s.ctrl.cs = .deasserted ∧ s.ctrl.xferActive = false ∧ t = statusDone s := by
  obtain ⟨hcs, hx⟩ := transact_starts h
  rw [cmdStatus_done hcs hx] at h
  simp only [Host.Outcome.next.injEq] at h
  exact ⟨hcs, hx, h.symm⟩

@[simp] theorem statusDone_cfg (s : State) : (statusDone s).cfg = s.cfg := rfl
@[simp] theorem statusDone_x (s : State) : (statusDone s).x = s.x := rfl
@[simp] theorem statusDone_src (s : State) : (statusDone s).src = s.src := rfl
@[simp] theorem statusDone_dst (s : State) : (statusDone s).dst = s.dst := rfl
@[simp] theorem statusDone_program (s : State) : (statusDone s).program = s.program := rfl
@[simp] theorem statusDone_draws (s : State) : (statusDone s).draws = s.draws + 1 := rfl
@[simp] theorem statusDone_dev (s : State) :
    (statusDone s).dev = (s.dev.ticks s.cfg 4).onBus [] false := rfl
@[simp] theorem statusDone_ctrl (s : State) :
    (statusDone s).ctrl = { s.ctrl with phase := .deselect } := rfl
@[simp] theorem statusDone_capturedStatus (s : State) :
    (statusDone s).capturedStatus = (s.dev.ticks s.cfg 3).sr := rfl
@[simp] theorem statusDone_sawWip (s : State) :
    (statusDone s).sawWip = wip (s.dev.ticks s.cfg 3).sr := rfl
@[simp] theorem statusDone_sawWel (s : State) :
    (statusDone s).sawWel = wel (s.dev.ticks s.cfg 3).sr := rfl

/-! ### CMD_WREN -/

/-- The state after a write-enable transaction. -/
def wrenDone (s : State) : State :=
  wrenEffect ((closed s [s.cfg.var.opWren] [Config.freeByte s.draws] 1).setCapture [])

theorem cmdWren_done {s : State} (hc : s.cfg.wf = true) (hcs : s.ctrl.cs = .deasserted)
    (hx : s.ctrl.xferActive = false) : cmdWren s = .next (wrenDone s) := cmdWren_eq hc hcs hx

theorem cmdWren_next {s t : State} (hc : s.cfg.wf = true) (h : cmdWren s = .next t) :
    s.ctrl.cs = .deasserted ∧ s.ctrl.xferActive = false ∧ t = wrenDone s := by
  obtain ⟨hcs, hx⟩ := transact_starts h
  rw [cmdWren_done hc hcs hx] at h
  simp only [Host.Outcome.next.injEq] at h
  exact ⟨hcs, hx, h.symm⟩

/-- What write-enable leaves: everything as the engine has moved it but `WEL`, the trace and the count
of free values. -/
theorem wrenDone_eq (s : State) :
    ∃ sr k, wrenDone s =
      { closed s [s.cfg.var.opWren] [Config.freeByte s.draws] k with
        capture := []
        dev := { (s.dev.ticks s.cfg 3).onBus [] false with sr := sr } } ∧
      wip sr = wip (s.dev.ticks s.cfg 3).sr ∧
      (∀ j, 2 ≤ j → sr.getLsbD j = (s.dev.ticks s.cfg 3).sr.getLsbD j) ∧
      (wel (s.dev.ticks s.cfg 3).sr = true → wel sr = true) ∧
      (s.dev.profile.latch = .stuck → sr = (s.dev.ticks s.cfg 3).sr) ∧
      (s.dev.profile.latch = .sets → wip (s.dev.ticks s.cfg 3).sr = false → wel sr = true) ∧
      (s.dev.profile.latch = .unstated →
        wel sr = (wel (s.dev.ticks s.cfg 3).sr || Config.freeBit (s.draws + 1))) := by
  have hp : ((closed s [s.cfg.var.opWren] [Config.freeByte s.draws] 1).setCapture
      []).dev.profile = s.dev.profile := (Dev.ticks_frame s.cfg 3 s.dev).2.2.2.2.2.1
  have hs : ((closed s [s.cfg.var.opWren] [Config.freeByte s.draws] 1).setCapture [])
      = { closed s [s.cfg.var.opWren] [Config.freeByte s.draws] 1 with
          capture := []
          dev := { (s.dev.ticks s.cfg 3).onBus [] false with
            sr := (s.dev.ticks s.cfg 3).sr } } := rfl
  unfold wrenDone wrenEffect
  rw [hp]
  cases hl : s.dev.profile.latch
  · by_cases hw : wip (s.dev.ticks s.cfg 3).sr = true
    · refine ⟨(s.dev.ticks s.cfg 3).sr, 1, ?_, rfl, fun _ _ => rfl, fun h => h, fun _ => rfl, ?_,
        by simp⟩
      · exact if_pos hw
      · intro _ h; simp [h] at hw
    · refine ⟨withWel (s.dev.ticks s.cfg 3).sr true, 1, ?_, by simp, ?_, by simp, by simp, by simp,
        by simp⟩
      · exact if_neg hw
      · intro j hj; exact getLsbD_withWel _ _ _ (by omega)
  · exact ⟨(s.dev.ticks s.cfg 3).sr, 1, rfl, rfl, fun _ _ => rfl, fun h => h, fun _ => rfl,
      by simp, by simp⟩
  · refine ⟨withWel (s.dev.ticks s.cfg 3).sr (wel (s.dev.ticks s.cfg 3).sr ||
      Config.freeBit (s.draws + 1)), 2, rfl, by simp, ?_, ?_, by simp, by simp, by simp⟩
    · intro j hj; exact getLsbD_withWel _ _ _ (by omega)
    · intro h; simp [h]

@[simp] theorem wrenDone_cfg (s : State) : (wrenDone s).cfg = s.cfg := by
  obtain ⟨sr, k, h, -⟩ := wrenDone_eq s; rw [h]; rfl
@[simp] theorem wrenDone_x (s : State) : (wrenDone s).x = s.x := by
  obtain ⟨sr, k, h, -⟩ := wrenDone_eq s; rw [h]; rfl
@[simp] theorem wrenDone_src (s : State) : (wrenDone s).src = s.src := by
  obtain ⟨sr, k, h, -⟩ := wrenDone_eq s; rw [h]; rfl
@[simp] theorem wrenDone_dst (s : State) : (wrenDone s).dst = s.dst := by
  obtain ⟨sr, k, h, -⟩ := wrenDone_eq s; rw [h]; rfl
@[simp] theorem wrenDone_program (s : State) : (wrenDone s).program = s.program := by
  obtain ⟨sr, k, h, -⟩ := wrenDone_eq s; rw [h]; rfl
@[simp] theorem wrenDone_ctrl (s : State) :
    (wrenDone s).ctrl = { s.ctrl with phase := .deselect } := by
  obtain ⟨sr, k, h, -⟩ := wrenDone_eq s; rw [h]; rfl
@[simp] theorem wrenDone_wip (s : State) :
    wip (wrenDone s).dev.sr = wip (s.dev.ticks s.cfg 3).sr := by
  obtain ⟨sr, k, h, h1, -⟩ := wrenDone_eq s; rw [h]; exact h1
theorem wrenDone_dev (s : State) :
    (wrenDone s).dev =
      { (s.dev.ticks s.cfg 3).onBus [] false with sr := (wrenDone s).dev.sr } := by
  obtain ⟨sr, k, h, -⟩ := wrenDone_eq s; rw [h]

/-! ### CMD_IDENTIFY, CMD_READ, CMD_PROGRAM, CMD_ERASE -/

/-- The state after an identify transaction that captured `rs`. -/
def identifyDone (s : State) (rs : List Byte) (k : Nat) : State :=
  (closed s [s.cfg.var.opIdentify, s.cfg.txFill, s.cfg.txFill, s.cfg.txFill] rs k).setCapture rs

theorem cmdIdentify_next {s t : State} (hc : s.cfg.wf = true) (h : cmdIdentify s = .next t) :
    s.ctrl.cs = .deasserted ∧ s.ctrl.xferActive = false ∧ ∃ rs k, rs.length = 4 ∧
      t = identifyDone s rs k := by
  obtain ⟨hcs, hx⟩ := transact_starts h
  obtain ⟨rs, k, hl, -, he⟩ := cmdIdentify_eq hc hcs hx
  rw [he] at h
  simp only [Host.Outcome.next.injEq] at h
  exact ⟨hcs, hx, rs, k, hl, h.symm⟩

theorem cmdRead_next {a : Addr24} {n : Nat} {s t : State} (hc : s.cfg.wf = true)
    (h : cmdRead a n s = .next t) :
    s.ctrl.cs = .deasserted ∧ s.ctrl.xferActive = false ∧
      ∃ rs k cap, rs.length = n ∧
        (wip (s.dev.ticks s.cfg 2).sr = false → (s.dev.ticks s.cfg 5).pending = none →
          rs = (s.dev.ticks s.cfg 5).array.readBytes a.toNat n) ∧
        t = readDone s a rs k cap := by
  obtain ⟨hcs, hx⟩ := transactData_starts h
  obtain ⟨rs, k, cap, hl, hb, he⟩ := cmdRead_eq a n hc hcs hx
  rw [he] at h
  split at h
  · simp only [Host.Outcome.next.injEq] at h
    exact ⟨hcs, hx, rs, k, cap, hl, hb, h.symm⟩
  · simp at h

theorem cmdProgram_next {a : Addr24} {data : List Byte} {s t : State} (hc : s.cfg.wf = true)
    (h : cmdProgram a data s = .next t) :
    s.ctrl.cs = .deasserted ∧ s.ctrl.xferActive = false ∧
      ((acceptsUpdates (s.dev.ticks s.cfg (data.length + 6)) = false ∧ t = programSent s a data) ∨
      (acceptsUpdates (s.dev.ticks s.cfg (data.length + 6)) = true ∧ data ≠ [] ∧
        programInArray s.cfg.geo a.toNat data.length = true ∧
        t = accept (programSent s a data) (.program a data)) ∨
      (data = [] ∧ t = strayEffect (programSent s a data))) := by
  obtain ⟨hcs, hx⟩ := transactData_starts h
  rw [cmdProgram_eq a data hc hcs hx] at h
  refine ⟨hcs, hx, ?_⟩
  split at h
  · next ha =>
    split at h
    · next hd =>
      simp only [Host.Outcome.next.injEq] at h
      exact .inr (.inr ⟨hd, h.symm⟩)
    · next hd =>
      split at h
      · next hin =>
        simp only [Host.Outcome.next.injEq] at h
        exact .inr (.inl ⟨ha, hd, hin, h.symm⟩)
      · simp at h
  · next ha =>
    simp only [Host.Outcome.next.injEq] at h
    exact .inl ⟨by simpa using ha, h.symm⟩

theorem cmdErase_next {a : Addr24} {s t : State} (hc : s.cfg.wf = true)
    (h : cmdErase a s = .next t) :
    s.ctrl.cs = .deasserted ∧ s.ctrl.xferActive = false ∧
      ((acceptsUpdates (s.dev.ticks s.cfg 6) = false ∧ t = eraseSent s a) ∨
      (acceptsUpdates (s.dev.ticks s.cfg 6) = true ∧ a.toNat < s.cfg.geo.totalSize ∧
        t = accept (eraseSent s a) (.erase a))) := by
  obtain ⟨hcs, hx⟩ := transact_starts h
  rw [cmdErase_eq a hc hcs hx] at h
  refine ⟨hcs, hx, ?_⟩
  split at h
  · next ha =>
    split at h
    · next hin =>
      simp only [Host.Outcome.next.injEq] at h
      exact .inr ⟨ha, hin, h.symm⟩
    · simp at h
  · next ha =>
    simp only [Host.Outcome.next.injEq] at h
    exact .inl ⟨by simpa using ha, h.symm⟩

theorem programSent_dev (s : State) (a : Addr24) (data : List Byte) :
    (programSent s a data).dev = (s.dev.ticks s.cfg (data.length + 6)).onBus [] false := by
  rw [show data.length + 6 = (header s.cfg.var.opProgram a ++ data).length + 2 by
    simp [header_length]; omega]
  rfl

theorem eraseSent_dev (s : State) (a : Addr24) :
    (eraseSent s a).dev = (s.dev.ticks s.cfg 6).onBus [] false := rfl

theorem readDone_dev (s : State) (a : Addr24) (rs : List Byte) (k : Nat) (cap : List Byte) :
    (readDone s a rs k cap).dev = (s.dev.ticks s.cfg (rs.length + 6)).onBus [] false := by
  rw [show rs.length + 6 = (header s.cfg.var.opRead a ++
    List.replicate rs.length s.cfg.txFill).length + 2 by simp [header_length]; omega]
  rfl

end Sys2Proof.Machine
end

