-- ==== Sys2Proof/Laws/Wire.lean ====
section
/-! SUPPORT. The laws of the wire trace: levels and frames of traces put together, and what one whole
transaction adds. -/

namespace Sys2Proof.Machine

theorem levelAfter_append (es : List WireEvent) : ∀ (l : CsLevel) (fs : List WireEvent),
    levelAfter l (es ++ fs) = (levelAfter l es).bind fun m => levelAfter m fs := by
  induction es with
  | nil => intro l fs; cases l <;> rfl
  | cons e es ih =>
    intro l fs
    cases l <;> cases e <;> simp [levelAfter, ih]

theorem levelAfter_bytes (tx : List Byte) : ∀ rx : List Byte,
    levelAfter .asserted (List.zipWith WireEvent.byte tx rx) = some .asserted := by
  induction tx with
  | nil => intro rx; rfl
  | cons b tx ih =>
    intro rx
    cases rx with
    | nil => rfl
    | cons c rx => simpa [levelAfter] using ih rx

theorem splitFrames_bytes (tx : List Byte) : ∀ (rx : List Byte) (es : List WireEvent),
    rx.length = tx.length →
    splitFrames (List.zipWith WireEvent.byte tx rx ++ es) =
      (tx ++ (splitFrames es).1, (splitFrames es).2) := by
  induction tx with
  | nil => intro rx es _; simp
  | cons b tx ih =>
    intro rx es h
    cases rx with
    | nil => simp at h
    | cons c rx => simp [splitFrames, ih rx es (by simpa using h)]

/-- After whole transactions no byte is left over, and the frames of two runs are put together. -/
theorem splitFrames_append (es : List WireEvent) : ∀ (l : CsLevel) (fs : List WireEvent),
    levelAfter l es = some .deasserted → (splitFrames fs).1 = [] →
    splitFrames (es ++ fs) = ((splitFrames es).1, (splitFrames es).2 ++ (splitFrames fs).2) := by
  induction es with
  | nil => intro l fs _ h; simp [splitFrames, ← h]
  | cons e es ih =>
    intro l fs hl hf
    cases l <;> cases e <;> simp [levelAfter] at hl <;> simp [splitFrames, ih _ _ hl hf]

theorem splitFrames_start (es : List WireEvent) {l : CsLevel}
    (h : levelAfter .deasserted es = some l) : (splitFrames es).1 = [] := by
  cases es with
  | nil => rfl
  | cons e es => cases e <;> simp [levelAfter] at h <;> simp [splitFrames]

/-- One whole transaction. -/
theorem levelAfter_transaction (tx rx : List Byte) :
    levelAfter .deasserted ([.csDown] ++ List.zipWith WireEvent.byte tx rx ++ [.csUp]) =
      some .deasserted := by
  rw [levelAfter_append, levelAfter_append]
  simp [levelAfter, levelAfter_bytes]

theorem sentFrames_transaction (tx rx : List Byte) (h : rx.length = tx.length) :
    sentFrames ([.csDown] ++ List.zipWith WireEvent.byte tx rx ++ [.csUp]) = [tx] := by
  simp [sentFrames, splitFrames, splitFrames_bytes _ _ _ h]

/-! ### What was sent from one state to another -/

theorem sends_nil {s t : State} (h : t.trace = s.trace) : sends s t [] :=
  ⟨[], by simpa [newEvents] using h, rfl, rfl⟩

/-- A transaction sent its bytes as one frame. -/
theorem sends_one {s t : State} {tx rx : List Byte}
    (h : t.trace = s.trace ++ ([.csDown] ++ List.zipWith WireEvent.byte tx rx ++ [.csUp]))
    (hl : rx.length = tx.length) : sends s t [tx] :=
  ⟨_, h, levelAfter_transaction tx rx, sentFrames_transaction tx rx hl⟩

theorem sends_trans {s t u : State} {f g : List (List Byte)} (h : sends s t f) (k : sends t u g) :
    sends s u (f ++ g) := by
  obtain ⟨es, h1, h2, rfl⟩ := h
  obtain ⟨fs, k1, k2, rfl⟩ := k
  refine ⟨es ++ fs, ?_, ?_, ?_⟩
  · simp only [newEvents] at *
    rw [k1, h1, List.append_assoc]
  · simp only [wholeTransactions] at *
    rw [levelAfter_append, h2]
    exact k2
  · simp only [sentFrames, wholeTransactions] at *
    rw [splitFrames_append es _ fs h2 (splitFrames_start fs k2)]

theorem sends_congr {s s' t t' : State} {f : List (List Byte)} (h : sends s t f)
    (hs : s'.trace = s.trace) (ht : t'.trace = t.trace) : sends s' t' f := by
  obtain ⟨es, h1, h2⟩ := h
  exact ⟨es, by simpa [newEvents, hs, ht] using h1, h2⟩

/-- Whole transactions keep the level of the trace. -/
theorem sends_level {s t : State} {f : List (List Byte)} (h : sends s t f)
    (hs : levelAfter .deasserted s.trace = some .deasserted) :
    levelAfter .deasserted t.trace = some .deasserted := by
  obtain ⟨es, h1, h2, -⟩ := h
  simp only [newEvents] at h1
  rw [h1, levelAfter_append, hs]
  exact h2

end Sys2Proof.Machine
end

