-- ==== Sys2Proof/Laws/HostOps.lean ====
section
/-! SUPPORT. Everything a host operation can do when it answers a next state, path by path, from any
state; and what READ, WRITE and ERASE do at a device that the busy check found idle. -/

namespace Sys2Proof.Machine

/-! ### The checks -/

/-- The busy check goes by the status byte that the device drives at its third moment from now. -/
theorem unlessBusy_eq {s : State} (k : State → Res State) (hcs : s.ctrl.cs = .deasserted)
    (hx : s.ctrl.xferActive = false) :
    unlessBusy s k = if wip (s.dev.ticks s.cfg 3).sr = true then .next ((statusDone s).finish .busy)
      else k (statusDone s) := by
  rw [unlessBusy, busyCheck, cmdStatus_done hcs hx, andThen_next]
  rfl

theorem unlessBusy_eq_next {s t : State} {k : State → Res State} :
    unlessBusy s k = .next t ↔ s.ctrl.cs = .deasserted ∧ s.ctrl.xferActive = false ∧
      ((wip (s.dev.ticks s.cfg 3).sr = true ∧ t = (statusDone s).finish .busy) ∨
        (wip (s.dev.ticks s.cfg 3).sr = false ∧ k (statusDone s) = .next t)) := by
  constructor
  · intro h
    have h' := h
    simp only [unlessBusy, busyCheck, andThen_eq_next] at h'
    obtain ⟨a, ha, -⟩ := h'
    obtain ⟨hcs, hx, -⟩ := cmdStatus_next ha
    refine ⟨hcs, hx, ?_⟩
    rw [unlessBusy_eq k hcs hx] at h
    cases hw : wip (s.dev.ticks s.cfg 3).sr <;> simp [hw] at h
    · exact .inr ⟨rfl, h⟩
    · exact .inl ⟨rfl, h.symm⟩
  · rintro ⟨hcs, hx, h⟩
    rw [unlessBusy_eq k hcs hx]
    rcases h with ⟨hw, rfl⟩ | ⟨hw, h⟩ <;> simp [*]

/-- The state after a write-enable handshake. -/
def handshakeDone (s : State) : State := statusDone (wrenDone s)

theorem wrenHandshake_eq {s : State} (hc : s.cfg.wf = true) (hcs : s.ctrl.cs = .deasserted)
    (hx : s.ctrl.xferActive = false) : wrenHandshake s = .next (handshakeDone s) := by
  unfold wrenHandshake
  rw [cmdWren_done hc hcs hx, andThen_next]
  exact cmdStatus_done (s := wrenDone s) (by simp [hcs]) (by simp [hx])

theorem wrenHandshake_next {s t : State} (hc : s.cfg.wf = true) (h : wrenHandshake s = .next t) :
    s.ctrl.cs = .deasserted ∧ s.ctrl.xferActive = false ∧ t = handshakeDone s := by
  have h' := h
  simp only [wrenHandshake, andThen_eq_next] at h'
  obtain ⟨a, ha, -⟩ := h'
  obtain ⟨hcs, hx, -⟩ := cmdWren_next hc ha
  rw [wrenHandshake_eq hc hcs hx] at h
  simp only [Host.Outcome.next.injEq] at h
  exact ⟨hcs, hx, h.symm⟩

theorem whenEnabled_eq {s : State} (k : State → Res State) (hc : s.cfg.wf = true)
    (hcs : s.ctrl.cs = .deasserted) (hx : s.ctrl.xferActive = false) :
    whenEnabled s k = if (handshakeDone s).sawWel = true then k (handshakeDone s)
      else .next ((handshakeDone s).finish .writeEnableFailed) := by
  rw [whenEnabled, wrenHandshake_eq hc hcs hx, andThen_next]
  rfl

theorem whenEnabled_eq_next {s t : State} {k : State → Res State} (hc : s.cfg.wf = true) :
    whenEnabled s k = .next t ↔ s.ctrl.cs = .deasserted ∧ s.ctrl.xferActive = false ∧
      (((handshakeDone s).sawWel = false ∧
          t = (handshakeDone s).finish .writeEnableFailed) ∨
        ((handshakeDone s).sawWel = true ∧ k (handshakeDone s) = .next t)) := by
  constructor
  · intro h
    have h' := h
    simp only [whenEnabled, andThen_eq_next] at h'
    obtain ⟨a, ha, -⟩ := h'
    obtain ⟨hcs, hx, -⟩ := wrenHandshake_next hc ha
    refine ⟨hcs, hx, ?_⟩
    rw [whenEnabled_eq k hc hcs hx] at h
    cases hw : (handshakeDone s).sawWel <;> simp [hw] at h
    · exact .inl ⟨rfl, h.symm⟩
    · exact .inr ⟨rfl, h⟩
  · rintro ⟨hcs, hx, h⟩
    rw [whenEnabled_eq k hc hcs hx]
    rcases h with ⟨hw, rfl⟩ | ⟨hw, h⟩ <;> simp [*]

@[simp] theorem handshakeDone_cfg (s : State) : (handshakeDone s).cfg = s.cfg := by
  simp [handshakeDone]
@[simp] theorem handshakeDone_x (s : State) : (handshakeDone s).x = s.x := by
  simp [handshakeDone]
@[simp] theorem handshakeDone_src (s : State) : (handshakeDone s).src = s.src := by
  simp [handshakeDone]
@[simp] theorem handshakeDone_dst (s : State) : (handshakeDone s).dst = s.dst := by
  simp [handshakeDone]
@[simp] theorem handshakeDone_program (s : State) : (handshakeDone s).program = s.program := by
  simp [handshakeDone]
@[simp] theorem handshakeDone_ctrl (s : State) :
    (handshakeDone s).ctrl = { s.ctrl with phase := .deselect } := by
  simp [handshakeDone]

/-- The device after a handshake: the engine's moments, and the write-enable between them. -/
theorem handshakeDone_dev (s : State) :
    (handshakeDone s).dev =
      ({ (s.dev.ticks s.cfg 3) with sr := (wrenDone s).dev.sr }.ticks s.cfg 4).onBus [] false := by
  have h : (wrenDone s).dev =
      { s.dev.ticks s.cfg 3 with sr := (wrenDone s).dev.sr }.onBus [] false := wrenDone_dev s
  rw [handshakeDone, statusDone_dev, wrenDone_cfg]
  conv_lhs => rw [h]
  rw [Dev.ticks_onBus, Dev.onBus_onBus]

theorem handshakeDone_sawWel (s : State) :
    (handshakeDone s).sawWel =
      wel ({ (s.dev.ticks s.cfg 3) with sr := (wrenDone s).dev.sr }.ticks s.cfg 3).sr := by
  have h : (wrenDone s).dev =
      { s.dev.ticks s.cfg 3 with sr := (wrenDone s).dev.sr }.onBus [] false := wrenDone_dev s
  rw [handshakeDone, statusDone_sawWel, wrenDone_cfg]
  conv_lhs => rw [h]
  rw [Dev.ticks_onBus, Dev.onBus_sr]

/-! ### At a device found idle

With nothing pending at the moment of the busy check the engine does nothing more, and the handshake
reports the latch as the write-enable left it. -/

theorem statusDone_settled {s : State} (hp : (s.dev.ticks s.cfg 3).pending = none) :
    (statusDone s).dev = (s.dev.ticks s.cfg 3).onBus [] false := by
  rw [statusDone_dev, Dev.ticks_settled hp (by omega)]

theorem handshakeDone_settled {s : State} (hp : s.dev.pending = none) :
    (handshakeDone s).dev = { s.dev with sr := (wrenDone s).dev.sr }.onBus [] false ∧
      (handshakeDone s).sawWel = wel (wrenDone s).dev.sr := by
  have h : ∀ n, { s.dev with sr := (wrenDone s).dev.sr }.ticks s.cfg n =
      { s.dev with sr := (wrenDone s).dev.sr } := Dev.ticks_of_none _ hp
  rw [handshakeDone_dev, handshakeDone_sawWel, Dev.ticks_of_none _ hp, h, h]
  exact ⟨rfl, rfl⟩

/-! ### Zero lengths and counts -/

theorem zeroLength_eq_next {s t : State} (h : zeroLength s = .next t) :
    s.cfg.zeroLen = .succeed ∧ (t = s.finish .success ∨ t = s.finish .outOfRange) := by
  unfold zeroLength at h
  cases hz : s.cfg.zeroLen <;> simp only [hz] at h
  · simp at h
  · refine ⟨rfl, ?_⟩
    split at h <;> simp only [Host.Outcome.next.injEq] at h
    · exact .inl h.symm
    · exact .inr h.symm

theorem zeroCount_eq_next {s t : State} (h : zeroCount s = .next t) :
    s.cfg.zeroCount = .succeed ∧ (t = s.finish .success ∨ t = s.finish .outOfRange) := by
  unfold zeroCount at h
  cases hz : s.cfg.zeroCount <;> simp only [hz] at h
  · simp at h
  · refine ⟨rfl, ?_⟩
    split at h <;> simp only [Host.Outcome.next.injEq] at h
    · exact .inl h.symm
    · exact .inr h.symm

/-- Within reach of the address encoder nothing of an address is lost (30 R66, 40 R81). -/
theorem wireAddr_toNat {s : State} (h : s.addrNat < 2 ^ 24) : s.wireAddr.toNat = s.addrNat := by
  simp only [State.wireAddr, BitVec.toNat_setWidth]
  exact Nat.mod_eq_of_lt h

/-! ### READ -/

/-- READ of a range of the array within reach, once the bus is free: what the busy check decides. -/
theorem execRead_valid {s : State} (hc : s.cfg.wf = true) (hp : s.ctrl.phase = .idle)
    (hi : s.ctrl.initialised = true) (hcs : s.ctrl.cs = .deasserted)
    (hx : s.ctrl.xferActive = false) (h1 : 1 ≤ s.lenNat)
    (ht : s.addrNat + s.lenNat ≤ s.cfg.geo.totalSize) (h24 : s.addrNat + s.lenNat ≤ 2 ^ 24) :
    execRead s = if wip (s.dev.ticks s.cfg 3).sr = true then .next ((statusDone s).finish .busy)
      else andThen (cmdRead s.wireAddr s.lenNat (statusDone s)) fun u =>
        .next (u.finish .success) := by
  rw [execRead, requireReady_pass _ hc hp hi, if_neg (by omega), if_neg (by simp [validRead]; omega),
    if_neg (by simp [beyondReach]; omega), unlessBusy_eq _ hcs hx]
  rfl

/-- The ends of a READ that answers a next state: nothing was sent; the device was busy; or as many
bytes as asked for were read. -/
theorem execRead_next {s t : State} (h : execRead s = .next t) :
    s.cfg.wf = true ∧ s.ctrl.phase = .idle ∧ s.ctrl.initialised = true ∧
    ((s.lenNat = 0 ∧ s.cfg.zeroLen = .succeed ∧
        (t = s.finish .success ∨ t = s.finish .outOfRange)) ∨
      (s.lenNat ≠ 0 ∧ validRead s.cfg.geo s.addrNat s.lenNat = false ∧
        t = s.finish .outOfRange) ∨
      (s.lenNat ≠ 0 ∧ validRead s.cfg.geo s.addrNat s.lenNat = true ∧
        beyondReach s.addrNat s.lenNat = false ∧ s.ctrl.cs = .deasserted ∧
        s.ctrl.xferActive = false ∧ s.wireAddr.toNat = s.addrNat ∧
        ((wip (s.dev.ticks s.cfg 3).sr = true ∧ t = (statusDone s).finish .busy) ∨
          (wip (s.dev.ticks s.cfg 3).sr = false ∧ ∃ rs k cap, rs.length = s.lenNat ∧
            t = (readDone (statusDone s) s.wireAddr rs k cap).finish .success)))) := by
  unfold execRead at h
  rw [requireReady_eq_next] at h
  obtain ⟨hc, hp, hi, h⟩ := h
  refine ⟨hc, hp, hi, ?_⟩
  split at h
  · next h0 =>
    obtain ⟨hz, ht⟩ := zeroLength_eq_next h
    exact .inl ⟨h0, hz, ht⟩
  next h0 =>
  right
  cases hv : validRead s.cfg.geo s.addrNat s.lenNat <;> simp only [hv, Bool.not_false,
    Bool.not_true, if_true, Bool.false_eq_true, if_false] at h
  · simp only [Host.Outcome.next.injEq] at h
    exact .inl ⟨h0, rfl, h.symm⟩
  right
  cases hb : beyondReach s.addrNat s.lenNat <;> simp only [hb, if_true, Bool.false_eq_true,
    if_false] at h
  swap
  · simp at h
  rw [unlessBusy_eq_next] at h
  obtain ⟨hcs, hx, h⟩ := h
  have hva : s.wireAddr.toNat = s.addrNat := wireAddr_toNat (by
    simp only [beyondReach, decide_eq_false_iff_not] at hb; omega)
  refine ⟨h0, rfl, rfl, hcs, hx, hva, ?_⟩
  rcases h with ⟨hw, ht⟩ | ⟨hw, h⟩
  · exact .inl ⟨hw, ht⟩
  · rw [andThen_eq_next] at h
    obtain ⟨u, hu, h⟩ := h
    obtain ⟨-, -, rs, k, cap, hl, -, rfl⟩ := cmdRead_next (s := statusDone s) hc hu
    simp only [Host.Outcome.next.injEq] at h
    exact .inr ⟨hw, rs, k, cap, hl, h.symm⟩

/-- READ at a device that the busy check found idle, with nothing pending: `dst` takes the array's
bytes (44 R109). -/
theorem execRead_idle {s : State} (hc : s.cfg.wf = true) (hp : s.ctrl.phase = .idle)
    (hi : s.ctrl.initialised = true) (hcs : s.ctrl.cs = .deasserted)
    (hx : s.ctrl.xferActive = false) (h1 : 1 ≤ s.lenNat)
    (ht : s.addrNat + s.lenNat ≤ s.cfg.geo.totalSize) (h24 : s.addrNat + s.lenNat ≤ 2 ^ 24)
    (hw : wip (s.dev.ticks s.cfg 3).sr = false) (hn : (s.dev.ticks s.cfg 3).pending = none) :
    ∃ k cap, execRead s = .next ((readDone (statusDone s) s.wireAddr
      ((s.dev.ticks s.cfg 3).array.readBytes s.addrNat s.lenNat) k cap).finish .success) := by
  have hva : s.wireAddr.toNat = s.addrNat := wireAddr_toNat (by omega)
  have hd : ∀ n, (statusDone s).dev.ticks s.cfg n = (s.dev.ticks s.cfg 3).onBus [] false := by
    intro n
    rw [statusDone_settled hn, Dev.ticks_onBus, Dev.ticks_of_none _ hn]
  obtain ⟨rs, k, cap, -, hb, he⟩ := cmdRead_eq (s := statusDone s) s.wireAddr s.lenNat hc hcs hx
  simp only [statusDone_cfg, hd, Dev.onBus_sr, Dev.onBus_pending, Dev.onBus_array, hva] at hb he
  refine ⟨k, cap, ?_⟩
  rw [execRead_valid hc hp hi hcs hx h1 ht h24, if_neg (by simp [hw]), he,
    if_pos (.inr (.inr ht)), andThen_next, hb hw hn]

/-! ### WRITE -/

/-- WRITE inside a page of the array within reach, once the bus is free: what the two checks
decide. -/
theorem execWrite_valid {s : State} (hc : s.cfg.wf = true) (hp : s.ctrl.phase = .idle)
    (hi : s.ctrl.initialised = true) (hcs : s.ctrl.cs = .deasserted)
    (hx : s.ctrl.xferActive = false) (h1 : 1 ≤ s.lenNat)
    (hpg : s.addrNat % s.cfg.geo.pageSize + s.lenNat ≤ s.cfg.geo.pageSize)
    (ht : s.addrNat + s.lenNat ≤ s.cfg.geo.totalSize) (h24 : s.addrNat + s.lenNat ≤ 2 ^ 24) :
    execWrite s = if wip (s.dev.ticks s.cfg 3).sr = true then .next ((statusDone s).finish .busy)
      else if (handshakeDone (statusDone s)).sawWel = true then
        andThen (cmdProgram s.wireAddr (s.src.readBytes 0 s.lenNat) (handshakeDone (statusDone s)))
          fun u => .next (u.finish .success)
      else .next ((handshakeDone (statusDone s)).finish .writeEnableFailed) := by
  have hx1 : (handshakeDone (statusDone s)).wireAddr = s.wireAddr := by simp [State.wireAddr]
  have hx2 : (handshakeDone (statusDone s)).lenNat = s.lenNat := by simp [State.lenNat]
  rw [execWrite, requireReady_pass _ hc hp hi, if_neg (by omega),
    if_neg (by simp [validWrite]; omega), if_neg (by simp [beyondReach]; omega),
    unlessBusy_eq _ hcs hx, whenEnabled_eq (s := statusDone s) _ hc hcs hx]
  simp only [hx1, hx2, handshakeDone_src, statusDone_src]

/-- The ends of a WRITE that answers a next state: nothing was sent; the device was busy; its latch
was seen clear; or the program was sent, and the device ignored it or accepted it. -/
theorem execWrite_next {s t : State} (h : execWrite s = .next t) :
    s.cfg.wf = true ∧ s.ctrl.phase = .idle ∧ s.ctrl.initialised = true ∧
    ((s.lenNat = 0 ∧ s.cfg.zeroLen = .succeed ∧
        (t = s.finish .success ∨ t = s.finish .outOfRange)) ∨
      (s.lenNat ≠ 0 ∧ validWrite s.cfg.geo s.addrNat s.lenNat = false ∧
        t = s.finish .outOfRange) ∨
      (s.lenNat ≠ 0 ∧ validWrite s.cfg.geo s.addrNat s.lenNat = true ∧
        beyondReach s.addrNat s.lenNat = false ∧ s.ctrl.cs = .deasserted ∧
        s.ctrl.xferActive = false ∧ s.wireAddr.toNat = s.addrNat ∧
        ((wip (s.dev.ticks s.cfg 3).sr = true ∧ t = (statusDone s).finish .busy) ∨
          (wip (s.dev.ticks s.cfg 3).sr = false ∧
            (handshakeDone (statusDone s)).sawWel = false ∧
            t = (handshakeDone (statusDone s)).finish .writeEnableFailed) ∨
          (wip (s.dev.ticks s.cfg 3).sr = false ∧
            (handshakeDone (statusDone s)).sawWel = true ∧
            (t = (programSent (handshakeDone (statusDone s)) s.wireAddr
                (s.src.readBytes 0 s.lenNat)).finish .success ∨
              t = (accept (programSent (handshakeDone (statusDone s)) s.wireAddr
                (s.src.readBytes 0 s.lenNat)) (.program s.wireAddr
                (s.src.readBytes 0 s.lenNat))).finish .success))))) := by
  have h' := h
  unfold execWrite at h'
  rw [requireReady_eq_next] at h'
  obtain ⟨hc, hp, hi, h'⟩ := h'
  refine ⟨hc, hp, hi, ?_⟩
  split at h'
  · next h0 =>
    obtain ⟨hz, ht⟩ := zeroLength_eq_next h'
    exact .inl ⟨h0, hz, ht⟩
  next h0 =>
  right
  cases hv : validWrite s.cfg.geo s.addrNat s.lenNat <;> simp only [hv, Bool.not_false,
    Bool.not_true, if_true, Bool.false_eq_true, if_false] at h'
  · simp only [Host.Outcome.next.injEq] at h'
    exact .inl ⟨h0, rfl, h'.symm⟩
  right
  cases hb : beyondReach s.addrNat s.lenNat <;> simp only [hb, if_true, Bool.false_eq_true,
    if_false] at h'
  swap
  · simp at h'
  rw [unlessBusy_eq_next] at h'
  obtain ⟨hcs, hx, -⟩ := h'
  simp only [beyondReach, decide_eq_false_iff_not] at hb
  simp only [validWrite, Bool.and_eq_true, decide_eq_true_eq] at hv
  have hva : s.wireAddr.toNat = s.addrNat := wireAddr_toNat (by omega)
  refine ⟨h0, rfl, rfl, hcs, hx, hva, ?_⟩
  rw [execWrite_valid hc hp hi hcs hx (by omega) hv.1.2 hv.2 (by omega)] at h
  split at h
  · next hw =>
    simp only [Host.Outcome.next.injEq] at h
    exact .inl ⟨hw, h.symm⟩
  next hw =>
  right
  split at h
  · next hl =>
    rw [andThen_eq_next] at h
    obtain ⟨u, hu, h⟩ := h
    simp only [Host.Outcome.next.injEq] at h
    obtain ⟨-, -, ⟨-, rfl⟩ | ⟨-, -, -, rfl⟩ | ⟨hd, -⟩⟩ :=
      cmdProgram_next (s := handshakeDone (statusDone s)) (by simpa using hc) hu
    · exact .inr ⟨by simpa using hw, hl, .inl h.symm⟩
    · exact .inr ⟨by simpa using hw, hl, .inr h.symm⟩
    · exact absurd ((Memory.length_readBytes _ _ _).symm.trans (congrArg List.length hd)) h0
  · next hl =>
    simp only [Host.Outcome.next.injEq] at h
    exact .inl ⟨by simpa using hw, by simpa using hl, h.symm⟩

/-- WRITE at a device that the busy check found idle, with nothing pending: the latch decides, and a
set latch means that the program is accepted (45 R111, 42 R104). -/
theorem execWrite_idle {s : State} (hc : s.cfg.wf = true) (hp : s.ctrl.phase = .idle)
    (hi : s.ctrl.initialised = true) (hcs : s.ctrl.cs = .deasserted)
    (hx : s.ctrl.xferActive = false) (h1 : 1 ≤ s.lenNat)
    (hpg : s.addrNat % s.cfg.geo.pageSize + s.lenNat ≤ s.cfg.geo.pageSize)
    (ht : s.addrNat + s.lenNat ≤ s.cfg.geo.totalSize) (h24 : s.addrNat + s.lenNat ≤ 2 ^ 24)
    (hw : wip (s.dev.ticks s.cfg 3).sr = false) (hn : (s.dev.ticks s.cfg 3).pending = none) :
    execWrite s = if wel (wrenDone (statusDone s)).dev.sr = true then
      .next ((accept (programSent (handshakeDone (statusDone s)) s.wireAddr
        (s.src.readBytes 0 s.lenNat)) (.program s.wireAddr
        (s.src.readBytes 0 s.lenNat))).finish .success)
      else .next ((handshakeDone (statusDone s)).finish .writeEnableFailed) := by
  have hva : s.wireAddr.toNat = s.addrNat := wireAddr_toNat (by omega)
  have hsn : (statusDone s).dev.pending = none := by rw [statusDone_settled hn]; exact hn
  obtain ⟨hd, hl⟩ := handshakeDone_settled hsn
  rw [execWrite_valid hc hp hi hcs hx h1 hpg ht h24, if_neg (by simp [hw]), hl]
  by_cases hwl : wel (wrenDone (statusDone s)).dev.sr = true
  · have hacc : acceptsUpdates ((handshakeDone (statusDone s)).dev.ticks
        (handshakeDone (statusDone s)).cfg ((s.src.readBytes 0 s.lenNat).length + 6)) = true := by
      rw [hd, Dev.ticks_of_none _ (by exact hsn)]
      simp only [acceptsUpdates, Dev.onBus_sr, hwl, wrenDone_wip, statusDone_settled hn,
        statusDone_cfg, Dev.ticks_onBus, Dev.ticks_of_none _ hn, hw]
      rfl
    have hne : s.src.readBytes 0 s.lenNat ≠ [] := by
      intro h
      have := congrArg List.length h
      rw [Memory.length_readBytes, List.length_nil] at this
      omega
    rw [if_pos hwl, if_pos hwl, cmdProgram_eq _ _ (by simpa using hc) (by simpa using hcs)
      (by simpa using hx), if_pos hacc, if_neg hne, if_pos (by
        simp [programInArray, Memory.length_readBytes, hva, hpg, ht]), andThen_next]
  · rw [if_neg hwl, if_neg hwl]

/-! ### ERASE -/

/-- ERASE of an aligned block of the array within reach, once the bus is free: what the two checks
decide. -/
theorem execErase_valid {s : State} (hc : s.cfg.wf = true) (hp : s.ctrl.phase = .idle)
    (hi : s.ctrl.initialised = true) (hcs : s.ctrl.cs = .deasserted)
    (hx : s.ctrl.xferActive = false) (h1 : 1 ≤ s.countNat)
    (hal : s.addrNat % s.cfg.geo.eraseBlockSize = 0)
    (ht : s.addrNat + s.cfg.geo.eraseBlockSize ≤ s.cfg.geo.totalSize)
    (h24 : s.addrNat + s.cfg.geo.eraseBlockSize ≤ 2 ^ 24) :
    execErase s = if wip (s.dev.ticks s.cfg 3).sr = true then .next ((statusDone s).finish .busy)
      else if (handshakeDone (statusDone s)).sawWel = true then
        andThen (cmdErase s.wireAddr (handshakeDone (statusDone s)))
          fun u => .next ((advanceCursor u).finish .success)
      else .next ((handshakeDone (statusDone s)).finish .writeEnableFailed) := by
  have hbs := (config_bounds hc).2.1
  have hx1 : (handshakeDone (statusDone s)).wireAddr = s.wireAddr := by simp [State.wireAddr]
  rw [execErase, requireReady_pass _ hc hp hi, if_neg (by omega),
    if_neg (by simp [validErase]; omega), if_neg (by simp [beyondReach]; omega),
    unlessBusy_eq _ hcs hx, whenEnabled_eq (s := statusDone s) _ hc hcs hx]
  simp only [hx1]

/-- The ends of an ERASE that answers a next state: nothing was sent; the device was busy; its latch
was seen clear; or the erase was sent, the device ignored it or accepted it, and the cursor moved. -/
theorem execErase_next {s t : State} (h : execErase s = .next t) :
    s.cfg.wf = true ∧ s.ctrl.phase = .idle ∧ s.ctrl.initialised = true ∧
    ((s.countNat = 0 ∧ s.cfg.zeroCount = .succeed ∧
        (t = s.finish .success ∨ t = s.finish .outOfRange)) ∨
      (s.countNat ≠ 0 ∧ validErase s.cfg.geo s.addrNat = false ∧ t = s.finish .outOfRange) ∨
      (s.countNat ≠ 0 ∧ validErase s.cfg.geo s.addrNat = true ∧
        beyondReach s.addrNat s.cfg.geo.eraseBlockSize = false ∧ s.ctrl.cs = .deasserted ∧
        s.ctrl.xferActive = false ∧ s.wireAddr.toNat = s.addrNat ∧
        ((wip (s.dev.ticks s.cfg 3).sr = true ∧ t = (statusDone s).finish .busy) ∨
          (wip (s.dev.ticks s.cfg 3).sr = false ∧
            (handshakeDone (statusDone s)).sawWel = false ∧
            t = (handshakeDone (statusDone s)).finish .writeEnableFailed) ∨
          (wip (s.dev.ticks s.cfg 3).sr = false ∧
            (handshakeDone (statusDone s)).sawWel = true ∧
            (t = (advanceCursor (eraseSent (handshakeDone (statusDone s))
                s.wireAddr)).finish .success ∨
              t = (advanceCursor (accept (eraseSent (handshakeDone (statusDone s)) s.wireAddr)
                (.erase s.wireAddr))).finish .success))))) := by
  have h' := h
  unfold execErase at h'
  rw [requireReady_eq_next] at h'
  obtain ⟨hc, hp, hi, h'⟩ := h'
  refine ⟨hc, hp, hi, ?_⟩
  split at h'
  · next h0 =>
    obtain ⟨hz, ht⟩ := zeroCount_eq_next h'
    exact .inl ⟨h0, hz, ht⟩
  next h0 =>
  right
  cases hv : validErase s.cfg.geo s.addrNat <;> simp only [hv, Bool.not_false,
    Bool.not_true, if_true, Bool.false_eq_true, if_false] at h'
  · simp only [Host.Outcome.next.injEq] at h'
    exact .inl ⟨h0, rfl, h'.symm⟩
  right
  cases hb : beyondReach s.addrNat s.cfg.geo.eraseBlockSize <;>
    simp only [hb, if_true, Bool.false_eq_true, if_false] at h'
  swap
  · simp at h'
  rw [unlessBusy_eq_next] at h'
  obtain ⟨hcs, hx, -⟩ := h'
  have hbs := (config_bounds hc).2.1
  simp only [beyondReach, decide_eq_false_iff_not] at hb
  simp only [validErase, Bool.and_eq_true, decide_eq_true_eq] at hv
  have hva : s.wireAddr.toNat = s.addrNat := wireAddr_toNat (by omega)
  refine ⟨h0, rfl, rfl, hcs, hx, hva, ?_⟩
  rw [execErase_valid hc hp hi hcs hx (by omega) hv.1 hv.2 (by omega)] at h
  split at h
  · next hw =>
    simp only [Host.Outcome.next.injEq] at h
    exact .inl ⟨hw, h.symm⟩
  next hw =>
  right
  split at h
  · next hl =>
    rw [andThen_eq_next] at h
    obtain ⟨u, hu, h⟩ := h
    simp only [Host.Outcome.next.injEq] at h
    obtain ⟨-, -, ⟨-, rfl⟩ | ⟨-, -, rfl⟩⟩ :=
      cmdErase_next (s := handshakeDone (statusDone s)) (by simpa using hc) hu
    · exact .inr ⟨by simpa using hw, hl, .inl h.symm⟩
    · exact .inr ⟨by simpa using hw, hl, .inr h.symm⟩
  · next hl =>
    simp only [Host.Outcome.next.injEq] at h
    exact .inl ⟨by simpa using hw, by simpa using hl, h.symm⟩

/-- ERASE at a device that the busy check found idle, with nothing pending: the latch decides, and a
set latch means that the erase is accepted (46 R114, 42 R104). -/
theorem execErase_idle {s : State} (hc : s.cfg.wf = true) (hp : s.ctrl.phase = .idle)
    (hi : s.ctrl.initialised = true) (hcs : s.ctrl.cs = .deasserted)
    (hx : s.ctrl.xferActive = false) (h1 : 1 ≤ s.countNat)
    (hal : s.addrNat % s.cfg.geo.eraseBlockSize = 0)
    (ht : s.addrNat + s.cfg.geo.eraseBlockSize ≤ s.cfg.geo.totalSize)
    (h24 : s.addrNat + s.cfg.geo.eraseBlockSize ≤ 2 ^ 24)
    (hw : wip (s.dev.ticks s.cfg 3).sr = false) (hn : (s.dev.ticks s.cfg 3).pending = none) :
    execErase s = if wel (wrenDone (statusDone s)).dev.sr = true then
      .next ((advanceCursor (accept (eraseSent (handshakeDone (statusDone s)) s.wireAddr)
        (.erase s.wireAddr))).finish .success)
      else .next ((handshakeDone (statusDone s)).finish .writeEnableFailed) := by
  have hbs := (config_bounds hc).2.1
  have hva : s.wireAddr.toNat = s.addrNat := wireAddr_toNat (by omega)
  have hsn : (statusDone s).dev.pending = none := by rw [statusDone_settled hn]; exact hn
  obtain ⟨hd, hl⟩ := handshakeDone_settled hsn
  rw [execErase_valid hc hp hi hcs hx h1 hal ht h24, if_neg (by simp [hw]), hl]
  by_cases hwl : wel (wrenDone (statusDone s)).dev.sr = true
  · have hacc : acceptsUpdates ((handshakeDone (statusDone s)).dev.ticks
        (handshakeDone (statusDone s)).cfg 6) = true := by
      rw [hd, Dev.ticks_of_none _ (by exact hsn)]
      simp only [acceptsUpdates, Dev.onBus_sr, hwl, wrenDone_wip, statusDone_settled hn,
        statusDone_cfg, Dev.ticks_onBus, Dev.ticks_of_none _ hn, hw]
      rfl
    rw [if_pos hwl, if_pos hwl, cmdErase_eq _ (by simpa using hc) (by simpa using hcs)
      (by simpa using hx), if_pos hacc, if_pos (by
        simp only [handshakeDone_cfg, statusDone_cfg, hva]; omega), andThen_next]
  · rw [if_neg hwl, if_neg hwl]

/-! ### IS_BUSY, POLL, GET_GEOMETRY -/

/-- The state after IS_BUSY. -/
def queried (s : State) : State :=
  ((statusDone s).setBusy (wip (s.dev.ticks s.cfg 3).sr)).toIdle

theorem queryBusy_next {s t : State} (h : queryBusy s = .next t) :
    s.cfg.wf = true ∧ s.ctrl.phase = .idle ∧ s.ctrl.initialised = true ∧
      s.ctrl.cs = .deasserted ∧ s.ctrl.xferActive = false ∧ t = queried s := by
  unfold queryBusy at h
  rw [requireReady_eq_next] at h
  obtain ⟨hc, hp, hi, h⟩ := h
  rw [andThen_eq_next] at h
  obtain ⟨a, ha, h⟩ := h
  obtain ⟨hcs, hx, rfl⟩ := cmdStatus_next ha
  simp only [Host.Outcome.next.injEq] at h
  exact ⟨hc, hp, hi, hcs, hx, h.symm⟩

theorem queryBusy_eq {s : State} (hc : s.cfg.wf = true) (hp : s.ctrl.phase = .idle)
    (hi : s.ctrl.initialised = true) (hcs : s.ctrl.cs = .deasserted)
    (hx : s.ctrl.xferActive = false) : queryBusy s = .next (queried s) := by
  unfold queryBusy
  rw [requireReady_pass _ hc hp hi, cmdStatus_done hcs hx, andThen_next]
  rfl

/-- The state after one round of POLL. -/
def polled (s : State) : State :=
  (queried (s.setOp 4)).setProgram
    (if wip (s.dev.ticks s.cfg 3).sr = true then pollLine :: s.program else s.program)

theorem execPoll_eq {s : State} (hc : s.cfg.wf = true) (hp : s.ctrl.phase = .idle)
    (hi : s.ctrl.initialised = true) (hcs : s.ctrl.cs = .deasserted)
    (hx : s.ctrl.xferActive = false) : execPoll s = .next (polled s) := by
  rw [execPoll, queryBusy_eq (s := s.setOp 4) hc hp hi hcs hx, andThen_next]
  unfold polled
  rw [show (queried (s.setOp 4)).x.busy = wip (s.dev.ticks s.cfg 3).sr from rfl]
  cases wip (s.dev.ticks s.cfg 3).sr <;> rfl

theorem execPoll_next {s t : State} (h : execPoll s = .next t) :
    s.cfg.wf = true ∧ s.ctrl.phase = .idle ∧ s.ctrl.initialised = true ∧
      s.ctrl.cs = .deasserted ∧ s.ctrl.xferActive = false ∧ t = polled s := by
  have h' := h
  simp only [execPoll, andThen_eq_next] at h'
  obtain ⟨a, ha, -⟩ := h'
  obtain ⟨hc, hp, hi, hcs, hx, -⟩ := queryBusy_next ha
  refine ⟨hc, hp, hi, hcs, hx, ?_⟩
  rw [execPoll_eq (by exact hc) (by exact hp) (by exact hi) (by exact hcs) (by exact hx)] at h
  simpa using h.symm

theorem execGetGeometry_next {s t : State} (h : execGetGeometry s = .next t) :
    s.cfg.wf = true ∧ s.ctrl.phase = .idle ∧ t = (s.setGeo s.cfg.geo).toIdle := by
  simp only [execGetGeometry, requireConfig_eq_next, requireIdle_eq_next,
    Host.Outcome.next.injEq] at h
  exact ⟨h.1, h.2.1, h.2.2.symm⟩

/-! ### INIT -/

/-- The state of INIT after `k` identify transactions. -/
structure Identified (s t : State) (k : Nat) : Prop where
  cfg : t.cfg = s.cfg
  x : t.x = s.x
  src : t.src = s.src
  dst : t.dst = s.dst
  program : t.program = s.program
  dev : t.dev = (s.dev.ticks s.cfg (6 * k)).onBus t.dev.rx t.dev.ignoring
  rx : s.dev.rx = [] ∧ s.dev.ignoring = false ∨ 1 ≤ k → t.dev.rx = [] ∧ t.dev.ignoring = false
  ctrl : t.ctrl = { s.ctrl with phase := t.ctrl.phase, attempt := s.ctrl.attempt + k }
  sent : sends s t (List.replicate k
    [s.cfg.var.opIdentify, s.cfg.txFill, s.cfg.txFill, s.cfg.txFill])

/-- The device answers with the expected identity. -/
def rightChip (s : State) : Prop :=
  s.dev.id0 = s.cfg.var.id0 ∧ s.dev.id1 = s.cfg.var.id1 ∧ s.dev.id2 = s.cfg.var.id2

/-- One attempt of the identification loop. -/
theorem identified_one (s : State) (rs : List Byte) (k : Nat) (hl : rs.length = 4) :
    Identified s (identifyDone (s.setAttempt (s.ctrl.attempt + 1)) rs k) 1 := by
  refine ⟨rfl, rfl, rfl, rfl, rfl, rfl, fun _ => ⟨rfl, rfl⟩, rfl, ?_⟩
  exact sends_one (rx := rs) rfl (by simpa using hl)

theorem Identified.trans {s t u : State} {k : Nat} (h1 : Identified s t 1) (h : Identified t u k) :
    Identified s u (k + 1) where
  cfg := h.cfg.trans h1.cfg
  x := h.x.trans h1.x
  src := h.src.trans h1.src
  dst := h.dst.trans h1.dst
  program := h.program.trans h1.program
  dev := by
    conv_lhs => rw [h.dev, h1.cfg, h1.dev]
    rw [Dev.ticks_onBus, Dev.onBus_onBus, Dev.ticks_add]
    congr 2
    omega
  rx := fun _ => h.rx (.inl (h1.rx (.inr le_rfl)))
  ctrl := by rw [h.ctrl, h1.ctrl]; simp [Nat.add_comm, Nat.add_left_comm]
  sent := by
    have := sends_trans h1.sent h.sent
    rw [h1.cfg] at this
    rw [List.replicate_succ]
    exact this

/-- The identification loop always ends: at a match after at least one attempt, or unmatched after all
of them. A device that is idle when the first opcode comes, and that answers, decides which: at once
if its identity is the expected one, and never if it is not (43 R105, R106). -/
theorem identifyLoop_ends : ∀ (fuel : Nat) (s : State), s.cfg.wf = true →
    s.ctrl.cs = .deasserted → s.ctrl.xferActive = false →
    ∃ t b k, identifyLoop fuel s = .next (t, b) ∧ k ≤ fuel ∧ (b = false → k = fuel) ∧
      (b = true → 1 ≤ k) ∧ Identified s t k ∧
      (wip (s.dev.ticks s.cfg 2).sr = false → s.dev.profile.identifies = true →
        (rightChip s → 1 ≤ fuel → b = true ∧ k = 1) ∧ (¬ rightChip s → b = false)) := by
  intro fuel
  induction fuel with
  | zero =>
    intro s _ _ _
    exact ⟨s, false, 0, rfl, le_rfl, fun _ => rfl, by simp,
      ⟨rfl, rfl, rfl, rfl, rfl, rfl, fun h => h.elim id (by omega), rfl, sends_nil rfl⟩,
      fun _ _ => ⟨fun _ => by omega, fun _ => rfl⟩⟩
  | succ fuel ih =>
    intro s hc hcs hx
    obtain ⟨rs, d, hl, hid, he⟩ :=
      cmdIdentify_eq (s := s.setAttempt (s.ctrl.attempt + 1)) hc hcs hx
    have i1 := identified_one s rs d hl
    have hm : (identifyDone (s.setAttempt (s.ctrl.attempt + 1)) rs d).identityMatches = true ↔
        rs.getD 1 0 = s.cfg.var.id0 ∧ rs.getD 2 0 = s.cfg.var.id1 ∧
          rs.getD 3 0 = s.cfg.var.id2 := by
      simp [State.identityMatches, identifyDone, closed, and_assoc]
    have hchip : wip (s.dev.ticks s.cfg 2).sr = false → s.dev.profile.identifies = true →
        ((identifyDone (s.setAttempt (s.ctrl.attempt + 1)) rs d).identityMatches = true ↔
          rightChip s) := by
      intro hw hi
      obtain ⟨h0, h1, h2⟩ := hid hw hi
      rw [hm, h0, h1, h2]
      rfl
    simp only [identifyLoop]
    rw [show cmdIdentify (s.setAttempt (s.ctrl.attempt + 1)) =
      .next (identifyDone (s.setAttempt (s.ctrl.attempt + 1)) rs d) from he, andThen_next]
    split
    · next hmatch =>
      exact ⟨_, true, 1, rfl, by omega, by simp, by simp, i1, fun hw hi =>
        ⟨fun _ _ => ⟨rfl, rfl⟩, fun hr => absurd ((hchip hw hi).1 hmatch) hr⟩⟩
    · next hmatch =>
      obtain ⟨t, b, k, hk, hkf, hb, -, i2, hc2⟩ :=
        ih (identifyDone (s.setAttempt (s.ctrl.attempt + 1)) rs d) hc hcs hx
      refine ⟨t, b, k + 1, hk, by omega, fun h => by rw [hb h], fun _ => by omega, i1.trans i2, ?_⟩
      intro hw hi
      refine ⟨fun hr _ => absurd ((hchip hw hi).2 hr) hmatch, fun hr => ?_⟩
      have hdev : (identifyDone (s.setAttempt (s.ctrl.attempt + 1)) rs d).dev =
          (s.dev.ticks s.cfg 6).onBus [] false := rfl
      have hrc : rightChip (identifyDone (s.setAttempt (s.ctrl.attempt + 1)) rs d) ↔
          rightChip s := by
        unfold rightChip
        rw [hdev]
        simp [identifyDone, closed]
      refine (hc2 ?_ ?_).2 (fun h => hr (hrc.1 h))
      · rw [hdev, show (identifyDone (s.setAttempt (s.ctrl.attempt + 1)) rs d).cfg = s.cfg from rfl,
          Dev.ticks_onBus, Dev.onBus_sr, Dev.ticks_add,
          show 6 + 2 = 2 + 6 from rfl, ← Dev.ticks_add]
        exact Dev.ticks_wip _ _ hw
      · rw [hdev]; simpa using hi

/-- Everything INIT can do when it answers a next state: after at least one and at most
`ID_RETRY_MAX` identify transactions the block is initialised with Success, or not with
IdentificationFailed (43 R105, R106). -/
theorem execInit_next {s t : State} (h : execInit s = .next t) :
    s.cfg.wf = true ∧ s.ctrl.phase = .idle ∧ s.cfg.destructiveTest = false ∧
    ∃ u b, identifyLoop s.cfg.idRetryMax (configureTransport s) = .next (u, b) ∧
      t = (if b then (u.setInitialised true).finish .success
        else u.finish .identificationFailed) := by
  unfold execInit at h
  simp only [requireConfig_eq_next, requireIdle_eq_next] at h
  obtain ⟨hc, hp, h⟩ := h
  cases hd : s.cfg.destructiveTest <;> simp only [hd, if_true, Bool.false_eq_true, if_false] at h
  swap
  · simp at h
  rw [andThen_eq_next] at h
  obtain ⟨⟨u, b⟩, hu, h⟩ := h
  refine ⟨hc, hp, rfl, u, b, hu, ?_⟩
  cases b <;> simp [State.raise_eq] at h ⊢ <;> exact h.symm

/-- INIT that answers a next state has found no exchange active. -/
theorem execInit_xfer {s t : State} (h : execInit s = .next t) : s.ctrl.xferActive = false := by
  obtain ⟨hc, -, -, u, b, hl, -⟩ := execInit_next h
  obtain ⟨n, hn⟩ : ∃ n, s.cfg.idRetryMax = n + 1 :=
    ⟨s.cfg.idRetryMax - 1, by have := (config_bounds hc).2.2.2.2.2; omega⟩
  rw [hn, identifyLoop, andThen_eq_next] at hl
  obtain ⟨a, ha, -⟩ := hl
  exact (cmdIdentify_next (by exact hc) ha).2.1

/-- INIT from any level of chip-select, once the loop's end is known. -/
theorem execInit_of {s u : State} {b : Bool} (hc : s.cfg.wf = true) (hp : s.ctrl.phase = .idle)
    (hd : s.cfg.destructiveTest = false)
    (h : identifyLoop s.cfg.idRetryMax (configureTransport s) = .next (u, b)) :
    execInit s = .next (if b then (u.setInitialised true).finish .success
      else u.finish .identificationFailed) := by
  rw [execInit, requireConfig_pass _ hc, requireIdle_pass _ hp, hd, if_neg (by simp), h,
    andThen_next]
  cases b <;> rfl

end Sys2Proof.Machine
end

