-- ==== Sys2Proof/Laws/PerInstr.lean ====
section
/-! SUPPORT. One statement about every instruction as syntax: in which of the three ways it is named
before it is decoded (spec 30 R63, R69, R70, R73). -/

namespace Sys2Proof.Laws.Naming

/-- The instruction is named by a value of `x[op]` that selects it, by a frame whose first byte is one
of the variant's six opcodes, or, when its row has no encoding, by itself. -/
def Statement (i : Instr) : Prop :=
  ∀ c : Config,
    (∃ code, encode c i = .op code ∧ decodeOp code = i) ∨
    (isEvent i = false ∧ ∃ b rest, encode c i = .frame (b :: rest) ∧ b ∈ c.var.opcodes) ∨
    (isEvent i = true ∧ encode c i = .event i)

theorem cmdWren : Statement .cmdWren := fun _ =>
  .inr (.inl ⟨rfl, _, _, rfl, by simp [Variant.opcodes]⟩)

theorem cmdStatus : Statement .cmdStatus := fun _ =>
  .inr (.inl ⟨rfl, _, _, rfl, by simp [Variant.opcodes]⟩)

theorem cmdIdentify : Statement .cmdIdentify := fun _ =>
  .inr (.inl ⟨rfl, _, _, rfl, by simp [Variant.opcodes]⟩)

theorem cmdRead (addr : Addr24) (n : Nat) : Statement (.cmdRead addr n) := fun _ =>
  .inr (.inl ⟨rfl, _, _, rfl, by simp [Variant.opcodes]⟩)

theorem cmdProgram (addr : Addr24) (data : List Byte) : Statement (.cmdProgram addr data) := fun _ =>
  .inr (.inl ⟨rfl, _, _, rfl, by simp [Variant.opcodes]⟩)

theorem cmdErase (addr : Addr24) : Statement (.cmdErase addr) := fun _ =>
  .inr (.inl ⟨rfl, _, _, rfl, by simp [Variant.opcodes]⟩)

theorem init : Statement .init := fun _ => .inl ⟨0, rfl, rfl⟩

theorem read : Statement .read := fun _ => .inl ⟨1, rfl, rfl⟩

theorem write : Statement .write := fun _ => .inl ⟨2, rfl, rfl⟩

theorem erase : Statement .erase := fun _ => .inl ⟨3, rfl, rfl⟩

theorem isBusy : Statement .isBusy := fun _ => .inl ⟨4, rfl, rfl⟩

theorem getGeometry : Statement .getGeometry := fun _ => .inl ⟨5, rfl, rfl⟩

theorem reserved6 : Statement .reserved6 := fun _ => .inl ⟨6, rfl, rfl⟩

theorem reserved7 : Statement .reserved7 := fun _ => .inl ⟨7, rfl, rfl⟩

theorem csAssert : Statement .csAssert := fun _ =>
  .inr (.inr ⟨rfl, rfl⟩)

theorem csDeassert : Statement .csDeassert := fun _ =>
  .inr (.inr ⟨rfl, rfl⟩)

theorem exchange (w : List Byte) (n : Nat) (async : Bool) : Statement (.exchange w n async) := fun _ =>
  .inr (.inr ⟨rfl, rfl⟩)

theorem busyCheck : Statement .busyCheck := fun _ =>
  .inr (.inr ⟨rfl, rfl⟩)

theorem wrenHandshake : Statement .wrenHandshake := fun _ =>
  .inr (.inr ⟨rfl, rfl⟩)

theorem poll : Statement .poll := fun _ =>
  .inr (.inr ⟨rfl, rfl⟩)

theorem selftest : Statement .selftest := fun _ =>
  .inr (.inr ⟨rfl, rfl⟩)

end Sys2Proof.Laws.Naming
end

