-- ==== Sys2Proof/Tests/Slice0.lean ====
section
/-! SUPPORT. The tests: ill-formed configurations and instructions, words written out from the spec's
encoding tables, the vectors of spec/95_test_vectors.md as single steps on small states, and a witness
for the hypotheses of each statement. Expected results are the spec's, never the model's. -/

namespace Sys2Proof.Tests

open Sys2Proof Sys2Proof.Machine

/-! ### Helpers -/

/-- The outcome is a next state of which the test holds. -/
def nextOf (o : Res State) (test : State → Bool) : Bool :=
  match o with
  | .next t => test t
  | .fault _ => false
  | .refused _ => false

theorem exists_of_nextOf {o : Res State} {test : State → Bool} (h : nextOf o test = true) :
    ∃ t, o = .next t ∧ test t = true := by
  cases o with
  | next t => exact ⟨t, rfl, h⟩
  | fault f => cases h
  | refused r => cases h

/-- `SML` (spec 95 section 0): a small part with a short identification loop. -/
def sml : Config :=
  { refConfig with
    geo := { refGeometry with totalSize := 65536, eraseBlockSize := 4096 }
    idRetryMax := 3 }

/-- A part of 16 pages of 4 bytes, for the checks on lengths. -/
def tiny : Config :=
  { refConfig with
    geo := { refGeometry with totalSize := 64, pageSize := 4, eraseBlockSize := 8 }
    maxXfer := 3 }

/-- The block after a successful INIT, with the operands given (spec 95 section 0). -/
def ready (c : Config) (addr len count : Nat) : State :=
  { State.reset with
    cfg := c
    ctrl := { Ctrl.reset with initialised := true }
    x := { Regs.reset with
      addr := BitVec.ofNat 32 addr, len := BitVec.ofNat 32 len, count := BitVec.ofNat 32 count } }

/-- A device that is busy with an update, whose engine will complete after `delay` moments. -/
def busyWith (s : State) (u : ArrayUpdate) (delay : Nat) : State :=
  (s.setSr 0x03).setPending (some { update := u, delay := delay, draw := 0 })

/-- A device whose array holds the bytes listed. -/
def withArray (s : State) (m : Memory) : State := s.setDev { s.dev with array := m }

/-- A device with another write-enable latch. -/
def withLatch (s : State) (l : Latch) : State :=
  { s with dev := { s.dev with profile := { s.dev.profile with latch := l } } }

/-- A device of another capacity code (vector 3.3). -/
def wrongPart (s : State) : State := { s with dev := { s.dev with id2 := 0xC4 } }

/-- Inside a transaction in which the device has received some bytes. -/
def inside (s : State) (rx : List Byte) : State :=
  (((s.setCs .asserted).setPhase .command).setDev { s.dev with rx := rx }).addEvent .csDown

theorem ready_of {s : State} (h : s.cfg.wf = true) (hc : s.ctrl.cs = .deasserted)
    (hx : s.ctrl.xferActive = false) (hp : s.ctrl.phase = .idle)
    (hi : s.ctrl.initialised = true) : s.Ready :=
  ⟨⟨⟨h, hc, hx⟩, hp⟩, hi⟩

theorem refReady (addr len count : Nat) : (ready refConfig addr len count).Ready :=
  ready_of (show refConfig.wf = true by decide) rfl rfl rfl rfl

theorem smlReady (addr len count : Nat) : (ready sml addr len count).Ready :=
  ready_of (show sml.wf = true by decide) rfl rfl rfl rfl

/-! ### Well-formedness: an ill-formed term for each check (00 R10, 42 R100 to R102, 41 R88) -/

theorem test_configurations_well_formed : refConfig.wf = true ∧ sml.wf = true ∧ tiny.wf = true := by
  decide

theorem test_configuration_checks :
    Config.wf { refConfig with geo := { refGeometry with pageSize := 0 } } = false ∧
    Config.wf { refConfig with geo := { refGeometry with eraseBlockSize := 0 } } = false ∧
    Config.wf { refConfig with geo := { refGeometry with totalSize := 32767 } } = false ∧
    Config.wf { refConfig with
      geo := { refGeometry with totalSize := 255, eraseBlockSize := 1 } } = false ∧
    Config.wf { refConfig with maxXfer := 0 } = false ∧
    Config.wf { refConfig with idRetryMax := 0 } = false ∧
    Config.wf { refConfig with var := { refVariant with spiMode := 1 } } = false ∧
    Config.wf { refConfig with var := { refVariant with opWren := 0x05 } } = false := by decide

theorem test_instruction_checks :
    (Instr.cmdRead 0 0).wellFormed refConfig = false ∧
    (Instr.cmdRead 0x00FFFF 2).wellFormed sml = false ∧
    (Instr.cmdProgram 0 []).wellFormed refConfig = false ∧
    (Instr.cmdProgram 0 [1, 2, 3, 4, 5]).wellFormed tiny = false ∧
    (Instr.cmdProgram 250 (List.replicate 10 0)).wellFormed refConfig = false ∧
    (Instr.cmdProgram 0x010000 [0]).wellFormed sml = false ∧
    (Instr.cmdErase 1).wellFormed refConfig = false ∧
    (Instr.cmdErase 0x010000).wellFormed sml = false ∧
    (Instr.exchange [1, 2, 3, 4] 0 false).wellFormed tiny = false ∧
    (Instr.exchange [] 256 true).wellFormed refConfig = false := by decide

/-! ### Decoding: every constructor by a word written out from 30 R63, R64, R68, R70 -/

theorem test_decode_frames :
    decodeFrame refVariant [0x06] = .ok .cmdWren ∧
    decodeFrame refVariant [0x05, 0xFF] = .ok .cmdStatus ∧
    decodeFrame refVariant [0x9F, 0xFF, 0xFF, 0xFF] = .ok .cmdIdentify ∧
    decodeFrame refVariant [0x03, 0x00, 0x01, 0x00, 0xA5, 0xA5] = .ok (.cmdRead 0x000100 2) ∧
    decodeFrame refVariant [0x02, 0xFF, 0xFF, 0x00, 0x7E] = .ok (.cmdProgram 0xFFFF00 [0x7E]) ∧
    decodeFrame refVariant [0x52, 0x00, 0x80, 0x00] = .ok (.cmdErase 0x008000) := by decide

theorem test_decode_selections :
    decodeOp 0b000 = .init ∧ decodeOp 0b001 = .read ∧ decodeOp 0b010 = .write ∧
    decodeOp 0b011 = .erase ∧ decodeOp 0b100 = .isBusy ∧ decodeOp 0b101 = .getGeometry ∧
    decodeOp 0b110 = .reserved6 ∧ decodeOp 0b111 = .reserved7 := by decide

/-- The rows that have no encoding are named by themselves (30 R69, R73). -/
theorem test_decode_events :
    decodeCode refVariant (.event .csAssert) = .ok .csAssert ∧
    decodeCode refVariant (.event .csDeassert) = .ok .csDeassert ∧
    decodeCode refVariant (.event (.exchange [0x05] 2 true)) = .ok (.exchange [0x05] 2 true) ∧
    decodeCode refVariant (.event .busyCheck) = .ok .busyCheck ∧
    decodeCode refVariant (.event .wrenHandshake) = .ok .wrenHandshake ∧
    decodeCode refVariant (.event .poll) = .ok .poll ∧
    decodeCode refVariant (.event .selftest) = .ok .selftest ∧
    decodeCode refVariant (.event .read) = .error .notAnEvent := by decide

/-- What is no instruction is rejected by name (30 R71, R63). -/
theorem test_decode_rejects :
    decodeFrame refVariant [] = .error .emptyFrame ∧
    decodeFrame refVariant [0x0B, 0x00] = .error (.unknownOpcode 0x0B) ∧
    decodeFrame refVariant [0x06, 0x00] = .error (.wrongLength 0x06) ∧
    decodeFrame refVariant [0x05] = .error (.wrongLength 0x05) ∧
    decodeFrame refVariant [0x52, 0x00, 0x80] = .error (.wrongLength 0x52) ∧
    decodeFrame refVariant [0x03, 0x00, 0x00, 0x00] = .error (.noDataByte 0x03) ∧
    decodeFrame refVariant [0x02, 0x00, 0x00, 0x00] = .error (.noDataByte 0x02) := by decide

/-- The address encoder's vectors 2.31 to 2.36. -/
theorem test_address_bytes :
    addrBytes 0x0000FA = [0x00, 0x00, 0xFA] ∧ addrBytes 0x000100 = [0x00, 0x01, 0x00] ∧
    addrBytes 0x008000 = [0x00, 0x80, 0x00] ∧ addrBytes 0x123456 = [0x12, 0x34, 0x56] ∧
    addrBytes 0xFF8000 = [0xFF, 0x80, 0x00] ∧ addrBytes 0xFFFFFF = [0xFF, 0xFF, 0xFF] := by decide

/-- The header `H` of a read at address 0x123456 (vector 2.34): `H` = 0x03123456, and its bytes go out
most significant first (30 R64). -/
theorem test_header :
    headerWord 0x03 0x123456 = 0x03123456 ∧
    header 0x03 0x123456 = [0x03, 0x12, 0x34, 0x56] := by decide

/-- The numbers of the opcode table, first byte lowest. -/
theorem test_table_words :
    decodeTableWord 8 0 = some .init ∧ decodeTableWord 8 7 = some .reserved7 ∧
    decodeTableWord 16 0x0005 = some .cmdStatus ∧ decodeTableWord 32 0x9F = some .cmdIdentify ∧
    decodeTableWord 32 0x00800052 = some (.cmdErase 0x008000) ∧
    decodeTableWord 32 0x56341203 = some (.cmdRead 0x123456 1) ∧
    decodeTableWord 40 0x7E00FFFF02 = some (.cmdProgram 0xFFFF00 [0x7E]) := by decide

/-! ### The validator and the chunker (40 R78 to R81, 41 R91) -/

/-- Vectors 2.1 to 2.8 and 2.11 to 2.13. -/
theorem test_validator :
    validWrite refGeometry 250 10 = false ∧ validWrite refGeometry 250 6 = true ∧
    validWrite refGeometry 255 1 = true ∧ validWrite refGeometry 255 2 = false ∧
    validWrite refGeometry 256 256 = true ∧ validWrite refGeometry 0 257 = false ∧
    validWrite sml.geo 0xFF00 256 = true ∧ validWrite sml.geo 0xFFFF 2 = false ∧
    validRead sml.geo 0xFFF0 16 = true ∧ validRead sml.geo 0xFFF0 17 = false ∧
    validRead sml.geo 0x10000 1 = false ∧ validRead refGeometry 0x10 0xFFFFFFF8 = false ∧
    validErase refGeometry 1 = false ∧ validErase refGeometry 0x8000 = true ∧
    validErase sml.geo 0xF000 = true ∧ validErase sml.geo 0x10000 = false := by decide

/-- Vectors 8.5 to 8.9: the chunks of a data phase. -/
theorem test_chunks :
    chunkSizes 255 16 16 = [16] ∧ chunkSizes 255 255 255 = [255] ∧
    chunkSizes 255 256 256 = [255, 1] ∧ chunkSizes 255 600 600 = [255, 255, 90] ∧
    chunkSizes 255 510 510 = [255, 255] := by decide

/-! ### INIT (vectors 3.1, 3.3) -/

theorem test_init_finds_the_chip :
    nextOf (exec .init State.reset) (fun t =>
      t.x.result = 0 && t.ctrl.initialised && t.ctrl.attempt = 1 &&
        sentFrames t.trace = [[0x9F, 0xA5, 0xA5, 0xA5]]) = true := by decide

/-- At reset the level of chip-select is not specified: INIT sets it (10 R37, 43 R105). -/
theorem test_init_with_chip_select_asserted :
    nextOf (exec .init (State.reset.setCs .asserted)) (fun t =>
      t.x.result = 0 && t.ctrl.cs = .deasserted &&
        sentFrames t.trace = [[0x9F, 0xA5, 0xA5, 0xA5]]) = true := by decide

theorem test_init_wrong_part :
    nextOf (exec .init (wrongPart (ready sml 0 0 0))) (fun t =>
      t.x.result = 4 && !t.ctrl.initialised && t.ctrl.attempt = 3 && t.ctrl.cs = .deasserted &&
        (sentFrames t.trace).length = 3) = true := by decide

/-! ### READ (vectors 4.1, 4.4) -/

theorem test_read_four_bytes :
    nextOf (exec .read (withArray (ready refConfig 0 4 0) [(0, 0), (1, 1), (2, 2), (3, 3)]))
      (fun t => t.x.result = 0 && t.dst.readBytes 0 4 = [0, 1, 2, 3] &&
        sentFrames t.trace = [[0x05, 0xA5], [0x03, 0, 0, 0, 0xA5, 0xA5, 0xA5, 0xA5]]) = true := by
  decide

theorem test_read_last_byte :
    nextOf (exec .read (withArray (ready sml 0xFFFF 1 0) [(0xFFFF, 0x18)])) (fun t =>
      t.x.result = 0 && t.dst.readBytes 0 1 = [0x18]) = true := by decide

/-! ### WRITE (vectors 5.3, 5.8) -/

theorem test_write_ends_on_the_page :
    nextOf (exec .write ((ready refConfig 250 6 0).setSrc
        [(0, 1), (1, 2), (2, 3), (3, 4), (4, 5), (5, 6)]))
      (fun t => t.x.result = 0 && t.dev.sr = 0x03 &&
        t.dev.pending.map (·.update) = some (.program 0x0000FA [1, 2, 3, 4, 5, 6]) &&
        sentFrames t.trace =
          [[0x05, 0xA5], [0x06], [0x05, 0xA5], [0x02, 0, 0, 0xFA, 1, 2, 3, 4, 5, 6]]) = true := by
  decide

theorem test_write_latch_does_not_set :
    nextOf (exec .write (withLatch (ready refConfig 0 1 0) .stuck)) (fun t =>
      t.x.result = 3 && t.dev.pending = none &&
        sentFrames t.trace = [[0x05, 0xA5], [0x06], [0x05, 0xA5]]) = true := by decide

/-- The engine completes at any time, inside an operation too (00 R12, 20 R61): before the status byte
is read, so that READ finds the device idle and the byte programmed. -/
theorem test_engine_completes_inside_an_operation :
    nextOf (exec .read (busyWith (ready refConfig 0 1 0) (.program 0 [0x5A]) 2)) (fun t =>
      t.x.result = 0 && t.dst.readBytes 0 1 = [0x5A] && t.dev.sr = 0x00) = true := by decide

/-! ### ERASE (vectors 6.3, 6.11) -/

theorem test_erase_last_reachable_block :
    nextOf (exec .erase (ready refConfig 0x00FF8000 0 1)) (fun t =>
      t.x.result = 0 && t.x.addr = 0x01000000 && t.x.count = 0 &&
        sentFrames t.trace =
          [[0x05, 0xA5], [0x06], [0x05, 0xA5], [0x52, 0xFF, 0x80, 0x00]]) = true := by decide

theorem test_erase_moves_the_cursor_once :
    nextOf (exec .erase (ready refConfig 0x8000 0 0xFFFFFFFF)) (fun t =>
      t.x.addr = 0x10000 && t.x.count = 0xFFFFFFFE &&
        t.dev.pending.map (·.update) = some (.erase 0x008000)) = true := by decide

/-! ### IS_BUSY, GET_GEOMETRY, POLL, the reserved selections (vectors 7.2 to 7.5) -/

theorem test_is_busy_looks_at_bit_zero_only :
    nextOf (exec .isBusy ((ready refConfig 0 0 0).setSr 0xFE)) (fun t =>
      !t.x.busy && t.x.result = 7) = true := by decide

theorem test_is_busy_while_an_erase_is_pending :
    nextOf (exec .isBusy (busyWith (ready refConfig 0 0 0) (.erase 0) 9)) (fun t =>
      t.x.busy && t.dev.sr = 0x03) = true := by decide

theorem test_get_geometry_before_init :
    nextOf (exec .getGeometry State.reset) (fun t =>
      t.x.geo.totalSize = 33554432 && t.x.geo.pageSize = 256 && t.x.geo.eraseBlockSize = 32768 &&
        t.trace = []) = true := by decide

theorem test_poll_stays_while_busy :
    nextOf (exec .poll (busyWith (ready refConfig 0 0 0) (.erase 0) 9)) (fun t =>
      t.x.busy && t.x.op = 4 && t.program = [pollLine]) = true := by decide

theorem test_poll_ends_when_idle :
    nextOf (exec .poll ((ready refConfig 0 0 0).setProgram [bareLine (.op 1)])) (fun t =>
      !t.x.busy && t.program = [bareLine (.op 1)]) = true := by decide

theorem test_reserved_refused :
    exec .reserved6 (ready refConfig 0 0 0) = .refused .reservedOp ∧
    exec .reserved7 (ready refConfig 0 0 0) = .refused .reservedOp := ⟨rfl, rfl⟩

/-- Vectors 2.10, 2.17, 2.25, 7.5, 3.6. -/
theorem test_refusals :
    exec .write (ready refConfig 0x01000000 1 0) = .refused .reachAbove24 ∧
    exec .read (ready sml 5 0 0) = .refused .zeroLength ∧
    exec .erase (ready sml 0x0800 0 0) = .refused .zeroCount ∧
    exec .isBusy State.reset = .refused .notInitialised ∧
    exec .init (ready { refConfig with destructiveTest := true } 0 0 0) =
      .refused .selftestNotSpecified :=
  ⟨rfl, rfl, rfl, rfl, rfl⟩

/-! ### The wire commands (vectors 8.20 to 8.25) -/

theorem test_cmd_wren :
    nextOf (exec .cmdWren (ready refConfig 0 0 0)) (fun t =>
      t.dev.sr = 0x02 && sentFrames t.trace = [[0x06]]) = true := by decide

theorem test_cmd_status :
    nextOf (exec .cmdStatus ((ready refConfig 0 0 0).setSr 0x02)) (fun t =>
      t.capture.drop 1 = [0x02] && sentFrames t.trace = [[0x05, 0xA5]]) = true := by decide

theorem test_cmd_identify :
    nextOf (exec .cmdIdentify (ready refConfig 0 0 0)) (fun t =>
      t.capture.drop 1 = [0xA1, 0xB2, 0xC3]) = true := by decide

theorem test_cmd_read :
    nextOf (exec (.cmdRead 0x000100 2) (withArray (ready refConfig 0 0 0) [(0x100, 5), (0x101, 6)]))
      (fun t => t.dst.readBytes 0 2 = [5, 6] &&
        sentFrames t.trace = [[0x03, 0, 1, 0, 0xA5, 0xA5]]) = true := by decide

theorem test_cmd_program :
    nextOf (exec (.cmdProgram 0xFFFF00 [0x7E]) ((ready refConfig 0 0 0).setSr 0x02)) (fun t =>
      t.dev.sr = 0x03 && sentFrames t.trace = [[0x02, 0xFF, 0xFF, 0x00, 0x7E]]) = true := by decide

theorem test_cmd_erase :
    nextOf (exec (.cmdErase 0x008000) ((ready refConfig 0 0 0).setSr 0x02)) (fun t =>
      t.dev.sr = 0x03 && sentFrames t.trace = [[0x52, 0x00, 0x80, 0x00]]) = true := by decide

/-- Without the latch the device ignores an erase (20 R60). -/
theorem test_cmd_erase_without_the_latch :
    nextOf (exec (.cmdErase 0x008000) (ready refConfig 0 0 0)) (fun t =>
      t.dev.sr = 0x00 && t.dev.pending = none) = true := by decide

theorem test_busy_check :
    nextOf (exec .busyCheck (busyWith (ready refConfig 0 0 0) (.erase 0) 9)) (fun t =>
      t.sawWip) = true := by decide

theorem test_wren_handshake :
    nextOf (exec .wrenHandshake (ready refConfig 0 0 0)) (fun t =>
      t.sawWel && sentFrames t.trace = [[0x06], [0x05, 0xA5]]) = true := by decide

theorem test_selftest_not_run :
    exec .selftest (ready refConfig 0 0 0) = .next (ready refConfig 0 0 0) := rfl

/-! ### The primitives (41 R85 to R88, vectors 8.2, 8.4) -/

theorem test_cs_assert :
    nextOf (exec .csAssert (ready refConfig 0 0 0)) (fun t =>
      t.ctrl.cs = .asserted && t.trace = [.csDown]) = true := by decide

theorem test_cs_assert_twice :
    exec .csAssert (inside (ready refConfig 0 0 0) []) = .fault .csProtocol := rfl

theorem test_cs_deassert :
    nextOf (exec .csDeassert (inside (ready refConfig 0 0 0) [0x06])) (fun t =>
      t.ctrl.cs = .deasserted && t.dev.sr = 0x02 && t.trace = [.csDown, .csUp]) = true := by decide

/-- A busy device ignores every command but status (20 R62, 93 U22), one it does not know too. -/
theorem test_busy_ignores_other_opcodes :
    let s := busyWith (ready refConfig 0 0 0) (.erase 0) 9
    nextOf (exec .csDeassert (inside s [0xC7])) (fun t =>
      t.ctrl.cs = .deasserted && t.dev.sr = s.dev.sr) = true ∧
    nextOf (exec .csDeassert (inside s [0x06, 0x00])) (fun t => t.dev.sr = s.dev.sr) = true := by
  decide

theorem test_exchange_status :
    nextOf (exec (.exchange [0x05] 2 false) (inside ((ready refConfig 0 0 0).setSr 0x42) []))
      (fun t => t.capture.drop 1 = [0x42] && t.dev.rx = [0x05, 0xA5]) = true := by decide

theorem test_exchange_of_nothing :
    nextOf (exec (.exchange [] 0 false) (inside (ready refConfig 0 0 0) [])) (fun t =>
      t.capture = [] && t.trace = [.csDown]) = true := by decide

/-! ### The engine, the step and memory -/

/-- Programming over a byte that is not erased only clears bits in the reference device (20 R59). -/
theorem test_engine_programs :
    let t := engineTick (busyWith (withArray (ready refConfig 0 0 0) [(0, 0xF0)])
      (.program 0 [0xAA]) 0)
    t.dev.array.read 0 = 0xA0 := by decide

/-- An erase leaves `0xFF` in the block and the bytes beside it alone (20 R60). -/
theorem test_engine_erases :
    let t := engineTick (busyWith (withArray (ready sml 0 0 0)
      [(0x0FFF, 1), (0x1000, 2), (0x1FFF, 3), (0x2000, 4)]) (.erase 0x1000) 0)
    t.dev.array = [(0x0FFF, 1), (0x2000, 4)] ∧ t.dev.sr = 0x00 ∧ t.dev.pending = none := by decide

/-- The instruction placed at the fetch is the first that runs after reset (43 R105). -/
theorem test_first_instruction_after_reset :
    nextOf (Machine.step (State.reset.withFetchWord 8 0)) (fun t => t.x.result = 0) = true := by
  decide

/-- A line writes the operands and the source buffer before it invokes (10 R28). -/
theorem test_host_line :
    nextOf (Machine.step ((ready refConfig 0 0 0).setProgram
        [{ code := .op 2, addr := some 0x1234, len := some 1, count := none, src := some [0x5A] }]))
      (fun t => t.x.op = 2 && t.x.result = 0 && t.program = [] &&
        t.dev.pending.map (·.update) = some (.program 0x001234 [0x5A])) = true := by decide

/-- Writing the value an unlisted address reads as removes the entry. -/
theorem test_memory_canonical :
    Memory.write [(1, 7), (3, 9)] 2 5 = [(1, 7), (2, 5), (3, 9)] ∧
    Memory.write [(1, 7), (3, 9)] 3 0xFF = [(1, 7)] := by decide


/-! ### Witnesses: the hypotheses of each statement can be met

Each theorem gives a concrete state and operands that meet all hypotheses of the statement it names,
clause by clause where a statement has several, at the ends of the ranges. -/

theorem refFree : (ready refConfig 0 0 0).BusFree := (refReady 0 0 0).1.1

theorem witness_DecodeAfterEncode :
    refConfig.wf = true ∧ tiny.wf = true ∧ (Instr.cmdRead 0xFFFFFF 1).wellFormed refConfig = true ∧
    (Instr.cmdRead 0 64).wellFormed tiny = true ∧
    (Instr.cmdProgram 60 [1, 2, 3, 4]).wellFormed tiny = true ∧
    (Instr.cmdErase 56).wellFormed tiny = true ∧
    (Instr.exchange [1, 2, 3] 3 true).wellFormed tiny = true ∧
    Instr.init.wellFormed tiny = true := by decide

theorem witness_DecodedFramesAreTheirFrames :
    refConfig.wf = true ∧
    decodeFrame refConfig.var [0x02, 0, 0, 0xFF, 7] = .ok (.cmdProgram 0x0000FF [7]) ∧
    decodeFrame refConfig.var [0x52, 0xFF, 0x80, 0] = .ok (.cmdErase 0xFF8000) ∧
    decodeFrame refConfig.var [0x03, 0xFF, 0xFF, 0xFF, 0] = .ok (.cmdRead 0xFFFFFF 1) := by decide

/-- Two frames of one byte 0, an opcode beside one, and one. -/
theorem witness_UnknownOpcodesRejected :
    refConfig.wf = true ∧ (0x9E : Byte) ∉ refConfig.var.opcodes ∧
    (0x9F : Byte) ∈ refConfig.var.opcodes ∧
    decodeFrame refConfig.var (0x03 :: [0, 0, 0, 0]) = .ok (.cmdRead 0 1) ∧
    decodeFrame refConfig.var (0x03 :: [0xFF, 0xFF, 0xFF, 0, 0]) = .ok (.cmdRead 0xFFFFFF 2) := by
  decide

theorem witness_AddressBytesBigEndian :
    (ready refConfig 0xFFFFFF 1 0).addrNat < 2 ^ 24 := by decide

theorem witness_StepRunsDecodedInstruction :
    decodeCode refVariant (invokedCode
      (beginLine (engineTick State.reset) (bareLine (.op 5)) []) (bareLine (.op 5))) =
        .ok .getGeometry ∧
    decodeCode refVariant (invokedCode
      (beginLine (engineTick State.reset) (bareLine (.frame [0x0B])) []) (bareLine (.frame [0x0B]))) =
        .error (.unknownOpcode 0x0B) ∧
    State.reset.program = [] := by decide

/-- A state that is not the reset state: a program is pending and the host has a line to run. -/
def pendingState : State :=
  (busyWith (ready refConfig 0 0 0) (.program 0 [0xAA]) 9).setProgram [bareLine (.op 4)]

theorem witness_StepKeepsInvariant :
    pendingState.Inv ∧ ∃ t, Machine.step pendingState = .next t ∧ (t.x.busy) = true := by
  refine ⟨⟨by decide, by decide, by decide, by decide, rfl, ?_, rfl, .inl ⟨rfl, rfl, rfl, rfl⟩,
      fun h => absurd rfl h, rfl⟩,
    exists_of_nextOf (test := fun t => t.x.busy) (by decide)⟩
  show programInArray refConfig.geo 0 1 = true
  decide

/-- Inside a transaction that the host has opened with the primitives, at a device that was busy when
the opcode came: its engine completes before the next byte time. -/
def insideState : State :=
  { inside (busyWith (ready refConfig 0 0 0) (.erase 0) 0) [0x03] with
    dev := { (busyWith (ready refConfig 0 0 0) (.erase 0) 0).dev with rx := [0x03], ignoring := true }
    program := [bareLine (.event (.exchange [0, 0, 0] 0 false))] }

theorem witness_StepKeepsInvariant_inside :
    insideState.Inv ∧
    ∃ t, Machine.step insideState = .next t ∧
      (decide (t.dev.rx.length = 4) && t.dev.ignoring && !wip t.dev.sr) = true :=
  ⟨⟨by decide, by decide, by decide, by decide, rfl,
      (show (0 : Addr24).toNat < refConfig.geo.totalSize by decide), rfl, .inr ⟨rfl, rfl⟩,
      fun _ _ => rfl, rfl⟩,
    exists_of_nextOf (test := fun t => t.dev.rx.length = 4 && t.dev.ignoring && !wip t.dev.sr)
      (by decide)⟩

theorem witness_ConfigurationNeverChanges :
    (∃ t, exec .getGeometry State.reset = .next t) ∧
    ∃ t, Machine.step State.reset = .next t := ⟨⟨_, rfl⟩, ⟨_, rfl⟩⟩

/-- An instruction other than ERASE, an ERASE that does not succeed, and one that does. -/
theorem witness_OnlyEraseWritesTheCursor :
    (∃ t, exec .getGeometry State.reset = .next t) ∧
    (∃ t, exec .erase (ready refConfig 1 0 1) = .next t ∧ decide (t.x.result ≠ 0) = true) ∧
    ∃ t, exec .erase (ready refConfig 0 0 1) = .next t ∧ decide (t.x.result = 0) = true :=
  ⟨⟨_, rfl⟩, exists_of_nextOf (test := fun t => t.x.result ≠ 0) (by decide),
    exists_of_nextOf (test := fun t => t.x.result = 0) (by decide)⟩

theorem witness_ResultsAndTheirWriters :
    (∃ t, exec .init State.reset = .next t ∧ decide (t.x.result = 0) = true) ∧
    (∃ t, exec .read (ready sml 0xFFFF 2 0) = .next t ∧ decide (t.x.result = 2) = true) ∧
    (∃ t, exec .write (withLatch (ready refConfig 0 1 0) .stuck) = .next t ∧
      decide (t.x.result = 3) = true) ∧
    (∃ t, exec .isBusy (ready refConfig 0 0 0) = .next t ∧ (!t.x.busy) = true) :=
  ⟨exists_of_nextOf (test := fun t => t.x.result = 0) (by decide),
    exists_of_nextOf (test := fun t => t.x.result = 2) (by decide),
    exists_of_nextOf (test := fun t => t.x.result = 3) (by decide),
    exists_of_nextOf (test := fun t => !t.x.busy) (by decide)⟩

theorem witness_OnlyTheEngineChangesTheArray :
    (∃ t, exec .read (ready refConfig 0 1 0) = .next t ∧ decide (t.x.result = 0) = true) ∧
    (ready refConfig 0 1 0).lenNat ≤ 1 ∧
    (∃ t, exec (.cmdRead 0 1) (ready refConfig 0 0 0) = .next t ∧
      decide (t.capture.length = 1) = true) :=
  ⟨exists_of_nextOf (test := fun t => t.x.result = 0) (by decide), by decide,
    exists_of_nextOf (test := fun t => t.capture.length = 1) (by decide)⟩

/-- For both: HostOperationsEndBetweenTransactions and HostOperationsSendOnlyWellFormedFrames; a
WRITE that ends at `2^24`, and an INIT from chip-select asserted. -/
theorem witness_HostOperations :
    isHostOp .write = true ∧ (ready refConfig 0xFFFFFE 2 0).Between ∧
    (∃ t, exec .write (ready refConfig 0xFFFFFE 2 0) = .next t ∧
      decide ((sentFrames t.trace).length = 4) = true) ∧
    isHostOp .init = true ∧ (State.reset.setCs .asserted).InitCanStart ∧
    ∃ t, exec .init (State.reset.setCs .asserted) = .next t ∧
      decide ((sentFrames t.trace).length = 1) = true :=
  ⟨rfl, (refReady _ _ _).1,
    exists_of_nextOf (test := fun t => (sentFrames t.trace).length = 4) (by decide), rfl,
    ⟨by decide, rfl, rfl⟩,
    exists_of_nextOf (test := fun t => (sentFrames t.trace).length = 1) (by decide)⟩

theorem witness_OperationsDoNotReadOldReplies : isHostOp .init = true ∧ isHostOp .poll = true :=
  ⟨rfl, rfl⟩

theorem witness_CanonicalMemoriesAreEqual :
    Memory.wf [(0, 1), (7, 2)] ∧ Memory.wf ([] : Memory) ∧
    SameBytes [(0, 1), (7, 2)] [(0, 1), (7, 2)] := ⟨by decide, by decide, fun _ => rfl⟩

/-- A program that ends on the page's last byte, an erase of the last reachable block, an update that
is not yet due, and nothing pending. -/
theorem witness_EngineCompletesPendingUpdate :
    (busyWith (ready refConfig 0 0 0) (.program 250 [1, 2, 3, 4, 5, 6]) 0).dev.pending =
      some { update := .program 250 [1, 2, 3, 4, 5, 6], delay := 0, draw := 0 } ∧
    (250 : Addr24).toNat % refConfig.geo.pageSize + 6 ≤ refConfig.geo.pageSize ∧
    (busyWith (ready refConfig 0 0 0) (.erase 0xFF8000) 0).dev.pending =
      some { update := .erase 0xFF8000, delay := 0, draw := 0 } ∧
    (ready refConfig 0 0 0).dev.profile.clearsLatch = true ∧
    (busyWith (ready refConfig 0 0 0) (.erase 0) 1).dev.pending =
      some { update := .erase 0, delay := 1, draw := 0 } ∧
    (ready refConfig 0 0 0).dev.pending = none := by decide

/-- The engine left alone; a step that runs a line; and the host's polling run, at a device whose
engine needs two rounds of it. -/
theorem witness_PendingUpdateCompletes :
    (busyWith (ready refConfig 0 0 0) (.erase 0) 2).program = [] ∧
    (busyWith (ready refConfig 0 0 0) (.erase 0) 2).dev.pending =
      some { update := .erase 0, delay := 2, draw := 0 } ∧
    pendingState.Consistent ∧
    (∃ t, Machine.step pendingState = .next t ∧ t.dev.pending.isSome = true) ∧
    ((busyWith (ready refConfig 0 0 0) (.erase 0) 5).setProgram [pollLine]).Ready ∧
    ((busyWith (ready refConfig 0 0 0) (.erase 0) 5).setProgram [pollLine]).Consistent ∧
    ((busyWith (ready refConfig 0 0 0) (.erase 0) 5).setProgram [pollLine]).program = [pollLine] :=
  ⟨rfl, rfl, rfl, exists_of_nextOf (test := fun t => t.dev.pending.isSome) (by decide),
    refReady 0 0 0, rfl, rfl⟩

theorem witness_ChipSelectAsserts :
    (ready refConfig 0 0 0).cfg.wf = true ∧ (ready refConfig 0 0 0).ctrl.cs = .deasserted ∧
    (ready refConfig 0 0 0).ctrl.xferActive = false ∧
    (inside (ready refConfig 0 0 0) []).ctrl.cs = .asserted := by decide

/-- One frame for each clause: none, a status read, a write-enable, a program that ends on its page,
an erase, and an erase that the device ignores. -/
theorem witness_ChipSelectDeasserts :
    (inside (ready tiny 0 0 0) []).cfg.wf = true ∧
    (ready tiny 0 0 0).ctrl.cs = .deasserted ∧
    (inside (ready tiny 0 0 0) []).ctrl.cs = .asserted ∧
    (inside (ready tiny 0 0 0) []).ctrl.xferActive = false ∧
    (inside (ready tiny 0 0 0) []).dev.rx = [] ∧
    (inside (ready tiny 0 0 0) [0x05, 0]).dev.rx = tiny.var.opStatus :: [0] ∧
    (inside (ready tiny 0 0 0) [0x06]).dev.rx = wrenFrame tiny ∧
    (ready tiny 0 0 0).dev.profile.latch = .sets ∧ wip (ready tiny 0 0 0).dev.sr = false ∧
    (inside (withLatch (ready tiny 0 0 0) .stuck) [0x06]).dev.rx = wrenFrame tiny ∧
    (inside (withLatch (ready tiny 0 0 0) .stuck) [0x06]).dev.profile.latch = .stuck ∧
    (inside (withLatch (ready tiny 0 0 0) .unstated) [0x06]).dev.rx = wrenFrame tiny ∧
    (inside (withLatch (ready tiny 0 0 0) .unstated) [0x06]).dev.profile.latch = .unstated ∧
    (inside (busyWith (ready tiny 0 0 0) (.erase 0) 9) [0x06]).dev.rx = wrenFrame tiny ∧
    wip (engineTick (inside (busyWith (ready tiny 0 0 0) (.erase 0) 9) [0x06])).dev.sr = true ∧
    (inside (ready tiny 0 0 0) [0x02, 0, 0, 60, 1, 2, 3, 4]).dev.rx =
      programFrame tiny 60 [1, 2, 3, 4] ∧
    wel ((ready tiny 0 0 0).setSr 0x02).dev.sr = true ∧
    wip ((ready tiny 0 0 0).setSr 0x02).dev.sr = false ∧
    (60 : Addr24).toNat % tiny.geo.pageSize + 4 ≤ tiny.geo.pageSize ∧
    (60 : Addr24).toNat + 4 ≤ tiny.geo.totalSize ∧
    (inside (ready tiny 0 0 0) [0x52, 0, 0, 63]).dev.rx = eraseFrame tiny 63 ∧
    (63 : Addr24).toNat < tiny.geo.totalSize ∧
    (engineTick ((inside (ready tiny 0 0 0) []).setSr 0x02)).dev.sr = 0x02 ∧
    (inside (ready tiny 0 0 0) [0x06, 0]).dev.rx = wrenFrame tiny ++ [0] ∧
    (inside (ready tiny 0 0 0) [0x52, 0, 0, 63, 9]).dev.rx = eraseFrame tiny 63 ++ [9] ∧
    (0xC7 : Byte) ∉ tiny.var.opcodes ∧
    (inside (ready tiny 0 0 0) [0x02, 0, 0, 60]).dev.rx = tiny.var.opProgram :: [0, 0, 60] ∧
    (inside (ready tiny 0 0 0) [0x52, 0, 0]).dev.rx = tiny.var.opErase :: [0, 0] ∧
    wel (ready tiny 0 0 0).dev.sr = false := by decide

/-- Operands of the greatest length, one too long, and a read that stops at, and passes, the end. -/
theorem witness_ExchangeIsFullDuplex :
    tiny.wf = true ∧ [1, 2, 3].length ≤ tiny.maxXfer ∧ ¬ (4 ≤ tiny.maxXfer) ∧
    (ready tiny 0 0 0).ctrl.cs = .deasserted ∧
    (inside (ready tiny 0 0 0) []).ctrl.cs = .asserted ∧
    (inside (ready tiny 0 0 0) []).ctrl.xferActive = false ∧
    readPastEnd tiny ((inside (ready tiny 0 0 0) [0x03, 0, 0, 63]).dev.hearAll tiny [0xA5]) = false ∧
    readPastEnd tiny ((inside (ready tiny 0 0 0) [0x03, 0, 0, 63]).dev.hearAll tiny [0xA5, 0xA5]) =
      true ∧
    driven tiny.var (((inside (ready tiny 0 0 0) [0x05]).dev.hearAll tiny []).tick tiny) =
      some 0x00 := by decide

/-- For StatusCommandReturnsStatus, IdentifyCommandReturnsIdentity, WriteEnableSetsTheLatch and
HandshakeReportsTheLatch: a free bus with a healthy and with a locked device. -/
theorem witness_BusFree :
    (ready refConfig 0 0 0).BusFree ∧ (ready refConfig 0 0 0).Consistent ∧
    wip (engineTicks 2 (ready refConfig 0 0 0)).dev.sr = false ∧
    wip (engineTicks 3 (ready refConfig 0 0 0)).dev.sr = false ∧
    (ready refConfig 0 0 0).dev.profile.identifies = true ∧
    (ready refConfig 0 0 0).dev.profile.latch = .sets ∧
    (withLatch (ready refConfig 0 0 0) .stuck).dev.profile.latch = .stuck ∧
    wel (engineTicks 3 ((ready refConfig 0 0 0).setSr 0x02)).dev.sr = true :=
  ⟨refFree, rfl, by decide⟩

/-- The last byte of the array, one byte past it, and a busy device. -/
theorem witness_ReadCommandReturnsArray :
    (ready sml 0 0 0).BusFree ∧ (0xFFFF : Addr24).toNat + 1 ≤ sml.geo.totalSize ∧
    sml.geo.totalSize < (0xFFFF : Addr24).toNat + 2 ∧ (ready sml 0 0 0).Consistent ∧
    wip (engineTicks 2 (ready sml 0 0 0)).dev.sr = false ∧
    wip (engineTicks 2 (busyWith (ready sml 0 0 0) (.erase 0) 9)).dev.sr = true :=
  ⟨(smlReady 0 0 0).1.1, by decide, by decide, rfl, by decide⟩

theorem witness_ProgramCommandIsAccepted :
    (ready tiny 0 0 0).BusFree ∧ (Instr.cmdProgram 60 [1, 2, 3, 4]).wellFormed tiny = true ∧
    wel (engineTicks (4 + 6) ((ready tiny 0 0 0).setSr 0x02)).dev.sr = true ∧
    wip (engineTicks (4 + 6) ((ready tiny 0 0 0).setSr 0x02)).dev.sr = false ∧
    wel (engineTicks (4 + 6) (ready tiny 0 0 0)).dev.sr = false := ⟨⟨by decide, rfl, rfl⟩, by decide⟩

theorem witness_EraseCommandIsAccepted :
    (ready sml 0 0 0).BusFree ∧ (0xFFFF : Addr24).toNat < sml.geo.totalSize ∧
    wel (engineTicks 6 ((ready sml 0 0 0).setSr 0x02)).dev.sr = true ∧
    wip (engineTicks 6 ((ready sml 0 0 0).setSr 0x02)).dev.sr = false ∧
    wip (engineTicks 6 (busyWith (ready sml 0 0 0) (.erase 0) 9)).dev.sr = true :=
  ⟨(smlReady 0 0 0).1.1, by decide⟩

theorem witness_WireLevelFrame :
    isHostOp (.cmdErase 0) = false ∧
    ∃ t, exec (.cmdErase 0) ((ready refConfig 0 0 0).setSr 0x02) = .next t ∧
      decide (t.dev.sr = 0x03) = true :=
  ⟨rfl, exists_of_nextOf (test := fun t => t.dev.sr = 0x03) (by decide)⟩

/-- From reset, and with chip-select asserted. -/
theorem witness_InitFindsTheChip :
    State.reset.InitCanStart ∧ (State.reset.setCs .asserted).InitCanStart ∧
    refConfig.destructiveTest = false ∧
    wip (engineTicks 2 State.reset).dev.sr = false ∧
    State.reset.dev.profile.identifies = true ∧
    State.reset.dev.id0 = refConfig.var.id0 ∧ State.reset.dev.id1 = refConfig.var.id1 ∧
    State.reset.dev.id2 = refConfig.var.id2 :=
  ⟨⟨by decide, rfl, rfl⟩, ⟨by decide, rfl, rfl⟩, by decide⟩

/-- For InitGivesUpAfterTheBound and InitAlwaysEnds; the device of the second part is absent. -/
theorem witness_InitGivesUpAfterTheBound :
    ((wrongPart (ready sml 0 0 0)).setCs .asserted).InitCanStart ∧ sml.destructiveTest = false ∧
    wip (engineTicks 2 ((wrongPart (ready sml 0 0 0)).setCs .asserted)).dev.sr = false ∧
    (wrongPart (ready sml 0 0 0)).dev.profile.identifies = true ∧
    ¬ ((wrongPart (ready sml 0 0 0)).dev.id0 = sml.var.id0 ∧
      (wrongPart (ready sml 0 0 0)).dev.id1 = sml.var.id1 ∧
      (wrongPart (ready sml 0 0 0)).dev.id2 = sml.var.id2) :=
  ⟨⟨by decide, rfl, rfl⟩, by decide⟩

theorem witness_FailedInitLeavesFlashUnusable :
    (∃ t, exec .init (wrongPart (ready sml 0 0 0)) = .next t ∧ decide (t.x.result = 4) = true) ∧
    State.reset.ctrl.initialised = false ∧
    ∃ t, exec .init State.reset = .next t ∧ t.ctrl.initialised = true :=
  ⟨exists_of_nextOf (test := fun t => t.x.result = 4) (by decide), rfl,
    exists_of_nextOf (test := fun t => t.ctrl.initialised) (by decide)⟩

theorem witness_DestructiveSelfTestRefused :
    Config.wf { refConfig with destructiveTest := true } = true ∧
    (ready { refConfig with destructiveTest := true } 0 0 0).ctrl.phase = .idle ∧
    refConfig.destructiveTest = false := by decide

/-- A read up to the last byte of the array, and one up to the last address below `2^24`. -/
theorem witness_ReadReturnsArrayBytes :
    (ready sml 0xFFFF 1 0).Ready ∧ 1 ≤ (ready sml 0xFFFF 1 0).lenNat ∧
    (ready sml 0xFFFF 1 0).addrNat + (ready sml 0xFFFF 1 0).lenNat ≤ sml.geo.totalSize ∧
    (ready refConfig 0xFFFFFF 1 0).addrNat + (ready refConfig 0xFFFFFF 1 0).lenNat ≤ 2 ^ 24 ∧
    (ready sml 0xFFFF 1 0).Consistent ∧ wip (ready sml 0xFFFF 1 0).atCheck.dev.sr = false ∧
    wip (busyWith (ready sml 0xFFFF 1 0) (.erase 0) 2).atCheck.dev.sr = false :=
  ⟨smlReady _ _ _, by decide, by decide, by decide, rfl, by decide⟩

theorem witness_ReadFrame :
    (∃ t, exec .read (ready refConfig 0 1 0) = .next t ∧ decide (t.x.result = 0) = true) ∧
    (ready refConfig 0 1 0).lenNat ≤ 1 ∧
    ∃ t, exec .read (ready sml 0x10000 1 0) = .next t ∧ decide (t.x.result ≠ 0) = true :=
  ⟨exists_of_nextOf (test := fun t => t.x.result = 0) (by decide), by decide,
    exists_of_nextOf (test := fun t => t.x.result ≠ 0) (by decide)⟩

/-- A write that ends on its page, and the last byte below `2^24`. -/
theorem witness_WriteIsAccepted :
    (ready refConfig 250 6 0).Ready ∧ 1 ≤ (ready refConfig 250 6 0).lenNat ∧
    (ready refConfig 250 6 0).addrNat % refConfig.geo.pageSize + 6 ≤ refConfig.geo.pageSize ∧
    (ready refConfig 0xFFFFFF 1 0).addrNat + 1 ≤ refConfig.geo.totalSize ∧
    (ready refConfig 0xFFFFFF 1 0).addrNat + 1 ≤ 2 ^ 24 ∧
    (ready refConfig 250 6 0).Consistent ∧ wip (ready refConfig 250 6 0).atCheck.dev.sr = false ∧
    (ready refConfig 250 6 0).dev.profile.latch = .sets ∧
    wel ((withLatch (ready refConfig 250 6 0) .stuck).setSr 0x02).atCheck.dev.sr = true ∧
    (withLatch (ready refConfig 250 6 0) .unstated).dev.profile.latch = .unstated :=
  ⟨refReady _ _ _, by decide, by decide, by decide, by decide, rfl, by decide⟩

theorem witness_WriteFrame :
    (∃ t, exec .write (ready refConfig 0 1 0) = .next t ∧ decide (t.x.result = 0) = true) ∧
    ∃ t, exec .write (ready refConfig 255 2 0) = .next t ∧ decide (t.x.result = 2) = true :=
  ⟨exists_of_nextOf (test := fun t => t.x.result = 0) (by decide),
    exists_of_nextOf (test := fun t => t.x.result = 2) (by decide)⟩

/-- Each of the four ways at its boundary. -/
theorem witness_WriteAcrossAPageIsOutOfRange :
    (ready refConfig 255 2 0).Ready ∧ 1 ≤ (ready refConfig 255 2 0).lenNat ∧
    refConfig.geo.pageSize < (ready refConfig 255 2 0).addrNat % refConfig.geo.pageSize + 2 ∧
    refConfig.geo.pageSize < (ready refConfig 0 257 0).lenNat ∧
    sml.geo.totalSize ≤ (ready sml 0x10000 1 0).addrNat ∧
    sml.geo.totalSize < (ready sml 0xFFFF 2 0).addrNat + 2 := ⟨refReady _ _ _, by decide⟩

/-- The last block below `2^24`, with the greatest count and the least. -/
theorem witness_EraseIsAcceptedAndMovesTheCursor :
    (ready refConfig 0xFF8000 0 0xFFFFFFFF).Ready ∧
    1 ≤ (ready refConfig 0xFF8000 0 0xFFFFFFFF).countNat ∧
    1 ≤ (ready refConfig 0xFF8000 0 1).countNat ∧
    (ready refConfig 0xFF8000 0 1).addrNat % refConfig.geo.eraseBlockSize = 0 ∧
    (ready refConfig 0xFF8000 0 1).addrNat + refConfig.geo.eraseBlockSize ≤
      refConfig.geo.totalSize ∧
    (ready refConfig 0xFF8000 0 1).addrNat + refConfig.geo.eraseBlockSize ≤ 2 ^ 24 ∧
    (ready refConfig 0xFF8000 0 1).Consistent ∧
    wip (ready refConfig 0xFF8000 0 1).atCheck.dev.sr = false ∧
    (ready refConfig 0xFF8000 0 1).dev.profile.latch = .sets :=
  ⟨refReady _ _ _, by decide, by decide, by decide, by decide, by decide, rfl, by decide⟩

theorem witness_EraseFrame :
    (∃ t, exec .erase (ready refConfig 0 0 1) = .next t ∧ decide (t.x.result = 0) = true) ∧
    (∃ t, exec .erase (withLatch (ready refConfig 0 0 1) .stuck) = .next t ∧
      decide (t.x.result = 3) = true) ∧
    ∃ t, exec .erase (ready refConfig 1 0 1) = .next t ∧ decide (t.x.result = 2) = true :=
  ⟨exists_of_nextOf (test := fun t => t.x.result = 0) (by decide),
    exists_of_nextOf (test := fun t => t.x.result = 3) (by decide),
    exists_of_nextOf (test := fun t => t.x.result = 2) (by decide)⟩

theorem witness_MisalignedEraseIsOutOfRange :
    (ready refConfig 1 0 1).Ready ∧ 1 ≤ (ready refConfig 1 0 1).countNat ∧
    (ready refConfig 1 0 1).addrNat % refConfig.geo.eraseBlockSize ≠ 0 ∧
    sml.geo.totalSize < (ready sml 0x10000 0 1).addrNat + sml.geo.eraseBlockSize :=
  ⟨refReady _ _ _, by decide⟩

theorem witness_ReadOutsideTheArrayIsOutOfRange :
    (ready sml 0xFFFF 2 0).Ready ∧ 1 ≤ (ready sml 0xFFFF 2 0).lenNat ∧
    sml.geo.totalSize < (ready sml 0xFFFF 2 0).addrNat + (ready sml 0xFFFF 2 0).lenNat ∧
    sml.geo.totalSize ≤ (ready sml 0x10000 1 0).addrNat := ⟨smlReady _ _ _, by decide⟩

/-- One busy state in which READ, WRITE and ERASE all pass validation. -/
theorem witness_BusyDeviceRejectsOperations :
    (busyWith (ready refConfig 0 256 1) (.erase 0) 9).Ready ∧
    wip (busyWith (ready refConfig 0 256 1) (.erase 0) 9).atCheck.dev.sr = true ∧
    1 ≤ (ready refConfig 0 256 1).lenNat ∧ 1 ≤ (ready refConfig 0 256 1).countNat ∧
    (ready refConfig 0 256 1).addrNat % refConfig.geo.pageSize + 256 ≤ refConfig.geo.pageSize ∧
    (ready refConfig 0 256 1).addrNat % refConfig.geo.eraseBlockSize = 0 ∧
    (ready refConfig 0 256 1).addrNat + refConfig.geo.eraseBlockSize ≤ refConfig.geo.totalSize ∧
    (ready refConfig 0 256 1).addrNat + refConfig.geo.eraseBlockSize ≤ 2 ^ 24 :=
  ⟨refReady 0 256 1, by decide⟩

/-- The operands of the witness above, at a device whose latch does not set; and at one that leaves
it to a free value, one of the two values a free value has, which no proof can name. -/
theorem witness_LatchThatDoesNotSetFailsTheOperation :
    (withLatch (ready refConfig 0 256 1) .stuck).Ready ∧
    (withLatch (ready refConfig 0 256 1) .stuck).Consistent ∧
    wip (withLatch (ready refConfig 0 256 1) .stuck).atCheck.dev.sr = false ∧
    wel (withLatch (ready refConfig 0 256 1) .stuck).atCheck.dev.sr = false ∧
    (withLatch (ready refConfig 0 256 1) .stuck).dev.profile.latch = .stuck ∧
    (withLatch (ready refConfig 0 256 1) .unstated).dev.profile.latch = .unstated ∧
    (Config.freeBit ((withLatch (ready refConfig 0 256 1) .unstated).draws + 2) = false ∨
      Config.freeBit ((withLatch (ready refConfig 0 256 1) .unstated).draws + 2) = true) :=
  ⟨refReady 0 256 1, rfl, by decide, by decide, rfl, rfl, by
    cases Config.freeBit ((withLatch (ready refConfig 0 256 1) .unstated).draws + 2) <;> simp⟩

/-- One byte too far for READ, the first byte out of reach for WRITE, the first block for ERASE. -/
theorem witness_ReachAboveTwentyFourBitsRefused :
    (ready refConfig 0xFFFFFF 2 0).Ready ∧
    2 ^ 24 < (ready refConfig 0xFFFFFF 2 0).addrNat + (ready refConfig 0xFFFFFF 2 0).lenNat ∧
    (ready refConfig 0xFFFFFF 2 0).addrNat + 2 ≤ refConfig.geo.totalSize ∧
    2 ^ 24 < (ready refConfig 0x1000000 1 1).addrNat + (ready refConfig 0x1000000 1 1).lenNat ∧
    (ready refConfig 0x1000000 1 1).addrNat % refConfig.geo.pageSize + 1 ≤ refConfig.geo.pageSize ∧
    1 ≤ (ready refConfig 0x1000000 1 1).countNat ∧
    (ready refConfig 0x1000000 1 1).addrNat % refConfig.geo.eraseBlockSize = 0 ∧
    2 ^ 24 < (ready refConfig 0x1000000 1 1).addrNat + refConfig.geo.eraseBlockSize :=
  ⟨refReady _ _ _, by decide⟩

/-- Both policies, at the last address of the array and just past it. -/
theorem witness_ZeroLengthAndZeroCount :
    (ready sml 0xFFFF 0 0).Ready ∧ (ready sml 0xFFFF 0 0).lenNat = 0 ∧
    (ready sml 0xFFFF 0 0).countNat = 0 ∧ sml.zeroLen = .refuse ∧ sml.zeroCount = .refuse ∧
    Config.wf { sml with zeroLen := .succeed, zeroCount := .succeed } = true ∧
    (ready sml 0xFFFF 0 0).addrNat < sml.geo.totalSize ∧
    ¬ (ready sml 0x10000 0 0).addrNat < sml.geo.totalSize := ⟨smlReady _ _ _, by decide⟩

theorem witness_OperationsWithoutMeaningRefused :
    Config.wf { refConfig with maxXfer := 0 } = false ∧ refConfig.wf = true ∧
    (inside (ready refConfig 0 0 0) []).ctrl.phase ≠ .idle ∧
    State.reset.cfg.wf = true ∧ State.reset.ctrl.phase = .idle ∧
    State.reset.ctrl.initialised = false := by decide

/-- For IsBusyReportsWip, PollRepeatsIsBusy, QueryAndInitFrame and GetGeometryReturnsTheGeometry. -/
theorem witness_Queries :
    (ready refConfig 0 0 0).Ready ∧ wip (ready refConfig 0 0 0).atCheck.dev.sr = false ∧
    wip ((ready refConfig 0 0 0).setSr 0xFF).atCheck.dev.sr = true ∧
    (∃ t, exec .isBusy (ready refConfig 0 0 0) = .next t ∧ (!t.x.busy) = true) ∧
    (∃ t, exec .poll (ready refConfig 0 0 0) = .next t ∧ (!t.x.busy) = true) ∧
    ∃ t, exec .init (ready refConfig 0 0 0) = .next t ∧ t.ctrl.initialised = true :=
  ⟨refReady _ _ _, by decide, by decide, exists_of_nextOf (test := fun t => !t.x.busy) (by decide),
    exists_of_nextOf (test := fun t => !t.x.busy) (by decide),
    exists_of_nextOf (test := fun t => t.ctrl.initialised) (by decide)⟩

/-- Whatever the delay of an accepted update is, the engine completes it. -/
theorem completes {t : State} (h : t.dev.pending.isSome = true) :
    ∃ n, (engineTicks n t).dev.pending = none := by
  obtain ⟨p, hp⟩ := Option.isSome_iff_exists.1 h
  refine ⟨p.delay + 1, ?_⟩
  rw [engineTicks_dev, Dev.ticks_of_some _ _ hp, if_neg (by omega)]
  exact (Dev.complete_consistent _ _ p).1

theorem witness_WriteThenReadRoundTrip :
    (ready refConfig 255 1 0).Ready ∧ (ready refConfig 255 1 0).Consistent ∧
    1 ≤ (ready refConfig 255 1 0).lenNat ∧
    ∃ t n, exec .write (ready refConfig 255 1 0) = .next t ∧ t.x.result = 0 ∧
      (engineTicks n t).dev.pending = none := by
  obtain ⟨t, h, ht⟩ := exists_of_nextOf (o := exec .write (ready refConfig 255 1 0))
    (test := fun t => t.x.result = 0 && t.dev.pending.isSome) (by decide)
  simp only [Bool.and_eq_true, decide_eq_true_eq] at ht
  obtain ⟨n, hn⟩ := completes ht.2
  exact ⟨refReady _ _ _, rfl, by decide, t, n, h, ht.1, hn⟩

theorem witness_EraseThenReadGivesErasedBytes :
    (ready sml 0xF000 0 1).Ready ∧ (ready sml 0xF000 0 1).Consistent ∧
    1 ≤ (ready sml 0xF000 0 1).countNat ∧
    ∃ t n, exec .erase (ready sml 0xF000 0 1) = .next t ∧ t.x.result = 0 ∧
      (engineTicks n t).dev.pending = none := by
  obtain ⟨t, h, ht⟩ := exists_of_nextOf (o := exec .erase (ready sml 0xF000 0 1))
    (test := fun t => t.x.result = 0 && t.dev.pending.isSome) (by decide)
  simp only [Bool.and_eq_true, decide_eq_true_eq] at ht
  obtain ⟨n, hn⟩ := completes ht.2
  exact ⟨smlReady _ _ _, rfl, by decide, t, n, h, ht.1, hn⟩

end Sys2Proof.Tests
end

/-! PROOFS. The shape of a step, and the grounds on which an instruction is refused. -/

namespace Sys2Proof.Machine

/-! ### What a step answers: one equation per branch -/

/-- With no line of the host, DEV_ENGINE alone moves (20 R61, 70 R134). -/
theorem step_of_no_line {s : State} (hp : s.program = []) : step s = .next (engineTick s) := by
  simp only [step, hp]

/-- A line that decodes to an instruction runs it, after the engine's move and the line's writes. -/
theorem step_of_decoded {s : State} {l : Line} {rest : List Line} {i : Instr}
    (hp : s.program = l :: rest)
    (hd : decodeCode s.cfg.var (invokedCode (beginLine (engineTick s) l rest) l) = .ok i) :
    step s = exec i (beginLine (engineTick s) l rest) := by
  simp only [step, hp, hd]

/-- A line that decodes to nothing is refused with the decoder's reason (30 R71). -/
theorem step_of_undecodable {s : State} {l : Line} {rest : List Line} {e : DecodeError}
    (hp : s.program = l :: rest)
    (hd : decodeCode s.cfg.var (invokedCode (beginLine (engineTick s) l rest) l) = .error e) :
    step s = .refused (.undecodable e) := by
  simp only [step, hp, hd]

/-! ### The preconditions that do not hold -/

section Preconditions

variable {s : State} (k : State → Res State)

theorem requireConfig_refuses (hc : s.cfg.wf = false) :
    requireConfig s k = .refused .illFormedConfig := by
  simp [requireConfig, hc]

theorem requireIdle_refuses (hp : s.ctrl.phase ≠ .idle) : requireIdle s k = .refused .notIdle :=
  if_neg hp

theorem requireInitialised_refuses (hi : s.ctrl.initialised = false) :
    requireInitialised s k = .refused .notInitialised := by
  simp [requireInitialised, hi]

/-- What follows an operation that demands readiness runs behind the same demand. -/
theorem andThen_requireReady (l : State → Res State) :
    andThen (requireReady s k) l = requireReady s fun t => andThen (k t) l := by
  simp only [requireReady, requireConfig, requireIdle, requireInitialised]
  split_ifs <;> rfl

end Preconditions

/-! ### Which preconditions an instruction puts before everything else

The state `u` in which they are looked at is `s` itself, except that POLL has selected IS_BUSY by
then (`x[op] ← 4`, 30 R73), which touches neither `CFG` nor the controller. -/

/-- READ, WRITE, ERASE, IS_BUSY and POLL demand an INIT, behind the other two preconditions
(70 R136). -/
theorem exec_eq_requireReady {i : Instr}
    (h : i = .read ∨ i = .write ∨ i = .erase ∨ i = .isBusy ∨ i = .poll) (s : State) :
    ∃ u k, u.cfg = s.cfg ∧ u.ctrl = s.ctrl ∧ exec i s = requireReady u k := by
  obtain rfl | rfl | rfl | rfl | rfl := h
  · exact ⟨s, _, rfl, rfl, rfl⟩
  · exact ⟨s, _, rfl, rfl, rfl⟩
  · exact ⟨s, _, rfl, rfl, rfl⟩
  · exact ⟨s, _, rfl, rfl, rfl⟩
  · exact ⟨s.setOp 4, _, rfl, rfl, andThen_requireReady _ _⟩

/-- Every host operation that has a meaning demands a well-formed `CFG` and the phase IDLE
(60 R126). -/
theorem exec_eq_requireIdle {i : Instr} (hi : isHostOp i = true) (h6 : i ≠ .reserved6)
    (h7 : i ≠ .reserved7) (s : State) :
    ∃ u k, u.cfg = s.cfg ∧ u.ctrl = s.ctrl ∧
      exec i s = requireConfig u fun t => requireIdle t k := by
  have ofReady (h : i = .read ∨ i = .write ∨ i = .erase ∨ i = .isBusy ∨ i = .poll) :
      ∃ u k, u.cfg = s.cfg ∧ u.ctrl = s.ctrl ∧
        exec i s = requireConfig u fun t => requireIdle t k := by
    obtain ⟨u, k, hc, hctrl, he⟩ := exec_eq_requireReady h s
    exact ⟨u, _, hc, hctrl, he⟩
  cases i with
  | init | getGeometry => exact ⟨s, _, rfl, rfl, rfl⟩
  | read | write | erase | isBusy | poll => exact ofReady (by simp)
  | reserved6 => exact absurd rfl h6
  | reserved7 => exact absurd rfl h7
  | cmdWren | cmdStatus | cmdIdentify | cmdRead | cmdProgram | cmdErase | csAssert | csDeassert
  | exchange | busyCheck | wrenHandshake | selftest => cases hi

/-- Every instruction that has a meaning demands a well-formed `CFG` (00 R10, log entry 28). -/
theorem exec_eq_requireConfig {i : Instr} (h6 : i ≠ .reserved6) (h7 : i ≠ .reserved7) (s : State) :
    ∃ u k, u.cfg = s.cfg ∧ exec i s = requireConfig u k := by
  cases i with
  | cmdWren | cmdStatus | cmdIdentify | cmdRead | cmdProgram | cmdErase | csAssert | csDeassert
  | exchange | busyCheck | wrenHandshake | selftest =>
    simp only [exec, execCmdWren, execCmdStatus, execCmdIdentify, execCmdRead, execCmdProgram,
      execCmdErase, execCsAssert, execCsDeassert, execExchange, execBusyCheck, execWrenHandshake,
      execSelftest, alone]
    exact ⟨s, _, rfl, rfl⟩
  | init | read | write | erase | isBusy | getGeometry | poll | reserved6 | reserved7 =>
    obtain ⟨u, k, hc, -, he⟩ := exec_eq_requireIdle rfl h6 h7 s
    exact ⟨u, _, hc, he⟩

/-! ### The refusals -/

theorem exec_refuses_illFormed {i : Instr} {s : State} (hc : s.cfg.wf = false)
    (h6 : i ≠ .reserved6) (h7 : i ≠ .reserved7) : exec i s = .refused .illFormedConfig := by
  obtain ⟨u, k, hu, he⟩ := exec_eq_requireConfig h6 h7 s
  rw [he, requireConfig_refuses k (hu ▸ hc)]

theorem exec_refuses_notIdle {i : Instr} {s : State} (hc : s.cfg.wf = true)
    (hp : s.ctrl.phase ≠ .idle) (hi : isHostOp i = true) (h6 : i ≠ .reserved6)
    (h7 : i ≠ .reserved7) : exec i s = .refused .notIdle := by
  obtain ⟨u, k, hu, hctrl, he⟩ := exec_eq_requireIdle hi h6 h7 s
  rw [he, requireConfig_pass _ (hu ▸ hc), requireIdle_refuses k (hctrl ▸ hp)]

theorem exec_refuses_notInitialised {i : Instr} {s : State} (hc : s.cfg.wf = true)
    (hp : s.ctrl.phase = .idle) (hn : s.ctrl.initialised = false)
    (hi : i = .read ∨ i = .write ∨ i = .erase ∨ i = .isBusy ∨ i = .poll) :
    exec i s = .refused .notInitialised := by
  obtain ⟨u, k, hu, hctrl, he⟩ := exec_eq_requireReady hi s
  rw [he, requireReady, requireConfig_pass _ (hu ▸ hc), requireIdle_pass _ (hctrl ▸ hp),
    requireInitialised_refuses k (hctrl ▸ hn)]

/-! ### The obligations -/

/-- Settles O9: the three branches of the step. -/
theorem stepRunsDecodedInstruction : Obligations.StepRunsDecodedInstruction :=
  ⟨fun _ _ _ _ hp hd => step_of_decoded hp hd, fun _ _ _ _ hp hd => step_of_undecodable hp hd,
    fun _ hp => step_of_no_line hp⟩

/-- Settles O52: each ground is the first precondition that does not hold; the two reserved selections
have no precondition at all. -/
theorem operationsWithoutMeaningRefused : Obligations.OperationsWithoutMeaningRefused := fun _ =>
  ⟨fun hc _ h6 h7 => exec_refuses_illFormed hc h6 h7,
    fun hc hp _ hi h6 h7 => exec_refuses_notIdle hc hp hi h6 h7,
    fun hc hp hn _ hi => exec_refuses_notInitialised hc hp hn hi, rfl, rfl⟩

end Sys2Proof.Machine

/-! PROOFS. The state: canonical memories, the reset state, a line of the host, which registers an
instruction writes, the captured reply that no operation reads, and the invariant that every step
keeps. -/

namespace Sys2Proof.Machine

/-! ### Canonical memories -/

/-- A canonical memory lists exactly the bytes that do not read as an unlisted address does. -/
theorem Memory.mem_iff_read {m : Memory} (h : m.wf) (c : Host.Cell) :
    c ∈ m ↔ m.read c.1 = c.2 ∧ c.2 ≠ Memory.unlisted := by
  induction m with
  | nil =>
    simp only [List.not_mem_nil, Memory.read_nil, false_iff]
    exact fun hc => hc.2 hc.1.symm
  | cons d m ih =>
    obtain ⟨hsorted, hlisted⟩ := h
    rw [List.pairwise_cons] at hsorted
    obtain ⟨hfirst, hsorted⟩ := hsorted
    have ih := ih ⟨hsorted, fun e he => hlisted e (List.mem_cons_of_mem d he)⟩
    rw [Memory.read_cons, List.mem_cons]
    by_cases hd : d.1 = c.1
    · have hc : c ∉ m := fun hc => absurd hd (Nat.ne_of_lt (hfirst c hc))
      have hdv := hlisted d List.mem_cons_self
      rw [if_pos hd]
      constructor
      · rintro (rfl | hm)
        · exact ⟨rfl, hdv⟩
        · exact absurd hm hc
      · exact fun hr => .inl (Prod.ext hd.symm hr.1.symm)
    · rw [if_neg hd, ← ih]
      exact or_iff_right fun hcd => hd (congrArg Prod.fst hcd.symm)

/-- Settles O19: both memories list the same cells, in the one order their addresses have. -/
theorem canonicalMemoriesAreEqual : Obligations.CanonicalMemoriesAreEqual := by
  intro m n hm hn hsame
  have hanti : Std.Antisymm fun c d : Host.Cell => c.1 < d.1 :=
    ⟨fun _ _ h h' => absurd h' (Nat.lt_asymm h)⟩
  have hirr : Std.Irrefl fun c d : Host.Cell => c.1 < d.1 := ⟨fun c => Nat.lt_irrefl c.1⟩
  exact hm.1.eq_of_mem_iff hn.1 fun c => by
    rw [Memory.mem_iff_read hm, Memory.mem_iff_read hn, hsame]

/-! ### The reset state -/

/-- Settles O6. -/
theorem resetValuesOfTheSpec : Obligations.ResetValuesOfTheSpec := ⟨rfl, rfl, rfl⟩

/-- Settles O7: the memories are empty, the device is idle and has heard nothing, and the trace is
empty. -/
theorem resetSatisfiesInvariant : Obligations.ResetSatisfiesInvariant where
  srcWf := Memory.wf_nil
  dstWf := Memory.wf_nil
  arrayWf := Memory.wf_nil
  arrayBelow := fun _ hc => absurd hc List.not_mem_nil
  wipShowsPending := rfl
  pendingExists := trivial
  noExchange := rfl
  busPosition := .inl ⟨rfl, rfl, rfl, rfl⟩
  busySinceOpcode := fun hrx => absurd rfl hrx
  traceLevel := rfl

/-! ### A line of the host -/

/-- The bytes a line gives go to the source buffer from index 0; a line that gives none writes
none. -/
theorem beginLine_src (s : State) (l : Line) (rest : List Line) :
    (beginLine s l rest).src = s.src.writeBytes 0 (l.src.getD []) := by
  obtain ⟨code, addr, len, count, src⟩ := l
  cases code <;> cases src <;> rfl

/-- What a line of the host leaves: everything but the program, the operand registers and the source
buffer. -/
theorem beginLine_frame (s : State) (l : Line) (rest : List Line) :
    (beginLine s l rest).cfg = s.cfg ∧ (beginLine s l rest).ctrl = s.ctrl ∧
      (beginLine s l rest).dst = s.dst ∧ (beginLine s l rest).dev = s.dev ∧
      (beginLine s l rest).trace = s.trace ∧ (beginLine s l rest).capture = s.capture ∧
      (beginLine s l rest).draws = s.draws := by
  obtain ⟨code, addr, len, count, src⟩ := l
  cases code <;> cases src <;> exact ⟨rfl, rfl, rfl, rfl, rfl, rfl, rfl⟩

/-- Settles O10: by the three kinds of line, and by whether the line gives bytes. -/
theorem hostLineWritesOperands : Obligations.HostLineWritesOperands := by
  intro s l rest t
  refine ⟨?_, ?_, fun i => ?_, beginLine_frame s l rest⟩
  · obtain ⟨code, addr, len, count, src⟩ := l
    cases code <;> cases src <;> rfl
  · obtain ⟨code, addr, len, count, src⟩ := l
    cases code <;> cases src <;> rfl
  · rw [beginLine_src, Memory.read_writeBytes]
    simp

/-! ### What keeps the device sound -/

/-- Two devices that differ in the bytes on the bus alone are sound alike. -/
theorem Dev.Sound.onBus {c : Config} {d : Dev} (h : d.Sound c) (r : List Byte) (g : Bool) :
    (d.onBus r g).Sound c :=
  ⟨h.consistent, h.wf, h.below, h.exists_⟩

/-- A status byte with the same `WIP` keeps a device sound. -/
theorem Dev.Sound.withSr {c : Config} {d : Dev} (h : d.Sound c) {sr : Byte}
    (hw : wip sr = wip d.sr) : ({ d with sr := sr } : Dev).Sound c :=
  ⟨h.consistent.trans hw.symm, h.wf, h.below, h.exists_⟩

theorem Dev.Sound.hearAll {c : Config} {d : Dev} (h : d.Sound c) (txs : List Byte) :
    (d.hearAll c txs).Sound c := by
  obtain ⟨r, g, he, -⟩ := Dev.hearAll_eq c txs d
  rw [he]
  exact (Dev.Sound.ticks _ h).onBus r g

theorem sound_wrenEffect {c : Config} {s : State} (h : s.dev.Sound c) :
    (wrenEffect s).dev.Sound c := by
  obtain ⟨b, k, he | he⟩ := wrenEffect_cases s <;> rw [he]
  · exact h.withSr (wip_withWel _ _)
  · exact h

theorem sound_strayEffect {c : Config} {s : State} (h : s.dev.Sound c) :
    (strayEffect s).dev.Sound c := by
  obtain ⟨b, k, he | he⟩ := strayEffect_cases s <;> rw [he]
  · exact h.withSr (wip_withWel _ _)
  · exact h

/-- Accepting an update of addresses that exist keeps the device sound (20 R59, R60). -/
theorem sound_accept {c : Config} {s : State} {u : ArrayUpdate} (h : s.dev.Sound c)
    (hu : pendingInArray c.geo (accept s u).dev.pending) : (accept s u).dev.Sound c where
  consistent := by simp [accept]
  wf := h.wf
  below := h.below
  exists_ := by
    intro p hp
    rw [hp] at hu
    exact hu

/-- Whatever frame it acts on, the device stays sound. -/
theorem deviceActs_sound {s t : State} (h : deviceActs s = .next t) (hs : s.dev.Sound s.cfg) :
    t.dev.Sound s.cfg := by
  rcases deviceActs_cases h with rfl | ⟨-, rfl⟩ | rfl | ⟨a2, a1, a0, d, -, -, -, hin, rfl⟩ |
    ⟨a2, a1, a0, more, -, -, hlt, rfl⟩
  · exact hs
  · exact sound_wrenEffect hs
  · exact sound_strayEffect hs
  · exact sound_accept hs hin
  · exact sound_accept hs hlt

/-! ### The clause of the invariant about a busy device in a transaction -/

/-- A device that is busy inside a transaction was busy when the opcode came (20 R62). -/
def Dev.BusySinceOpcode (d : Dev) : Prop := d.rx ≠ [] → wip d.sr = true → d.ignoring = true

theorem Dev.BusySinceOpcode.tick {d : Dev} (h : d.BusySinceOpcode) (c : Config) :
    (d.tick c).BusySinceOpcode := by
  obtain ⟨-, -, -, hrx, hig, -⟩ := Dev.tick_frame c d
  intro hr hw
  rw [hrx] at hr
  rw [hig]
  refine h hr ?_
  by_contra hn
  simp [Dev.tick_wip c (Bool.eq_false_of_not_eq_true hn)] at hw

theorem Dev.BusySinceOpcode.hear {d : Dev} (h : d.BusySinceOpcode) (tx : Byte) :
    (d.hear tx).BusySinceOpcode := by
  intro _ hw
  rw [Dev.hear_eq] at hw ⊢
  by_cases hr : d.rx = []
  · simpa [hr] using hw
  · simpa [hr] using h hr hw

theorem Dev.BusySinceOpcode.hearAll (c : Config) : ∀ (txs : List Byte) {d : Dev},
    d.BusySinceOpcode → (d.hearAll c txs).BusySinceOpcode
  | [], _, h => h
  | tx :: txs, _, h => Dev.BusySinceOpcode.hearAll c txs ((h.tick c).hear tx)

/-! ### The block outside a transaction

`State.Outside` is what the invariant says of the block outside a transaction, the phase left open:
every transaction keeps it, and in IDLE it is the invariant again. -/

/-- The invariant outside a transaction, but for the phase. -/
structure State.Outside (s : State) : Prop where
  srcWf : s.src.wf
  dstWf : s.dst.wf
  sound : s.dev.Sound s.cfg
  noExchange : s.ctrl.xferActive = false
  cs : s.ctrl.cs = .deasserted
  silent : s.dev.rx = [] ∧ s.dev.ignoring = false
  level : levelAfter .deasserted s.trace = some .deasserted

theorem State.Inv.sound {s : State} (h : s.Inv) : s.dev.Sound s.cfg where
  consistent := h.wipShowsPending
  wf := h.arrayWf
  below := h.arrayBelow
  exists_ := by
    intro p hp
    have := h.pendingExists
    rw [hp] at this
    exact this

theorem pendingInArray_of_sound {c : Config} {d : Dev} (h : d.Sound c) :
    pendingInArray c.geo d.pending := by
  cases hp : d.pending with
  | none => trivial
  | some p => exact h.exists_ p hp

/-- The invariant, its four clauses about the device put together as `Dev.Sound`. -/
theorem inv_of_sound {s : State} (srcWf : s.src.wf) (dstWf : s.dst.wf)
    (sound : s.dev.Sound s.cfg) (noExchange : s.ctrl.xferActive = false)
    (busPosition : (s.ctrl.cs = .deasserted ∧ s.ctrl.phase = .idle ∧ s.dev.rx = [] ∧
      s.dev.ignoring = false) ∨ (s.ctrl.cs = .asserted ∧ s.ctrl.phase = .command))
    (busySinceOpcode : s.dev.BusySinceOpcode)
    (traceLevel : levelAfter .deasserted s.trace = some s.ctrl.cs) : s.Inv where
  srcWf := srcWf
  dstWf := dstWf
  arrayWf := sound.wf
  arrayBelow := sound.below
  wipShowsPending := sound.consistent
  pendingExists := pendingInArray_of_sound sound
  noExchange := noExchange
  busPosition := busPosition
  busySinceOpcode := busySinceOpcode
  traceLevel := traceLevel

theorem State.Inv.outside {s : State} (h : s.Inv) (hcs : s.ctrl.cs = .deasserted) : s.Outside := by
  rcases h.busPosition with ⟨-, -, hsilent⟩ | ⟨hcs', -⟩
  · exact ⟨h.srcWf, h.dstWf, h.sound, h.noExchange, hcs, hsilent, hcs ▸ h.traceLevel⟩
  · simp [hcs] at hcs'

/-- In IDLE the block is outside a transaction. -/
theorem State.Inv.outside_of_idle {s : State} (h : s.Inv) (hp : s.ctrl.phase = .idle) :
    s.Outside := by
  rcases h.busPosition with ⟨hcs, -⟩ | ⟨-, hp'⟩
  · exact h.outside hcs
  · simp [hp] at hp'

theorem State.Outside.inv {s : State} (h : s.Outside) (hp : s.ctrl.phase = .idle) : s.Inv :=
  inv_of_sound h.srcWf h.dstWf h.sound h.noExchange (.inl ⟨h.cs, hp, h.silent⟩)
    (fun hrx => absurd h.silent.1 hrx) (h.level.trans (congrArg some h.cs.symm))

theorem State.Outside.setCapture {s : State} (h : s.Outside) (bs : List Byte) :
    (s.setCapture bs).Outside := { h with }

/-- A transaction in which the device does nothing. -/
theorem State.Outside.closed {s : State} (h : s.Outside) (tx rx : List Byte) (k : Nat) :
    (closed s tx rx k).Outside :=
  { h with
    sound := (Dev.Sound.ticks _ h.sound).onBus _ _
    silent := ⟨rfl, rfl⟩
    level := by
      change levelAfter .deasserted (s.trace ++ _) = _
      rw [levelAfter_append, h.level, Option.bind_some, levelAfter_transaction] }

theorem State.Outside.wrenEffect {s : State} (h : s.Outside) : (wrenEffect s).Outside := by
  have hsound := sound_wrenEffect h.sound
  obtain ⟨b, k, he | he⟩ := wrenEffect_cases s <;> rw [he] at hsound ⊢
  · exact { h with sound := hsound }
  · exact h

theorem State.Outside.strayEffect {s : State} (h : s.Outside) : (strayEffect s).Outside := by
  have hsound := sound_strayEffect h.sound
  obtain ⟨b, k, he | he⟩ := strayEffect_cases s <;> rw [he] at hsound ⊢
  · exact { h with sound := hsound }
  · exact h

theorem State.Outside.accept {s : State} {u : ArrayUpdate} (h : s.Outside)
    (hu : pendingInArray s.cfg.geo (accept s u).dev.pending) : (accept s u).Outside :=
  { h with sound := sound_accept h.sound hu }

/-! ### What a wire command keeps -/

/-- Neither `CFG` nor a register of the host is written, and the block stays outside a
transaction. -/
structure Kept (s t : State) : Prop where
  cfg : t.cfg = s.cfg
  x : t.x = s.x
  outside : s.Outside → t.Outside

theorem Kept.refl (s : State) : Kept s s := ⟨rfl, rfl, id⟩

theorem Kept.trans {s t u : State} (h : Kept s t) (k : Kept t u) : Kept s u :=
  ⟨k.cfg.trans h.cfg, k.x.trans h.x, k.outside ∘ h.outside⟩

/-- The device accepts the update that a transaction has sent. -/
theorem Kept.accept {s t : State} {u : ArrayUpdate} (h : Kept s t)
    (hu : pendingInArray s.cfg.geo (accept t u).dev.pending) : Kept s (accept t u) :=
  ⟨h.cfg, h.x, fun hs => (h.outside hs).accept (h.cfg.symm ▸ hu)⟩

theorem kept_strayEffect (s : State) : Kept s (strayEffect s) := by
  refine ⟨?_, ?_, fun hs => hs.strayEffect⟩ <;>
    obtain ⟨b, k, he | he⟩ := strayEffect_cases s <;> rw [he] <;> rfl

theorem kept_statusDone (s : State) : Kept s (statusDone s) :=
  ⟨rfl, rfl, fun h => (h.closed _ _ _).setCapture _⟩

theorem kept_wrenDone (s : State) : Kept s (wrenDone s) :=
  ⟨wrenDone_cfg s, wrenDone_x s, fun h => ((h.closed _ _ _).setCapture _).wrenEffect⟩

theorem kept_handshakeDone (s : State) : Kept s (handshakeDone s) :=
  (kept_wrenDone s).trans (kept_statusDone _)

theorem kept_identifyDone (s : State) (rs : List Byte) (k : Nat) : Kept s (identifyDone s rs k) :=
  ⟨rfl, rfl, fun h => (h.closed _ _ _).setCapture _⟩

theorem kept_readDone (s : State) (a : Addr24) (rs : List Byte) (k : Nat) (cap : List Byte) :
    Kept s (readDone s a rs k cap) :=
  ⟨rfl, rfl, fun h =>
    { h.closed (header s.cfg.var.opRead a ++ List.replicate rs.length s.cfg.txFill)
        (freeBytes s.draws 4 ++ rs) k with
      dstWf := Memory.wf_writeBytes _ _ _ h.dstWf }⟩

theorem kept_programSent (s : State) (a : Addr24) (data : List Byte) :
    Kept s (programSent s a data) :=
  ⟨rfl, rfl, fun h =>
    { h.closed (header s.cfg.var.opProgram a ++ data) (freeBytes s.draws (4 + data.length))
        (4 + data.length) with }⟩

theorem kept_eraseSent (s : State) (a : Addr24) : Kept s (eraseSent s a) :=
  ⟨rfl, rfl, fun h => (h.closed _ _ _).setCapture _⟩

/-- What a wire command has done when it answers a next state: it started outside a transaction and
stayed outside one. -/
structure Transacted (s t : State) : Prop extends Kept s t where
  started : s.ctrl.cs = .deasserted

theorem cmdStatus_transacted {s t : State} (h : cmdStatus s = .next t) : Transacted s t := by
  obtain ⟨hcs, -, rfl⟩ := cmdStatus_next h
  exact ⟨kept_statusDone s, hcs⟩

theorem cmdWren_transacted {s t : State} (hc : s.cfg.wf = true) (h : cmdWren s = .next t) :
    Transacted s t := by
  obtain ⟨hcs, -, rfl⟩ := cmdWren_next hc h
  exact ⟨kept_wrenDone s, hcs⟩

theorem cmdIdentify_transacted {s t : State} (hc : s.cfg.wf = true)
    (h : cmdIdentify s = .next t) : Transacted s t := by
  obtain ⟨hcs, -, rs, k, -, rfl⟩ := cmdIdentify_next hc h
  exact ⟨kept_identifyDone s rs k, hcs⟩

theorem cmdRead_transacted {a : Addr24} {n : Nat} {s t : State} (hc : s.cfg.wf = true)
    (h : cmdRead a n s = .next t) : Transacted s t := by
  obtain ⟨hcs, -, rs, k, cap, -, -, rfl⟩ := cmdRead_next hc h
  exact ⟨kept_readDone s a rs k cap, hcs⟩

theorem cmdProgram_transacted {a : Addr24} {data : List Byte} {s t : State}
    (hc : s.cfg.wf = true) (h : cmdProgram a data s = .next t) : Transacted s t := by
  obtain ⟨hcs, -, ⟨-, rfl⟩ | ⟨-, -, hin, rfl⟩ | ⟨-, rfl⟩⟩ := cmdProgram_next hc h
  · exact ⟨kept_programSent s a data, hcs⟩
  · exact ⟨(kept_programSent s a data).accept hin, hcs⟩
  · exact ⟨(kept_programSent s a data).trans (kept_strayEffect _), hcs⟩

theorem cmdErase_transacted {a : Addr24} {s t : State} (hc : s.cfg.wf = true)
    (h : cmdErase a s = .next t) : Transacted s t := by
  obtain ⟨hcs, -, ⟨-, rfl⟩ | ⟨-, hlt, rfl⟩⟩ := cmdErase_next hc h
  · exact ⟨kept_eraseSent s a, hcs⟩
  · exact ⟨(kept_eraseSent s a).accept hlt, hcs⟩

theorem wrenHandshake_transacted {s t : State} (hc : s.cfg.wf = true)
    (h : wrenHandshake s = .next t) : Transacted s t := by
  obtain ⟨hcs, -, rfl⟩ := wrenHandshake_next hc h
  exact ⟨kept_handshakeDone s, hcs⟩

/-- The identification loop of INIT, a run of identify transactions. -/
theorem identifyLoop_kept : ∀ (fuel : Nat) {s t : State} {b : Bool}, s.cfg.wf = true →
    identifyLoop fuel s = .next (t, b) → Kept s t := by
  intro fuel
  induction fuel with
  | zero =>
    intro s t b _ h
    obtain ⟨rfl, -⟩ : s = t ∧ false = b := by simpa [identifyLoop] using h
    exact Kept.refl s
  | succ fuel ih =>
    intro s t b hc h
    rw [identifyLoop, andThen_eq_next] at h
    obtain ⟨u, hu, h⟩ := h
    obtain ⟨hcfg, hx, hout⟩ := (cmdIdentify_transacted (by exact hc) hu).toKept
    have hsu : Kept s u := ⟨hcfg, hx, fun hs => hout { hs with }⟩
    split at h
    · obtain ⟨rfl, -⟩ : u = t ∧ true = b := by simpa using h
      exact hsu
    · exact hsu.trans (ih (hcfg ▸ hc) h)

/-! ### What an instruction keeps, and which registers it writes -/

/-- The results an instruction may return (60 R121). -/
def mayReturn : Instr → List ResultCode
  | .init => [.success, .identificationFailed]
  | .read => [.success, .busy, .outOfRange]
  | .write | .erase => [.success, .busy, .outOfRange, .writeEnableFailed]
  | _ => []

/-- The registers after an instruction, from those before it (10 R28, 46 R114): one constructor for
each way in which an instruction writes them. -/
inductive RegsAfter (s t : State) : Instr → Prop
  /-- A wire command, a primitive, or a pseudo-operation but POLL writes none. -/
  | none {i : Instr} (hi : isHostOp i = false) (hx : t.x = s.x) : RegsAfter s t i
  /-- A result, and no other register; Success of an ERASE is here for a zero count only. -/
  | result {i : Instr} {r : ResultCode} (hr : r ∈ mayReturn i)
      (h0 : i = .erase → r = .success → s.countNat = 0)
      (hx : t.x = { s.x with result := resultCode r }) : RegsAfter s t i
  /-- An ERASE that succeeded moved the cursor by one block within reach. -/
  | cursor (hreach : s.addrNat + s.cfg.geo.eraseBlockSize ≤ 2 ^ 24)
      (hx : t.x = { (advanceCursor s).x with result := resultCode .success }) :
      RegsAfter s t .erase
  | isBusy {b : Bool} (hx : t.x = { s.x with busy := b }) : RegsAfter s t .isBusy
  | poll {b : Bool} (hx : t.x = { s.x with op := 4, busy := b }) : RegsAfter s t .poll
  | geometry (hx : t.x = { s.x with geo := s.cfg.geo }) : RegsAfter s t .getGeometry

/-- What every instruction that answers a next state has done: it left `CFG`, wrote its own
registers and no others, and kept the invariant. -/
structure Effect (i : Instr) (s t : State) : Prop where
  cfg : t.cfg = s.cfg
  regs : RegsAfter s t i
  inv : s.Inv → t.Inv

/-- A wire command, or a check made of wire commands, run as a row of its own. -/
theorem effect_of_alone {i : Instr} {cmd : State → Res State} {s t : State}
    (hi : isHostOp i = false)
    (hcmd : ∀ u, s.cfg.wf = true → cmd s = .next u → Transacted s u)
    (h : alone cmd s = .next t) : Effect i s t := by
  simp only [alone, requireConfig_eq_next, andThen_eq_next, Host.Outcome.next.injEq] at h
  obtain ⟨hc, u, hu, rfl⟩ := h
  obtain ⟨⟨hcfg, hx, hout⟩, hcs⟩ := hcmd u hc hu
  exact ⟨hcfg, .none hi hx, fun hs => State.Outside.inv { hout (hs.outside hcs) with } rfl⟩

/-- A host operation that ends with a result and writes no register but `x[result]`. -/
theorem effect_of_finish {i : Instr} {s u : State} {r : ResultCode} (hp : s.ctrl.phase = .idle)
    (hr : r ∈ mayReturn i) (h0 : i = .erase → r = .success → s.countNat = 0) (h : Kept s u) :
    Effect i s (u.finish r) where
  cfg := h.cfg
  regs := .result hr h0 (by rw [State.finish_x, h.x])
  inv := fun hs => State.Outside.inv { h.outside (hs.outside_of_idle hp) with } rfl

theorem effect_init {s t : State} (h : execInit s = .next t) : Effect .init s t := by
  obtain ⟨hc, hp, -, u, b, hl, rfl⟩ := execInit_next h
  obtain ⟨hcfg, hx, hout⟩ := identifyLoop_kept _ (by exact hc) hl
  have hsu : Kept s u := ⟨hcfg, hx, fun hs => hout { hs with cs := rfl }⟩
  cases b
  · exact effect_of_finish hp (by simp [mayReturn]) (by simp) hsu
  · refine effect_of_finish hp (by simp [mayReturn]) (by simp) ⟨hcfg, hx, fun hs => ?_⟩
    exact { hsu.outside hs with }

theorem effect_read {s t : State} (h : execRead s = .next t) : Effect .read s t := by
  have ends {u : State} {r : ResultCode} (hp : s.ctrl.phase = .idle) (hr : r ∈ mayReturn .read)
      (hu : Kept s u) : Effect .read s (u.finish r) :=
    effect_of_finish hp hr (by simp) hu
  obtain ⟨-, hp, -, ⟨-, -, rfl | rfl⟩ | ⟨-, -, rfl⟩ | ⟨-, -, -, -, -, -, h⟩⟩ := execRead_next h
  · exact ends hp (by simp [mayReturn]) (.refl s)
  · exact ends hp (by simp [mayReturn]) (.refl s)
  · exact ends hp (by simp [mayReturn]) (.refl s)
  obtain ⟨-, rfl⟩ | ⟨-, rs, k, cap, -, rfl⟩ := h
  · exact ends hp (by simp [mayReturn]) (kept_statusDone s)
  · exact ends hp (by simp [mayReturn]) ((kept_statusDone s).trans (kept_readDone _ _ rs k cap))

/-- A program that the validator admits touches addresses of the array only (40 R79). -/
theorem programInArray_of_validWrite {s : State} {m : Memory}
    (hv : validWrite s.cfg.geo s.addrNat s.lenNat = true) (ha : s.wireAddr.toNat = s.addrNat) :
    programInArray s.cfg.geo s.wireAddr.toNat (m.readBytes 0 s.lenNat).length = true := by
  simp only [validWrite, Bool.and_eq_true, decide_eq_true_eq] at hv
  obtain ⟨⟨-, hpage⟩, htotal⟩ := hv
  rw [ha, Memory.length_readBytes, programInArray, if_pos hpage]
  exact decide_eq_true htotal

theorem effect_write {s t : State} (h : execWrite s = .next t) : Effect .write s t := by
  have ends {u : State} {r : ResultCode} (hp : s.ctrl.phase = .idle) (hr : r ∈ mayReturn .write)
      (hu : Kept s u) : Effect .write s (u.finish r) :=
    effect_of_finish hp hr (by simp) hu
  have checked : Kept s (handshakeDone (statusDone s)) :=
    (kept_statusDone s).trans (kept_handshakeDone _)
  obtain ⟨-, hp, -, ⟨-, -, rfl | rfl⟩ | ⟨-, -, rfl⟩ | ⟨-, hv, -, -, -, ha, h⟩⟩ := execWrite_next h
  · exact ends hp (by simp [mayReturn]) (.refl s)
  · exact ends hp (by simp [mayReturn]) (.refl s)
  · exact ends hp (by simp [mayReturn]) (.refl s)
  obtain ⟨-, rfl⟩ | ⟨-, -, rfl⟩ | ⟨-, -, rfl | rfl⟩ := h
  · exact ends hp (by simp [mayReturn]) (kept_statusDone s)
  · exact ends hp (by simp [mayReturn]) checked
  · exact ends hp (by simp [mayReturn]) (checked.trans (kept_programSent _ _ _))
  · exact ends hp (by simp [mayReturn])
      ((checked.trans (kept_programSent _ _ _)).accept (programInArray_of_validWrite hv ha))

/-- The end of an ERASE that succeeds. -/
theorem effect_of_advanceCursor {s u : State} (hp : s.ctrl.phase = .idle)
    (hreach : s.addrNat + s.cfg.geo.eraseBlockSize ≤ 2 ^ 24) (h : Kept s u) :
    Effect .erase s ((advanceCursor u).finish .success) where
  cfg := h.cfg
  regs := .cursor hreach (by
    simp only [State.finish_x, advanceCursor, State.addrNat, State.countNat, State.setAddr,
      State.setCount, h.x, h.cfg])
  inv := fun hs => State.Outside.inv { h.outside (hs.outside_of_idle hp) with } rfl

theorem effect_erase {s t : State} (h : execErase s = .next t) : Effect .erase s t := by
  have checked : Kept s (handshakeDone (statusDone s)) :=
    (kept_statusDone s).trans (kept_handshakeDone _)
  obtain ⟨hc, hp, -, ⟨h0, -, rfl | rfl⟩ | ⟨-, -, rfl⟩ | ⟨-, hv, hb, -, -, ha, h⟩⟩ :=
    execErase_next h
  · exact effect_of_finish hp (by simp [mayReturn]) (fun _ _ => h0) (.refl s)
  · exact effect_of_finish hp (by simp [mayReturn]) (by simp) (.refl s)
  · exact effect_of_finish hp (by simp [mayReturn]) (by simp) (.refl s)
  have hblock := (config_bounds hc).2.1
  simp only [validErase, Bool.and_eq_true, decide_eq_true_eq] at hv
  simp only [beyondReach, decide_eq_false_iff_not] at hb
  have hreach : s.addrNat + s.cfg.geo.eraseBlockSize ≤ 2 ^ 24 := by omega
  have hin : s.wireAddr.toNat < s.cfg.geo.totalSize := by omega
  obtain ⟨-, rfl⟩ | ⟨-, -, rfl⟩ | ⟨-, -, rfl | rfl⟩ := h
  · exact effect_of_finish hp (by simp [mayReturn]) (by simp) (kept_statusDone s)
  · exact effect_of_finish hp (by simp [mayReturn]) (by simp) checked
  · exact effect_of_advanceCursor hp hreach (checked.trans (kept_eraseSent _ _))
  · exact effect_of_advanceCursor hp hreach ((checked.trans (kept_eraseSent _ _)).accept hin)

theorem effect_isBusy {s t : State} (h : execIsBusy s = .next t) : Effect .isBusy s t := by
  obtain ⟨-, hp, -, -, -, rfl⟩ := queryBusy_next h
  refine ⟨rfl, .isBusy rfl, fun hs => ?_⟩
  exact State.Outside.inv { (kept_statusDone s).outside (hs.outside_of_idle hp) with } rfl

theorem effect_poll {s t : State} (h : execPoll s = .next t) : Effect .poll s t := by
  obtain ⟨-, hp, -, -, -, rfl⟩ := execPoll_next h
  refine ⟨rfl, .poll rfl, fun hs => ?_⟩
  exact State.Outside.inv { (kept_statusDone s).outside (hs.outside_of_idle hp) with } rfl

theorem effect_getGeometry {s t : State} (h : execGetGeometry s = .next t) :
    Effect .getGeometry s t := by
  obtain ⟨-, hp, rfl⟩ := execGetGeometry_next h
  exact ⟨rfl, .geometry rfl, fun hs => State.Outside.inv { hs.outside_of_idle hp with } rfl⟩

/-- CS_ASSERT opens a transaction: the device has heard nothing in it yet (41 R85). -/
theorem effect_csAssert {s t : State} (h : execCsAssert s = .next t) : Effect .csAssert s t := by
  rw [execCsAssert, requireConfig_eq_next] at h
  obtain ⟨hcs, -, rfl⟩ := csAssert_eq_next h.2
  refine ⟨rfl, .none rfl rfl, fun hs => ?_⟩
  refine inv_of_sound hs.srcWf hs.dstWf (hs.sound.tick.onBus _ _) hs.noExchange
    (.inr ⟨rfl, rfl⟩) (fun hrx => absurd rfl hrx) ?_
  change levelAfter .deasserted (s.trace ++ [.csDown]) = _
  rw [levelAfter_append, hs.traceLevel, hcs]
  rfl

/-- CS_DEASSERT closes the transaction, once the device has acted on what it heard (41 R86). -/
theorem effect_csDeassert {s t : State} (h : execCsDeassert s = .next t) :
    Effect .csDeassert s t := by
  simp only [execCsDeassert, requireConfig_eq_next, andThen_eq_next, Host.Outcome.next.injEq] at h
  obtain ⟨-, v, hv, rfl⟩ := h
  obtain ⟨hcs, hx, u, hu, rfl⟩ := csDeassert_eq_next hv
  obtain ⟨hcfg, hctrl, hregs, hsrc, hdst, htrace, -⟩ := deviceActs_frame hu
  refine ⟨hcfg, .none rfl hregs, fun hs => ?_⟩
  have hsound : u.dev.Sound u.cfg := by
    rw [hcfg]; exact deviceActs_sound hu hs.sound.tick
  refine State.Outside.inv ⟨?_, ?_, hsound.onBus _ _, ?_, rfl, ⟨rfl, rfl⟩, ?_⟩ rfl
  · change u.src.wf
    rw [hsrc]; exact hs.srcWf
  · change u.dst.wf
    rw [hdst]; exact hs.dstWf
  · change u.ctrl.xferActive = false
    rw [hctrl]; exact hx
  · change levelAfter .deasserted (u.trace ++ [.csUp]) = _
    rw [htrace, engineTick_trace, levelAfter_append, hs.traceLevel, hcs]
    rfl

/-- EXCHANGE goes on with the transaction: the device hears bytes (41 R88). -/
theorem effect_exchange {w : List Byte} {n : Nat} {async : Bool} {s t : State}
    (h : execExchange w n async s = .next t) : Effect (.exchange w n async) s t := by
  rw [execExchange, requireConfig_eq_next] at h
  obtain ⟨-, h⟩ := h
  split at h
  swap
  · cases h
  obtain ⟨hcs, -, rs, k, -, rfl⟩ := exchange_eq_next h
  refine ⟨rfl, .none rfl rfl, fun hs => ?_⟩
  have hphase : s.ctrl.cs = .asserted ∧ s.ctrl.phase = .command :=
    hs.busPosition.resolve_left fun hd => by simp [hcs] at hd
  refine inv_of_sound hs.srcWf hs.dstWf (hs.sound.hearAll _) hs.noExchange (.inr hphase)
    (Dev.BusySinceOpcode.hearAll _ _ hs.busySinceOpcode) ?_
  change levelAfter .deasserted (s.trace ++ _) = some s.ctrl.cs
  rw [levelAfter_append, hs.traceLevel, hcs, Option.bind_some, levelAfter_bytes]

theorem effect_selftest {s t : State} (h : execSelftest s = .next t) : Effect .selftest s t := by
  rw [execSelftest, requireConfig_eq_next] at h
  obtain ⟨-, h⟩ := h
  split at h
  · cases h
  · cases h
    exact ⟨rfl, .none rfl rfl, id⟩

theorem exec_effect {i : Instr} {s t : State} (h : exec i s = .next t) : Effect i s t := by
  cases i with
  | cmdWren => exact effect_of_alone rfl (fun _ => cmdWren_transacted) h
  | cmdStatus => exact effect_of_alone rfl (fun _ _ => cmdStatus_transacted) h
  | cmdIdentify => exact effect_of_alone rfl (fun _ => cmdIdentify_transacted) h
  | cmdRead a n => exact effect_of_alone rfl (fun _ => cmdRead_transacted) h
  | cmdProgram a data => exact effect_of_alone rfl (fun _ => cmdProgram_transacted) h
  | cmdErase a => exact effect_of_alone rfl (fun _ => cmdErase_transacted) h
  | busyCheck => exact effect_of_alone rfl (fun _ _ => cmdStatus_transacted) h
  | wrenHandshake => exact effect_of_alone rfl (fun _ => wrenHandshake_transacted) h
  | init => exact effect_init h
  | read => exact effect_read h
  | write => exact effect_write h
  | erase => exact effect_erase h
  | isBusy => exact effect_isBusy h
  | poll => exact effect_poll h
  | getGeometry => exact effect_getGeometry h
  | reserved6 => cases h
  | reserved7 => cases h
  | csAssert => exact effect_csAssert h
  | csDeassert => exact effect_csDeassert h
  | exchange w n async => exact effect_exchange h
  | selftest => exact effect_selftest h

/-! ### What a step keeps -/

/-- A step that answers a next state is the engine's move alone, or an instruction run in the state
that the engine and the host's line have left. -/
theorem step_next {s t : State} (h : step s = .next t) :
    t = engineTick s ∨ ∃ l rest i, exec i (beginLine (engineTick s) l rest) = .next t := by
  cases hp : s.program with
  | nil =>
    rw [step_of_no_line hp] at h
    cases h
    exact .inl rfl
  | cons l rest =>
    cases hd : decodeCode s.cfg.var (invokedCode (beginLine (engineTick s) l rest) l) with
    | ok i =>
      rw [step_of_decoded hp hd] at h
      exact .inr ⟨l, rest, i, h⟩
    | error e =>
      rw [step_of_undecodable hp hd] at h
      cases h

theorem State.Inv.engineTick {s : State} (h : s.Inv) : (engineTick s).Inv := by
  obtain ⟨-, -, -, hrx, hig, -⟩ := Dev.tick_frame s.cfg s.dev
  refine inv_of_sound h.srcWf h.dstWf h.sound.tick h.noExchange ?_
    (Dev.BusySinceOpcode.tick h.busySinceOpcode s.cfg) h.traceLevel
  rw [engineTick_dev, hrx, hig]
  exact h.busPosition

theorem State.Inv.beginLine {s : State} (h : s.Inv) (l : Line) (rest : List Line) :
    (beginLine s l rest).Inv := by
  have hsrc : (Machine.beginLine s l rest).src.wf := by
    rw [beginLine_src]
    exact Memory.wf_writeBytes _ _ _ h.srcWf
  obtain ⟨code, addr, len, count, src⟩ := l
  cases code <;> cases src <;> exact { h with srcWf := hsrc }

/-- Settles O11: the engine's move, the host's line and every instruction keep the invariant. -/
theorem stepKeepsInvariant : Obligations.StepKeepsInvariant := by
  intro s t hs h
  obtain rfl | ⟨l, rest, i, h⟩ := step_next h
  · exact hs.engineTick
  · exact (exec_effect h).inv (hs.engineTick.beginLine l rest)

/-- Settles O12: no instruction writes `CFG`, and neither do the engine and a line of the host. -/
theorem configurationNeverChanges : Obligations.ConfigurationNeverChanges := by
  refine ⟨fun i s t h => (exec_effect h).cfg, fun s t h => ?_⟩
  obtain rfl | ⟨l, rest, i, h⟩ := step_next h
  · rfl
  · exact (exec_effect h).cfg.trans (beginLine_frame (engineTick s) l rest).1

/-- The cursor moves exactly: neither the sum nor the difference leaves the registers' width. -/
theorem advanceCursor_exact {s : State}
    (hreach : s.addrNat + s.cfg.geo.eraseBlockSize ≤ 2 ^ 24) :
    (advanceCursor s).addrNat = s.addrNat + s.cfg.geo.eraseBlockSize ∧
      (advanceCursor s).countNat = s.countNat - 1 := by
  have hcount : s.countNat < 2 ^ 32 := s.x.count.isLt
  constructor
  · exact BitVec.toNat_ofNat .. |>.trans (Nat.mod_eq_of_lt (by omega))
  · exact BitVec.toNat_ofNat .. |>.trans (Nat.mod_eq_of_lt (by omega))

theorem resultCode_eq_zero {r : ResultCode} (h : resultCode r = 0) : r = .success := by
  cases r with
  | success => rfl
  | busy | outOfRange | writeEnableFailed | identificationFailed => exact absurd h (by decide)

/-- Settles O13: by the ways in which an instruction writes registers. -/
theorem onlyEraseWritesTheCursor : Obligations.OnlyEraseWritesTheCursor := by
  intro i s t h
  cases (exec_effect h).regs with
  | none hi hx =>
    have hpoll : i ≠ .poll := by rintro rfl; cases hi
    have herase : i ≠ .erase := by rintro rfl; cases hi
    rw [if_neg hpoll, hx]
    exact ⟨rfl, rfl, fun _ => ⟨rfl, rfl⟩, fun he => absurd he herase⟩
  | result hr h0 hx =>
    have hpoll : i ≠ .poll := by rintro rfl; cases hr
    rw [if_neg hpoll, hx]
    exact ⟨rfl, rfl, fun _ => ⟨rfl, rfl⟩,
      fun he hsuccess hcount => absurd (h0 he (resultCode_eq_zero hsuccess)) hcount⟩
  | cursor hreach hx =>
    obtain ⟨haddr, hcount⟩ := advanceCursor_exact hreach
    rw [if_neg (by simp)]
    refine ⟨?_, ?_, fun hnot => ?_, fun _ _ _ => ⟨?_, ?_⟩⟩
    · rw [hx]
      rfl
    · rw [hx]
      rfl
    · exact absurd (congrArg Regs.result hx) (hnot.resolve_left (not_not_intro rfl))
    · rw [← haddr, State.addrNat, hx]
      rfl
    · rw [← hcount, State.countNat, hx]
      rfl
  | isBusy hx | geometry hx =>
    rw [if_neg (by simp), hx]
    exact ⟨rfl, rfl, fun _ => ⟨rfl, rfl⟩, fun he => nomatch he⟩
  | poll hx =>
    rw [if_pos rfl, hx]
    exact ⟨rfl, rfl, fun _ => ⟨rfl, rfl⟩, fun he => nomatch he⟩

/-- Instructions but INIT, READ, WRITE and ERASE return no result (60 R120). -/
theorem mayReturn_eq_nil {i : Instr} (hinit : i ≠ .init) (hread : i ≠ .read) (hwrite : i ≠ .write)
    (herase : i ≠ .erase) : mayReturn i = [] := by
  unfold mayReturn
  split
  · exact absurd rfl hinit
  · exact absurd rfl hread
  · exact absurd rfl hwrite
  · exact absurd rfl herase
  · rfl

section RegsAfter

variable {i : Instr} {s t : State} (h : RegsAfter s t i)
include h

theorem RegsAfter.result_kept (hi : mayReturn i = []) : t.x.result = s.x.result := by
  cases h with
  | none _ hx | isBusy hx | poll hx | geometry hx => rw [hx]
  | result hr => rw [hi] at hr; cases hr
  | cursor => cases hi

/-- What holds of the codes an instruction may return holds of the result register after it. -/
theorem RegsAfter.result_code {P : BitVec 3 → Prop} (hi : mayReturn i ≠ [])
    (hP : ∀ r ∈ mayReturn i, P (resultCode r)) : P t.x.result := by
  cases h with
  | none hrow => exact absurd (mayReturn_eq_nil (by rintro rfl; cases hrow)
      (by rintro rfl; cases hrow) (by rintro rfl; cases hrow) (by rintro rfl; cases hrow)) hi
  | result hr _ hx => rw [hx]; exact hP _ hr
  | cursor _ hx => rw [hx]; exact hP .success List.mem_cons_self
  | isBusy | poll | geometry => exact absurd rfl hi

theorem RegsAfter.busy_kept (hquery : i ≠ .isBusy) (hpoll : i ≠ .poll) : t.x.busy = s.x.busy := by
  cases h with
  | none _ hx | result _ _ hx | geometry hx => rw [hx]
  | cursor _ hx => rw [hx]; rfl
  | isBusy => exact absurd rfl hquery
  | poll => exact absurd rfl hpoll

theorem RegsAfter.geo_kept (hgeo : i ≠ .getGeometry) : t.x.geo = s.x.geo := by
  cases h with
  | none _ hx | result _ _ hx | isBusy hx | poll hx => rw [hx]
  | cursor _ hx => rw [hx]; rfl
  | geometry => exact absurd rfl hgeo

end RegsAfter

/-- Settles O14: by the ways in which an instruction writes registers; the codes are those of
`mayReturn`. -/
theorem resultsAndTheirWriters : Obligations.ResultsAndTheirWriters := by
  intro i s t h
  have hregs := (exec_effect h).regs
  refine ⟨fun hinit hread hwrite herase => ?_, hregs.busy_kept, hregs.geo_kept, ?_, ?_, ?_⟩
  · exact hregs.result_kept (mayReturn_eq_nil hinit hread hwrite herase)
  · rintro rfl
    exact hregs.result_code (P := fun c => c = 0 ∨ c = 4) (by decide) (by decide)
  · rintro rfl
    exact hregs.result_code (P := fun c => c = 0 ∨ c = 1 ∨ c = 2) (by decide) (by decide)
  · rintro (rfl | rfl) <;>
      exact hregs.result_code (P := fun c => c = 0 ∨ c = 1 ∨ c = 2 ∨ c = 3) (by decide)
        (by decide)

/-! ### The captured reply that no operation reads

The bytes an earlier exchange captured are overwritten by a transaction's first exchange, and
emptied where an operation ends (10 R27, log entry 19). -/

section OldReplies

variable (old : List Byte) (s : State)

/-- The byte times do not look at the captured bytes. -/
theorem shiftBytes_setCapture (txs : List Byte) : ∀ s : State,
    shiftBytes txs (s.setCapture old) =
      ((shiftBytes txs s).1.setCapture old, (shiftBytes txs s).2) := by
  induction txs with
  | nil => exact fun _ => rfl
  | cons tx txs ih =>
    intro s
    simp only [shiftBytes]
    rw [show shiftByte tx (engineTick (s.setCapture old)) =
      (shiftByte tx (engineTick s)).setCapture old from rfl, ih]
    rfl

/-- An exchange puts its own bytes in the place of those captured before. -/
theorem exchangeIn_setCapture (p : Phase) (w : List Byte) (n : Nat) :
    exchangeIn p w n (s.setCapture old) = exchangeIn p w n s := by
  have hshift : shiftExchange p w n ((s.setCapture old).setXferActive true) =
      ((shiftExchange p w n (s.setXferActive true)).1.setCapture old,
        (shiftExchange p w n (s.setXferActive true)).2) := by
    rw [shiftExchange_eq, shiftExchange_eq,
      show (s.setCapture old).setXferActive true = (s.setXferActive true).setCapture old from rfl,
      State.setCapture_cfg, shiftBytes_setCapture]
    unfold replied
    split <;> rfl
  unfold exchangeIn
  rw [hshift]
  rfl

theorem csAssert_setCapture :
    csAssert (s.setCapture old) = andThen (csAssert s) fun u => .next (u.setCapture old) := by
  by_cases h : s.ctrl.cs = .deasserted ∧ s.ctrl.xferActive = false
  · rw [csAssert_eq h.1 h.2, csAssert_eq (s := s.setCapture old) h.1 h.2]
    rfl
  · rw [csAssert, csAssert, if_neg h, if_neg (by exact h)]
    rfl

theorem transact_setCapture (w : List Byte) (n : Nat) :
    transact w n (s.setCapture old) = transact w n s := by
  unfold transact
  rw [show (s.setCapture old).setPhase .select = (s.setPhase .select).setCapture old from rfl,
    csAssert_setCapture, andThen_assoc]
  simp only [andThen_next, exchangeReply, exchangeIn_setCapture]

theorem transactData_setCapture (hdr : List Byte) (data : State → Res State) :
    transactData hdr data (s.setCapture old) = transactData hdr data s := by
  unfold transactData
  rw [show (s.setCapture old).setPhase .select = (s.setPhase .select).setCapture old from rfl,
    csAssert_setCapture, andThen_assoc]
  simp only [andThen_next, exchange, State.setCapture_ctrl, exchangeIn_setCapture]

theorem cmdStatus_setCapture : cmdStatus (s.setCapture old) = cmdStatus s :=
  transact_setCapture old s _ _

theorem cmdIdentify_setCapture : cmdIdentify (s.setCapture old) = cmdIdentify s :=
  transact_setCapture old s _ _

theorem unlessBusy_setCapture (k : State → Res State) :
    unlessBusy (s.setCapture old) k = unlessBusy s k := by
  rw [unlessBusy, unlessBusy, busyCheck, busyCheck, cmdStatus_setCapture]

theorem zeroLength_setCapture : zeroLength (s.setCapture old) = zeroLength s := rfl

theorem zeroCount_setCapture : zeroCount (s.setCapture old) = zeroCount s := rfl

/-- An operation behind its preconditions looks at old replies only where what follows them does. -/
theorem requireReady_setCapture {k : State → Res State} (h : k (s.setCapture old) = k s) :
    requireReady (s.setCapture old) k = requireReady s k := by
  simp only [requireReady, requireConfig, requireIdle, requireInitialised, State.setCapture_cfg,
    State.setCapture_ctrl, h]

theorem identifyLoop_setCapture (fuel : Nat) :
    identifyLoop (fuel + 1) (s.setCapture old) = identifyLoop (fuel + 1) s := by
  rw [identifyLoop, identifyLoop,
    show (s.setCapture old).setAttempt ((s.setCapture old).ctrl.attempt + 1) =
      (s.setAttempt (s.ctrl.attempt + 1)).setCapture old from rfl, cmdIdentify_setCapture]

theorem execInit_setCapture : execInit (s.setCapture old) = execInit s := by
  unfold execInit requireConfig
  by_cases hc : s.cfg.wf = true
  · obtain ⟨n, hn⟩ : ∃ n, s.cfg.idRetryMax = n + 1 :=
      Nat.exists_eq_succ_of_ne_zero (by have := (config_bounds hc).2.2.2.2.2; omega)
    rw [if_pos hc, if_pos (by exact hc)]
    simp only [requireIdle, State.setCapture_cfg, State.setCapture_ctrl, hn]
    rw [show configureTransport (s.setCapture old) = (configureTransport s).setCapture old from rfl,
      identifyLoop_setCapture]
  · rw [if_neg hc, if_neg (by exact hc)]

theorem execRead_setCapture : execRead (s.setCapture old) = execRead s := by
  refine requireReady_setCapture old s ?_
  simp only [zeroLength_setCapture, unlessBusy_setCapture]
  rfl

theorem execWrite_setCapture : execWrite (s.setCapture old) = execWrite s := by
  refine requireReady_setCapture old s ?_
  simp only [zeroLength_setCapture, unlessBusy_setCapture]
  rfl

theorem execErase_setCapture : execErase (s.setCapture old) = execErase s := by
  refine requireReady_setCapture old s ?_
  simp only [zeroCount_setCapture, unlessBusy_setCapture]
  rfl

theorem queryBusy_setCapture : queryBusy (s.setCapture old) = queryBusy s := by
  refine requireReady_setCapture old s ?_
  rw [cmdStatus_setCapture]

theorem execPoll_setCapture : execPoll (s.setCapture old) = execPoll s := by
  rw [execPoll, execPoll,
    show (s.setCapture old).setOp 4 = (s.setOp 4).setCapture old from rfl, queryBusy_setCapture]

end OldReplies

/-- Settles O18: by the host operations. -/
theorem operationsDoNotReadOldReplies : Obligations.OperationsDoNotReadOldReplies := by
  intro i s old hi
  cases i with
  | init => exact execInit_setCapture old s
  | read => exact execRead_setCapture old s
  | write => exact execWrite_setCapture old s
  | erase => exact execErase_setCapture old s
  | isBusy => exact queryBusy_setCapture old s
  | poll => exact execPoll_setCapture old s
  | getGeometry | reserved6 | reserved7 => rfl
  | cmdWren | cmdStatus | cmdIdentify | cmdRead | cmdProgram | cmdErase | csAssert | csDeassert
  | exchange | busyCheck | wrenHandshake | selftest => cases hi

end Sys2Proof.Machine

/-! PROOFS. The engine: one moment of it, the machine left alone, and the host's polling run. -/

namespace Sys2Proof.Machine

/-! ### One moment of the engine -/

/-- The moment at which the delay has run out (20 R61). -/
theorem Dev.tick_of_due (c : Config) {d : Dev} {p : Pending} (hp : d.pending = some p)
    (hd : p.delay = 0) : d.tick c = d.complete c p := by
  simp [Dev.tick, hp, hd]

/-- A moment before that (20 R61, log entry 11). -/
theorem Dev.tick_of_waiting (c : Config) {d : Dev} {p : Pending} (hp : d.pending = some p)
    (hd : p.delay ≠ 0) :
    d.tick c = { d with pending := some { p with delay := p.delay - 1 } } := by
  simp [Dev.tick, hp, hd]

/-- The latch after completion in the reference device (log entry 9). -/
theorem wel_complete (c : Config) {d : Dev} (p : Pending) (hd : d.profile.clearsLatch = true) :
    wel (d.complete c p).sr = false := by
  simp [Dev.complete, latchAfter, hd]

theorem updatedArray_program (c : Config) (m : Memory) (k : Nat) {a : Addr24} {data : List Byte}
    (hpage : a.toNat % c.geo.pageSize + data.length ≤ c.geo.pageSize) :
    updatedArray c m k (.program a data) = programBytes c.prog m a.toNat data :=
  if_pos hpage

/-- Settles O22: PROG by its selector. -/
theorem programFunctionOnErasedBytes : Obligations.ProgramFunctionOnErasedBytes := by
  refine fun r old new => ⟨progByte_erased r new, ?_, ?_⟩
  · rintro rfl
    rfl
  · rintro rfl
    rfl

/-- Settles O20: by what is pending, and whether its delay has run out. -/
theorem engineCompletesPendingUpdate : Obligations.EngineCompletesPendingUpdate := by
  refine ⟨fun s p hp hd => ?_, fun s p hp hd => ?_, fun s hp => engineTicks_of_none hp 1⟩
  · have hdev : (engineTick s).dev = s.dev.complete s.cfg p := Dev.tick_of_due s.cfg hp hd
    obtain ⟨hnone, hwip⟩ := Dev.complete_consistent s.cfg s.dev p
    have harray : (engineTick s).dev.array =
        updatedArray s.cfg s.dev.array (p.draw + 1) p.update := congrArg Dev.array hdev
    refine ⟨hdev ▸ hnone, hdev ▸ hwip, fun hlatch => hdev ▸ wel_complete s.cfg p hlatch,
      fun a data hu hpage k => ?_, fun a hu k => ?_, ?_, rfl, rfl⟩
    · rw [harray, hu, updatedArray_program _ _ _ hpage, read_programBytes]
    · rw [harray, hu]
      exact Memory.read_clear _ _ _ k
    · exact ⟨rfl, rfl, fun _ => rfl, fun _ => rfl, rfl⟩
  · exact congrArg s.setDev (Dev.tick_of_waiting s.cfg hp hd)

/-! ### The machine left alone -/

theorem run_succ_of_step {s t : State} (n : Nat) (h : step s = .next t) :
    Host.Core.run core (n + 1) s = Host.Core.run core n t := by
  simp only [Host.Core.run, show core.step s = .next t from h]

/-- With no line of the host, a run is the engine's moments and nothing else (20 R61, 70 R134). -/
theorem run_of_no_line : ∀ (n : Nat) {s : State}, s.program = [] →
    Host.Core.run core n s = .next (engineTicks n s)
  | 0, _, _ => rfl
  | n + 1, s, hp => by
    rw [run_succ_of_step n (step_of_no_line hp)]
    exact run_of_no_line n (s := engineTick s) hp

/-! ### The host's polling run (30 R73) -/

/-- A step whose line polls runs one round of the loop. -/
theorem step_of_pollLine {s : State} (hs : s.Ready) {rest : List Line}
    (hp : s.program = pollLine :: rest) :
    step s = .next (polled ((engineTick s).setProgram rest)) := by
  obtain ⟨⟨⟨hc, hcs, hx⟩, hphase⟩, hi⟩ := hs
  have hline : beginLine (engineTick s) pollLine rest = (engineTick s).setProgram rest := rfl
  rw [step_of_decoded (i := .poll) hp rfl, hline]
  exact execPoll_eq (s := (engineTick s).setProgram rest) hc hphase hi hcs hx

/-- One round takes the device five of the engine's moments on. -/
theorem polled_dev (s : State) (ls : List Line) :
    (polled ((engineTick s).setProgram ls)).dev = (s.dev.ticks s.cfg 5).onBus [] false := rfl

theorem polled_ready {s : State} (hs : s.Ready) (ls : List Line) :
    (polled ((engineTick s).setProgram ls)).Ready := by
  obtain ⟨⟨⟨hc, hcs, hx⟩, -⟩, hi⟩ := hs
  exact ⟨⟨⟨hc, hcs, hx⟩, rfl⟩, hi⟩

/-- The end of the polling run. -/
structure Answered (t : State) : Prop where
  program : t.program = []
  busy : t.x.busy = false
  pending : t.dev.pending = none
  wip : wip t.dev.sr = false

/-- A round at a device that is idle at the status byte ends the loop. -/
theorem answered_of_idle {s : State} (hs : s.Consistent)
    (hw : wip (s.dev.ticks s.cfg 4).sr = false) :
    Answered (polled ((engineTick s).setProgram [])) := by
  have hnone : (s.dev.ticks s.cfg 4).pending = none := Dev.ticks_idle hs hw
  have hdev : s.dev.ticks s.cfg 5 = s.dev.ticks s.cfg 4 := Dev.ticks_settled hnone (by omega)
  refine ⟨if_neg (ne_true_of_eq_false hw), hw, ?_, ?_⟩
  · rw [polled_dev, hdev]
    exact hnone
  · rw [polled_dev, hdev]
    exact hw

/-- The polling run ends after at most one round more than the engine needs moments: a round that
finds the device busy gives the engine more than one. -/
theorem polling_run_ends : ∀ (m : Nat) {s : State}, s.Ready → s.Consistent →
    s.program = [pollLine] → (s.dev.ticks s.cfg m).pending = none →
    ∃ n ≤ m + 1, ∃ t, Host.Core.run core n s = .next t ∧ Answered t := by
  intro m
  induction m with
  | zero =>
    intro s hr hs hp hm
    have hw : wip (s.dev.ticks s.cfg 4).sr = false := by
      rw [← Dev.ticks_consistent s.cfg 4 hs, Dev.ticks_settled hm (by omega), hm]
      rfl
    exact ⟨1, le_rfl, _, run_succ_of_step 0 (step_of_pollLine hr hp), answered_of_idle hs hw⟩
  | succ m ih =>
    intro s hr hs hp hm
    cases hw : wip (s.dev.ticks s.cfg 4).sr with
    | false =>
      exact ⟨1, by omega, _, run_succ_of_step 0 (step_of_pollLine hr hp), answered_of_idle hs hw⟩
    | true =>
      have hagain : (polled ((engineTick s).setProgram [])).program = [pollLine] := if_pos hw
      have hdone : ((polled ((engineTick s).setProgram [])).dev.ticks s.cfg m).pending = none := by
        rw [polled_dev, Dev.ticks_onBus, Dev.ticks_add, Dev.ticks_settled hm (by omega)]
        exact hm
      obtain ⟨n, hn, t, hrun, ht⟩ :=
        ih (polled_ready hr []) (Dev.ticks_consistent s.cfg 5 hs) hagain hdone
      exact ⟨n + 1, by omega, t, (run_succ_of_step n (step_of_pollLine hr hp)).trans hrun, ht⟩

end Sys2Proof.Machine

/-! PROOFS. The device along an instruction and a step: what the engine and the frames that the device
acts on leave of the array, of the pending update and of the buffers. -/

namespace Sys2Proof.Machine

/-! ### Two relations between the states before and after

A transaction moves the device as the engine does, up to `WEL`, as long as the device accepts no
update; an instruction lets it accept one at most, and last, when the engine is done (20 R59, R60,
70 R139). -/

/-- Two devices that differ in the bytes on the bus and in status bits but `WIP` at most. -/
structure Dev.Alike (d e : Dev) : Prop where
  id0 : e.id0 = d.id0
  id1 : e.id1 = d.id1
  id2 : e.id2 = d.id2
  array : e.array = d.array
  pending : e.pending = d.pending
  wip : wip e.sr = wip d.sr

theorem Dev.Alike.refl (d : Dev) : d.Alike d := ⟨rfl, rfl, rfl, rfl, rfl, rfl⟩

theorem Dev.alike_onBus (d : Dev) (r : List Byte) (g : Bool) : d.Alike (d.onBus r g) :=
  ⟨rfl, rfl, rfl, rfl, rfl, rfl⟩

theorem Dev.Alike.trans {d e f : Dev} (h : d.Alike e) (k : e.Alike f) : d.Alike f :=
  ⟨k.id0.trans h.id0, k.id1.trans h.id1, k.id2.trans h.id2, k.array.trans h.array,
    k.pending.trans h.pending, k.wip.trans h.wip⟩

/-- The engine looks at nothing in which the two differ, but to keep it. -/
theorem Dev.Alike.ticks {d e : Dev} (h : d.Alike e) (c : Config) (n : Nat) :
    (d.ticks c n).Alike (e.ticks c n) := by
  cases hp : d.pending with
  | none =>
    rw [Dev.ticks_of_none c hp, Dev.ticks_of_none c (h.pending.trans hp)]
    exact h
  | some p =>
    rw [Dev.ticks_of_some c n hp, Dev.ticks_of_some c n (h.pending.trans hp)]
    split
    · exact ⟨h.id0, h.id1, h.id2, h.array, rfl, h.wip⟩
    · refine ⟨h.id0, h.id1, h.id2, ?_, rfl, ?_⟩
      · simp only [Dev.complete, h.array]
      · simp only [Dev.complete, wip_withWip]

/-- What a run of transactions leaves in which the device accepts no update: `CFG` and `src`, `dst`
from index `b` on, and a device that has moved as the engine moves it. -/
structure Drifted (b : Nat) (s t : State) : Prop where
  cfg : t.cfg = s.cfg
  src : t.src = s.src
  dst : ∀ k, b ≤ k → t.dst.read k = s.dst.read k
  dev : ∃ n, (s.dev.ticks s.cfg n).Alike t.dev

/-- What every instruction leaves: as `Drifted`, but the device may have accepted an update, which
it does when it is idle only. -/
structure Carried (b : Nat) (s t : State) : Prop where
  src : t.src = s.src
  dst : ∀ k, b ≤ k → t.dst.read k = s.dst.read k
  id0 : t.dev.id0 = s.dev.id0
  id1 : t.dev.id1 = s.dev.id1
  id2 : t.dev.id2 = s.dev.id2
  engine : ∃ n, t.dev.array = (s.dev.ticks s.cfg n).array ∧
    (t.dev.pending = (s.dev.ticks s.cfg n).pending ∨ wip (s.dev.ticks s.cfg n).sr = false)

section Drifted

variable {b : Nat} {s t u : State}

theorem Drifted.refl (b : Nat) (s : State) : Drifted b s s :=
  ⟨rfl, rfl, fun _ _ => rfl, 0, .refl s.dev⟩

theorem Drifted.trans (h : Drifted b s t) (k : Drifted b t u) : Drifted b s u := by
  obtain ⟨hcfg, hsrc, hdst, m, hm⟩ := h
  obtain ⟨kcfg, ksrc, kdst, n, hn⟩ := k
  refine ⟨kcfg.trans hcfg, ksrc.trans hsrc, fun j hj => (kdst j hj).trans (hdst j hj), m + n, ?_⟩
  rw [← Dev.ticks_add]
  exact (hm.ticks s.cfg n).trans (hcfg ▸ hn)

/-- A device found idle stays idle (20 R61). -/
theorem Drifted.idle (h : Drifted b s t) (hw : wip s.dev.sr = false) : wip t.dev.sr = false := by
  obtain ⟨n, hn⟩ := h.dev
  rw [hn.wip]
  exact Dev.ticks_wip s.cfg n hw

theorem Drifted.carried (h : Drifted b s t) : Carried b s t := by
  obtain ⟨-, hsrc, hdst, n, hn⟩ := h
  exact ⟨hsrc, hdst, hn.id0.trans (Dev.ticks_id0 ..), hn.id1.trans (Dev.ticks_id1 ..),
    hn.id2.trans (Dev.ticks_id2 ..), n, hn.array, .inl hn.pending⟩

/-- An update is accepted by an idle device. -/
theorem Drifted.accept (h : Drifted b s t) (hw : wip t.dev.sr = false) (v : ArrayUpdate) :
    Carried b s (accept t v) := by
  obtain ⟨-, hsrc, hdst, n, hn⟩ := h
  exact ⟨hsrc, hdst, hn.id0.trans (Dev.ticks_id0 ..), hn.id1.trans (Dev.ticks_id1 ..),
    hn.id2.trans (Dev.ticks_id2 ..), n, hn.array, .inr (hn.wip.symm.trans hw)⟩

theorem Carried.finish (h : Carried b s t) (r : ResultCode) : Carried b s (t.finish r) :=
  { h with }

theorem Carried.setPhase (h : Carried b s t) (p : Phase) : Carried b s (t.setPhase p) :=
  { h with }

end Drifted

theorem idle_of_acceptsUpdates {d : Dev} (h : acceptsUpdates d = true) : wip d.sr = false := by
  simp only [acceptsUpdates, Bool.and_eq_true, Bool.not_eq_true'] at h
  exact h.2

/-! ### What each wire command leaves -/

section Commands

variable (b : Nat) (s : State)

theorem drifted_statusDone : Drifted b s (statusDone s) :=
  ⟨rfl, rfl, fun _ _ => rfl, 4, Dev.alike_onBus _ _ _⟩

theorem drifted_wrenDone : Drifted b s (wrenDone s) := by
  obtain ⟨sr, k, he, hw, -⟩ := wrenDone_eq s
  rw [he]
  exact ⟨rfl, rfl, fun _ _ => rfl, 3, rfl, rfl, rfl, rfl, rfl, hw⟩

theorem drifted_handshakeDone : Drifted b s (handshakeDone s) :=
  (drifted_wrenDone b s).trans (drifted_statusDone b _)

theorem drifted_identifyDone (rs : List Byte) (k : Nat) : Drifted b s (identifyDone s rs k) :=
  ⟨rfl, rfl, fun _ _ => rfl, 6, Dev.alike_onBus _ _ _⟩

/-- A read writes `dst` at the indexes it reads (42 R100). -/
theorem drifted_readDone (a : Addr24) (rs : List Byte) (k : Nat) (cap : List Byte) :
    Drifted rs.length s (readDone s a rs k cap) := by
  refine ⟨rfl, rfl, fun j hj => ?_, rs.length + 6, ?_⟩
  · rw [show (readDone s a rs k cap).dst = s.dst.writeBytes 0 rs from rfl, Memory.read_writeBytes,
      if_neg (by omega)]
  · rw [readDone_dev]
    exact Dev.alike_onBus _ _ _

theorem drifted_programSent (a : Addr24) (data : List Byte) :
    Drifted b s (programSent s a data) :=
  ⟨rfl, rfl, fun _ _ => rfl, data.length + 6, programSent_dev s a data ▸ Dev.alike_onBus _ _ _⟩

theorem drifted_eraseSent (a : Addr24) : Drifted b s (eraseSent s a) :=
  ⟨rfl, rfl, fun _ _ => rfl, 6, Dev.alike_onBus _ _ _⟩

theorem drifted_wrenEffect : Drifted b s (wrenEffect s) := by
  obtain ⟨v, k, he | he⟩ := wrenEffect_cases s <;> rw [he]
  · exact ⟨rfl, rfl, fun _ _ => rfl, 0, rfl, rfl, rfl, rfl, rfl, wip_withWel _ _⟩
  · exact .refl b s

theorem drifted_strayEffect : Drifted b s (strayEffect s) := by
  obtain ⟨v, k, he | he⟩ := strayEffect_cases s <;> rw [he]
  · exact ⟨rfl, rfl, fun _ _ => rfl, 0, rfl, rfl, rfl, rfl, rfl, wip_withWel _ _⟩
  · exact .refl b s

end Commands

section Instructions

variable {b : Nat} {s t : State}

/-- Whatever frame the device acts on, it accepts an update when it is idle only. -/
theorem deviceActs_carried {u : State} (h : Drifted b s t) (hu : deviceActs t = .next u) :
    Carried b s u := by
  rcases deviceActs_cases hu with rfl | ⟨-, rfl⟩ | rfl | ⟨a2, a1, a0, data, -, -, hacc, -, rfl⟩ |
    ⟨a2, a1, a0, more, -, hacc, -, rfl⟩
  · exact h.carried
  · exact (h.trans (drifted_wrenEffect b t)).carried
  · exact (h.trans (drifted_strayEffect b t)).carried
  · exact h.accept (idle_of_acceptsUpdates hacc) _
  · exact h.accept (idle_of_acceptsUpdates hacc) _

theorem cmdStatus_carried (h : cmdStatus s = .next t) : Carried b s t := by
  obtain ⟨-, -, rfl⟩ := cmdStatus_next h
  exact (drifted_statusDone b s).carried

theorem cmdWren_carried (hc : s.cfg.wf = true) (h : cmdWren s = .next t) : Carried b s t := by
  obtain ⟨-, -, rfl⟩ := cmdWren_next hc h
  exact (drifted_wrenDone b s).carried

theorem cmdIdentify_carried (hc : s.cfg.wf = true) (h : cmdIdentify s = .next t) :
    Carried b s t := by
  obtain ⟨-, -, rs, k, -, rfl⟩ := cmdIdentify_next hc h
  exact (drifted_identifyDone b s rs k).carried

theorem cmdRead_carried {a : Addr24} {n : Nat} (hc : s.cfg.wf = true)
    (h : cmdRead a n s = .next t) : Carried n s t := by
  obtain ⟨-, -, rs, k, cap, rfl, -, rfl⟩ := cmdRead_next hc h
  exact (drifted_readDone s a rs k cap).carried

theorem cmdProgram_carried {a : Addr24} {data : List Byte} (hc : s.cfg.wf = true)
    (h : cmdProgram a data s = .next t) : Carried b s t := by
  have hsent := drifted_programSent b s a data
  obtain ⟨-, -, ⟨-, rfl⟩ | ⟨hacc, -, -, rfl⟩ | ⟨-, rfl⟩⟩ := cmdProgram_next hc h
  · exact hsent.carried
  · exact hsent.accept (by rw [programSent_dev]; exact idle_of_acceptsUpdates hacc) _
  · exact (hsent.trans (drifted_strayEffect b _)).carried

theorem cmdErase_carried {a : Addr24} (hc : s.cfg.wf = true) (h : cmdErase a s = .next t) :
    Carried b s t := by
  have hsent := drifted_eraseSent b s a
  obtain ⟨-, -, ⟨-, rfl⟩ | ⟨hacc, -, rfl⟩⟩ := cmdErase_next hc h
  · exact hsent.carried
  · exact hsent.accept (idle_of_acceptsUpdates hacc) _

theorem wrenHandshake_carried (hc : s.cfg.wf = true) (h : wrenHandshake s = .next t) :
    Carried b s t := by
  obtain ⟨-, -, rfl⟩ := wrenHandshake_next hc h
  exact (drifted_handshakeDone b s).carried

/-! ### What each instruction leaves -/

theorem alone_carried {cmd : State → Res State}
    (hcmd : ∀ u, s.cfg.wf = true → cmd s = .next u → Carried b s u)
    (h : alone cmd s = .next t) : Carried b s t := by
  simp only [alone, requireConfig_eq_next, andThen_eq_next, Host.Outcome.next.injEq] at h
  obtain ⟨hc, u, hu, rfl⟩ := h
  exact (hcmd u hc hu).setPhase .idle

/-- INIT that answers a next state has run a number of identify transactions, and ends with one of
its two results (43 R105). -/
theorem execInit_identified (h : execInit s = .next t) :
    s.cfg.wf = true ∧ ∃ u k, Identified (configureTransport s) u k ∧
      (t = (u.setInitialised true).finish .success ∨ t = u.finish .identificationFailed) := by
  obtain ⟨hc, -, -, u, found, hl, rfl⟩ := execInit_next h
  obtain ⟨v, found', k, hl', -, -, -, hid, -⟩ :=
    identifyLoop_ends s.cfg.idRetryMax (configureTransport s) hc rfl (execInit_xfer h)
  obtain ⟨rfl, rfl⟩ : v = u ∧ found' = found := by simpa [hl] using hl'.symm
  refine ⟨hc, v, k, hid, ?_⟩
  cases found'
  · exact .inr rfl
  · exact .inl rfl

theorem execInit_carried (h : execInit s = .next t) : Carried b s t := by
  obtain ⟨-, u, k, hid, ht⟩ := execInit_identified h
  have hdev : (s.dev.ticks s.cfg (6 * k)).Alike u.dev := hid.dev ▸ Dev.alike_onBus _ _ _
  have hdst : u.dst = s.dst := hid.dst
  have hu : Drifted b s u := ⟨hid.cfg, hid.src, fun j _ => by rw [hdst], 6 * k, hdev⟩
  obtain rfl | rfl := ht
  · exact Carried.finish (t := u.setInitialised true) { hu.carried with } .success
  · exact hu.carried.finish _

theorem execRead_carried (h : execRead s = .next t) : Carried s.lenNat s t := by
  have hs := Drifted.refl s.lenNat s
  have hstatus := drifted_statusDone s.lenNat s
  obtain ⟨-, -, -, ⟨-, -, rfl | rfl⟩ | ⟨-, -, rfl⟩ | ⟨-, -, -, -, -, -, h⟩⟩ := execRead_next h
  · exact hs.carried.finish _
  · exact hs.carried.finish _
  · exact hs.carried.finish _
  obtain ⟨-, rfl⟩ | ⟨-, rs, k, cap, hl, rfl⟩ := h
  · exact hstatus.carried.finish _
  · exact (hstatus.trans (hl ▸ drifted_readDone _ _ rs k cap)).carried.finish _

/-- A device that the busy check finds idle is idle from then on (20 R61). -/
theorem statusDone_idle (hw : wip (s.dev.ticks s.cfg 3).sr = false) :
    wip (statusDone s).dev.sr = false := by
  rw [statusDone_dev, Dev.onBus_sr, ← Dev.ticks_add s.cfg 1 s.dev 3]
  exact Dev.ticks_wip s.cfg 1 hw

theorem execWrite_carried (h : execWrite s = .next t) : Carried b s t := by
  have hs := Drifted.refl b s
  have hstatus := drifted_statusDone b s
  have hchecked := drifted_handshakeDone b (statusDone s)
  obtain ⟨-, -, -, ⟨-, -, rfl | rfl⟩ | ⟨-, -, rfl⟩ | ⟨-, -, -, -, -, -, h⟩⟩ := execWrite_next h
  · exact hs.carried.finish _
  · exact hs.carried.finish _
  · exact hs.carried.finish _
  have hsent := hchecked.trans (drifted_programSent b (handshakeDone (statusDone s)) s.wireAddr
    (s.src.readBytes 0 s.lenNat))
  obtain ⟨-, rfl⟩ | ⟨-, -, rfl⟩ | ⟨hw, -, rfl | rfl⟩ := h
  · exact hstatus.carried.finish _
  · exact (hstatus.trans hchecked).carried.finish _
  · exact (hstatus.trans hsent).carried.finish _
  · exact ((hstatus.trans hsent).accept (hsent.idle (statusDone_idle hw)) _).finish _

theorem execErase_carried (h : execErase s = .next t) : Carried b s t := by
  have hs := Drifted.refl b s
  have hstatus := drifted_statusDone b s
  have hchecked := drifted_handshakeDone b (statusDone s)
  obtain ⟨-, -, -, ⟨-, -, rfl | rfl⟩ | ⟨-, -, rfl⟩ | ⟨-, -, -, -, -, -, h⟩⟩ := execErase_next h
  · exact hs.carried.finish _
  · exact hs.carried.finish _
  · exact hs.carried.finish _
  have hsent := hchecked.trans (drifted_eraseSent b (handshakeDone (statusDone s)) s.wireAddr)
  have moved {u : State} (hu : Carried b s u) : Carried b s ((advanceCursor u).finish .success) :=
    Carried.finish (t := advanceCursor u) { hu with } .success
  obtain ⟨-, rfl⟩ | ⟨-, -, rfl⟩ | ⟨hw, -, rfl | rfl⟩ := h
  · exact hstatus.carried.finish _
  · exact (hstatus.trans hchecked).carried.finish _
  · exact moved (hstatus.trans hsent).carried
  · exact moved ((hstatus.trans hsent).accept (hsent.idle (statusDone_idle hw)) _)

theorem execIsBusy_carried (h : execIsBusy s = .next t) : Carried b s t := by
  obtain ⟨-, -, -, -, -, rfl⟩ := queryBusy_next h
  exact { (drifted_statusDone b s).carried with }

theorem execPoll_carried (h : execPoll s = .next t) : Carried b s t := by
  obtain ⟨-, -, -, -, -, rfl⟩ := execPoll_next h
  exact { (drifted_statusDone b s).carried with }

theorem execGetGeometry_carried (h : execGetGeometry s = .next t) : Carried b s t := by
  obtain ⟨-, -, rfl⟩ := execGetGeometry_next h
  exact { (Drifted.refl b s).carried with }

theorem execCsAssert_carried (h : execCsAssert s = .next t) : Carried b s t := by
  rw [execCsAssert, requireConfig_eq_next] at h
  obtain ⟨-, -, rfl⟩ := csAssert_eq_next h.2
  exact Drifted.carried ⟨rfl, rfl, fun _ _ => rfl, 1, Dev.alike_onBus _ _ _⟩

theorem execCsDeassert_carried (h : execCsDeassert s = .next t) : Carried b s t := by
  simp only [execCsDeassert, requireConfig_eq_next, andThen_eq_next, Host.Outcome.next.injEq] at h
  obtain ⟨-, v, hv, rfl⟩ := h
  obtain ⟨-, -, u, hu, rfl⟩ := csDeassert_eq_next hv
  have htick : Drifted b s (engineTick s) := ⟨rfl, rfl, fun _ _ => rfl, 1, .refl _⟩
  exact { deviceActs_carried htick hu with }

theorem execExchange_carried {w : List Byte} {n : Nat} {async : Bool}
    (h : execExchange w n async s = .next t) : Carried b s t := by
  rw [execExchange, requireConfig_eq_next] at h
  obtain ⟨-, h⟩ := h
  split at h
  swap
  · cases h
  obtain ⟨-, -, rs, k, -, rfl⟩ := exchange_eq_next h
  obtain ⟨r, g, he, -⟩ := Dev.hearAll_eq s.cfg (txBytes s.cfg w n) s.dev
  exact Drifted.carried ⟨rfl, rfl, fun _ _ => rfl, _, he ▸ Dev.alike_onBus _ _ _⟩

theorem execSelftest_carried (h : execSelftest s = .next t) : Carried b s t := by
  rw [execSelftest, requireConfig_eq_next] at h
  obtain ⟨-, h⟩ := h
  split at h
  · cases h
  · cases h
    exact (Drifted.refl b s).carried

end Instructions

/-- Below which index of `dst` an instruction may write (10 R30, 42 R100, 44 R109). -/
def dstBound (s : State) : Instr → Nat
  | .read => s.lenNat
  | .cmdRead _ n => n
  | _ => 0

theorem exec_carried {i : Instr} {s t : State} (h : exec i s = .next t) :
    Carried (dstBound s i) s t := by
  cases i with
  | cmdWren => exact alone_carried (fun _ => cmdWren_carried) h
  | cmdStatus => exact alone_carried (fun _ _ => cmdStatus_carried) h
  | cmdIdentify => exact alone_carried (fun _ => cmdIdentify_carried) h
  | cmdRead a n => exact alone_carried (fun _ => cmdRead_carried) h
  | cmdProgram a data => exact alone_carried (fun _ => cmdProgram_carried) h
  | cmdErase a => exact alone_carried (fun _ => cmdErase_carried) h
  | busyCheck => exact alone_carried (fun _ _ => cmdStatus_carried) h
  | wrenHandshake => exact alone_carried (fun _ => wrenHandshake_carried) h
  | init => exact execInit_carried h
  | read => exact execRead_carried h
  | write => exact execWrite_carried h
  | erase => exact execErase_carried h
  | isBusy => exact execIsBusy_carried h
  | poll => exact execPoll_carried h
  | getGeometry => exact execGetGeometry_carried h
  | reserved6 => cases h
  | reserved7 => cases h
  | csAssert => exact execCsAssert_carried h
  | csDeassert => exact execCsDeassert_carried h
  | exchange w n async => exact execExchange_carried (async := async) h
  | selftest => exact execSelftest_carried h

theorem sameBytes_of_eq {m n : Memory} (h : n = m) : SameBytes m n := fun _ => by rw [h]

/-- After any number of moments the array is as before, or as the pending update leaves it. -/
theorem arrayMoved_of_ticks {s t : State} {n : Nat}
    (h : t.dev.array = (s.dev.ticks s.cfg n).array) : ArrayMoved s t := by
  obtain hk | ⟨p, hp, hk⟩ := Dev.ticks_array s.cfg n s.dev
  · exact .inl (sameBytes_of_eq (h.trans hk))
  · exact .inr ⟨p, hp, sameBytes_of_eq (h.trans hk)⟩

/-- Settles O15: by what every instruction leaves of the device and of `dst`. -/
theorem onlyTheEngineChangesTheArray : Obligations.OnlyTheEngineChangesTheArray := by
  intro i s t h
  obtain ⟨hsrc, hdst, hid0, hid1, hid2, n, harray, -⟩ := exec_carried h
  refine ⟨arrayMoved_of_ticks harray, fun hp => ?_, sameBytes_of_eq hsrc, hid0, hid1, hid2,
    fun k hread hcmd => hdst k ?_⟩
  · rw [Dev.ticks_of_none s.cfg hp] at harray
    exact sameBytes_of_eq harray
  · unfold dstBound
    split
    · exact hread rfl
    · exact hcmd _ _ rfl
    · exact Nat.zero_le k

/-! ### What a step leaves of a pending update -/

/-- A step gives the engine one moment at least, and what it leaves of the array and of the pending
update is the engine's doing, until the device is idle. -/
theorem step_carried {s t : State} (h : step s = .next t) :
    ∃ n, t.dev.array = (s.dev.ticks s.cfg (n + 1)).array ∧
      (t.dev.pending = (s.dev.ticks s.cfg (n + 1)).pending ∨
        wip (s.dev.ticks s.cfg (n + 1)).sr = false) := by
  obtain rfl | ⟨l, rest, i, h⟩ := step_next h
  · exact ⟨0, rfl, .inl rfl⟩
  · obtain ⟨n, hn⟩ := (exec_carried h).engine
    obtain ⟨hcfg, -, -, hdev, -⟩ := beginLine_frame (engineTick s) l rest
    rw [hcfg, hdev] at hn
    exact ⟨n, hn⟩

/-- Every step brings a pending update nearer, or leaves the array as the update leaves it
(20 R61). -/
theorem step_progress {s t : State} {p : Pending} (hs : s.Consistent)
    (hp : s.dev.pending = some p) (h : step s = .next t) :
    (∃ d < p.delay, t.dev.pending = some { p with delay := d }) ∨
      SameBytes (updatedArray s.cfg s.dev.array (p.draw + 1) p.update) t.dev.array := by
  obtain ⟨n, harray, hend⟩ := step_carried h
  have completed (hnone : (s.dev.ticks s.cfg (n + 1)).pending = none) :=
    sameBytes_of_eq (harray.trans (Dev.ticks_completed hp hnone))
  obtain hpending | hidle := hend
  · by_cases hn : n + 1 ≤ p.delay
    · rw [Dev.ticks_of_some _ _ hp, if_pos hn] at hpending
      exact .inl ⟨p.delay - (n + 1), by omega, hpending⟩
    · refine .inr (completed ?_)
      rw [Dev.ticks_of_some _ _ hp, if_neg hn]
      rfl
  · exact .inr (completed (Dev.ticks_idle hs hidle))

/-- Settles O21: the machine left alone is the engine in closed form; a step is `step_progress`; and
the polling run ends when the engine has had one moment more than its delay. -/
theorem pendingUpdateCompletes : Obligations.PendingUpdateCompletes := by
  refine ⟨fun s p hprog hp => ⟨fun n hn => ?_, ?_⟩,
    fun s t p hs hp h => step_progress hs hp h, fun s p hr hs hp hprog => ?_⟩
  · refine ⟨_, run_of_no_line n hprog, ?_⟩
    rw [engineTicks_dev, Dev.ticks_of_some _ _ hp, if_pos hn]
  · refine ⟨_, run_of_no_line (p.delay + 1) hprog, ?_⟩
    rw [engineTicks_dev, Dev.ticks_of_some _ _ hp, if_neg (by omega)]
    exact Dev.complete_consistent s.cfg s.dev p
  · have hdone : (s.dev.ticks s.cfg (p.delay + 1)).pending = none := by
      rw [Dev.ticks_of_some _ _ hp, if_neg (by omega)]
      rfl
    obtain ⟨n, hn, t, hrun, ht⟩ := polling_run_ends (p.delay + 1) hr hs hprog hdone
    exact ⟨n, hn, t, hrun, ht.program, ht.busy, ht.pending, ht.wip⟩

end Sys2Proof.Machine

/-! PROOFS. The frames that the host operations send: each decodes to the wire command that sent it,
inside the array and within reach of the 24-bit address. -/

namespace Sys2Proof.Machine

/-! ### The frames of the six wire commands decode to them (30 R63 to R66) -/

theorem decodeFrame_wrenFrame (c : Config) : decodeFrame c.var (wrenFrame c) = .ok .cmdWren := by
  simp [decodeFrame, wrenFrame]

section Decoding

variable {c : Config} (hc : c.wf = true)
include hc

theorem decodeFrame_statusFrame : decodeFrame c.var (statusFrame c) = .ok .cmdStatus := by
  obtain ⟨-, -, -, ⟨-, hsw⟩, -⟩ := opcodes_distinct hc
  simp [decodeFrame, statusFrame, hsw]

theorem decodeFrame_identifyFrame : decodeFrame c.var (identifyFrame c) = .ok .cmdIdentify := by
  obtain ⟨-, -, -, ⟨hsi, -⟩, hiw⟩ := opcodes_distinct hc
  simp [decodeFrame, identifyFrame, hsi.symm, hiw]

theorem decodeFrame_eraseFrame (a : Addr24) :
    decodeFrame c.var (eraseFrame c a) = .ok (.cmdErase a) := by
  obtain ⟨-, -, ⟨hes, hei, hew⟩, -, -⟩ := opcodes_distinct hc
  simp [decodeFrame, eraseFrame, header_eq, addrOfBytes_addrBytes, hes, hei, hew]

theorem decodeFrame_readFrame (a : Addr24) {n : Nat} (hn : n ≠ 0) :
    decodeFrame c.var (readFrame c a n) = .ok (.cmdRead a n) := by
  obtain ⟨⟨-, hre, hrs, hri, hrw⟩, -⟩ := opcodes_distinct hc
  simp [decodeFrame, readFrame, header_eq, addrOfBytes_addrBytes, hre, hrs, hri, hrw, hn]

theorem decodeFrame_programFrame (a : Addr24) {data : List Byte} (hd : data ≠ []) :
    decodeFrame c.var (programFrame c a data) = .ok (.cmdProgram a data) := by
  obtain ⟨⟨hrp, -⟩, ⟨hpe, hps, hpi, hpw⟩, -⟩ := opcodes_distinct hc
  simp [decodeFrame, programFrame, header_eq, addrOfBytes_addrBytes, hrp.symm, hpe, hps, hpi, hpw,
    hd]

end Decoding

/-! ### What an operation may put on the wire -/

/-- A frame that the operation `i` may send from `s`: a well-formed wire command, an addressed one
only by its own operation, of that operation's operands, and below `2^24` (40 R81, 70 R140). -/
def Permitted (i : Instr) (s : State) (f : List Byte) : Prop :=
  ∃ w, decodeFrame s.cfg.var f = .ok w ∧ w.wellFormed s.cfg = true ∧
    (∀ a n, w = .cmdRead a n → i = .read ∧ a.toNat = s.addrNat ∧ n = s.lenNat ∧
      a.toNat + n ≤ 2 ^ 24) ∧
    (∀ a d, w = .cmdProgram a d → i = .write ∧ a.toNat = s.addrNat ∧
      d = s.src.readBytes 0 s.lenNat ∧ a.toNat + d.length ≤ 2 ^ 24) ∧
    (∀ a, w = .cmdErase a → i = .erase ∧ a.toNat = s.addrNat ∧
      a.toNat + s.cfg.geo.eraseBlockSize ≤ 2 ^ 24)

theorem permitted_wrenFrame (i : Instr) (s : State) : Permitted i s (wrenFrame s.cfg) :=
  ⟨.cmdWren, decodeFrame_wrenFrame s.cfg, rfl, nofun, nofun, nofun⟩

section Permitted

variable {s : State} (hc : s.cfg.wf = true)
include hc

theorem permitted_statusFrame (i : Instr) : Permitted i s (statusFrame s.cfg) :=
  ⟨.cmdStatus, decodeFrame_statusFrame hc, rfl, nofun, nofun, nofun⟩

theorem permitted_identifyFrame (i : Instr) : Permitted i s (identifyFrame s.cfg) :=
  ⟨.cmdIdentify, decodeFrame_identifyFrame hc, rfl, nofun, nofun, nofun⟩

/-- What passes the validator and the reach test of READ (40 R78, R81). -/
theorem permitted_readFrame (h0 : s.lenNat ≠ 0)
    (hv : validRead s.cfg.geo s.addrNat s.lenNat = true)
    (hb : beyondReach s.addrNat s.lenNat = false) (ha : s.wireAddr.toNat = s.addrNat) :
    Permitted .read s (readFrame s.cfg s.wireAddr s.lenNat) := by
  simp only [validRead, Bool.and_eq_true, decide_eq_true_eq] at hv
  simp only [beyondReach, decide_eq_false_iff_not] at hb
  refine ⟨_, decodeFrame_readFrame hc _ h0, ?_, ?_, nofun, nofun⟩
  · simp only [Instr.wellFormed, Bool.and_eq_true, decide_eq_true_eq, ha]
    omega
  · rintro _ _ ⟨⟩
    exact ⟨rfl, ha, rfl, by omega⟩

/-- What passes the validator and the reach test of WRITE (40 R79, R81). -/
theorem permitted_programFrame (h0 : s.lenNat ≠ 0)
    (hv : validWrite s.cfg.geo s.addrNat s.lenNat = true)
    (hb : beyondReach s.addrNat s.lenNat = false) (ha : s.wireAddr.toNat = s.addrNat) :
    Permitted .write s (programFrame s.cfg s.wireAddr (s.src.readBytes 0 s.lenNat)) := by
  have hlen : (s.src.readBytes 0 s.lenNat).length = s.lenNat := Memory.length_readBytes _ _ _
  have hne : s.src.readBytes 0 s.lenNat ≠ [] := by
    intro h
    rw [h] at hlen
    exact h0 hlen.symm
  simp only [validWrite, Bool.and_eq_true, decide_eq_true_eq] at hv
  simp only [beyondReach, decide_eq_false_iff_not] at hb
  refine ⟨_, decodeFrame_programFrame hc _ hne, ?_, nofun, ?_, nofun⟩
  · simp only [Instr.wellFormed, Bool.and_eq_true, decide_eq_true_eq, ha, hlen]
    omega
  · rintro _ _ ⟨⟩
    exact ⟨rfl, ha, rfl, by omega⟩

/-- What passes the validator and the reach test of ERASE (40 R80, R81). -/
theorem permitted_eraseFrame (hv : validErase s.cfg.geo s.addrNat = true)
    (hb : beyondReach s.addrNat s.cfg.geo.eraseBlockSize = false)
    (ha : s.wireAddr.toNat = s.addrNat) :
    Permitted .erase s (eraseFrame s.cfg s.wireAddr) := by
  have hblock := (config_bounds hc).2.1
  simp only [validErase, Bool.and_eq_true, decide_eq_true_eq] at hv
  simp only [beyondReach, decide_eq_false_iff_not] at hb
  refine ⟨_, decodeFrame_eraseFrame hc _, ?_, nofun, nofun, ?_⟩
  · simp only [Instr.wellFormed, Bool.and_eq_true, decide_eq_true_eq, ha]
    exact hv
  · rintro _ ⟨⟩
    exact ⟨rfl, ha, by omega⟩

end Permitted

/-! ### What each transaction sends -/

@[simp] theorem accept_trace (s : State) (u : ArrayUpdate) : (accept s u).trace = s.trace := rfl

@[simp] theorem advanceCursor_trace (s : State) : (advanceCursor s).trace = s.trace := rfl

section Sending

variable (s : State)

theorem sends_statusDone : sends s (statusDone s) [statusFrame s.cfg] := sends_one rfl rfl

theorem sends_wrenDone : sends s (wrenDone s) [wrenFrame s.cfg] := by
  obtain ⟨sr, k, he, -⟩ := wrenDone_eq s
  rw [he]
  exact sends_one rfl rfl

theorem sends_handshakeDone :
    sends s (handshakeDone s) [wrenFrame s.cfg, statusFrame s.cfg] := by
  have hstatus := sends_statusDone (wrenDone s)
  rw [wrenDone_cfg] at hstatus
  exact sends_trans (sends_wrenDone s) hstatus

theorem sends_readDone (a : Addr24) (rs : List Byte) (k : Nat) (cap : List Byte) :
    sends s (readDone s a rs k cap) [readFrame s.cfg a rs.length] :=
  sends_one (rx := freeBytes s.draws 4 ++ rs) rfl (by simp [readFrame, header_length])

theorem sends_programSent (a : Addr24) (data : List Byte) :
    sends s (programSent s a data) [programFrame s.cfg a data] :=
  sends_one (rx := freeBytes s.draws (4 + data.length)) rfl (by simp [programFrame, header_length])

theorem sends_eraseSent (a : Addr24) : sends s (eraseSent s a) [eraseFrame s.cfg a] :=
  sends_one (rx := freeBytes s.draws 4) rfl (length_freeBytes s.draws 4)

/-- What is on the wire when WRITE and ERASE have made their two checks (42 R103, R104). -/
theorem sends_checked : sends s (handshakeDone (statusDone s))
    [statusFrame s.cfg, wrenFrame s.cfg, statusFrame s.cfg] :=
  sends_trans (sends_statusDone s) (sends_handshakeDone (statusDone s))

end Sending

/-! ### What each operation sends -/

/-- From `s` to `t` the wire carried whole transactions whose frames `i` may send. -/
def SendsPermitted (i : Instr) (s t : State) : Prop :=
  ∃ frames, sends s t frames ∧ ∀ f ∈ frames, Permitted i s f

section Operations

variable {i : Instr} {s t u : State}

/-- Frames on the wire up to `u`, and nothing from there to `t`. -/
theorem SendsPermitted.of_sends {frames : List (List Byte)} (h : sends s u frames)
    (ht : t.trace = u.trace) (hf : ∀ f ∈ frames, Permitted i s f) : SendsPermitted i s t :=
  ⟨frames, sends_congr h rfl ht, hf⟩

theorem SendsPermitted.nothing (ht : t.trace = s.trace) : SendsPermitted i s t :=
  .of_sends (sends_nil rfl) ht (by simp)

theorem SendsPermitted.status (hc : s.cfg.wf = true) (ht : t.trace = (statusDone s).trace) :
    SendsPermitted i s t :=
  .of_sends (sends_statusDone s) ht (by simpa using permitted_statusFrame hc i)

theorem permitted_checked (hc : s.cfg.wf = true) (i : Instr) :
    ∀ f ∈ [statusFrame s.cfg, wrenFrame s.cfg, statusFrame s.cfg], Permitted i s f := by
  simp [permitted_statusFrame hc, permitted_wrenFrame]

/-- The two checks, and one frame more. -/
theorem SendsPermitted.command {f : List Byte} (hc : s.cfg.wf = true)
    (h : sends (handshakeDone (statusDone s)) u [f]) (ht : t.trace = u.trace)
    (hf : Permitted i s f) : SendsPermitted i s t := by
  refine .of_sends (sends_trans (sends_checked s) h) ht (List.forall_mem_append.2 ⟨?_, ?_⟩)
  · exact permitted_checked hc i
  · simpa using hf

theorem execInit_sends (h : execInit s = .next t) : SendsPermitted .init s t := by
  obtain ⟨hc, u, k, hid, ht⟩ := execInit_identified h
  have hsent : sends s u (List.replicate k (identifyFrame s.cfg)) := sends_congr hid.sent rfl rfl
  refine .of_sends hsent (by obtain rfl | rfl := ht <;> rfl) fun f hf => ?_
  rw [List.eq_of_mem_replicate hf]
  exact permitted_identifyFrame hc _

theorem execRead_sends (h : execRead s = .next t) : SendsPermitted .read s t := by
  obtain ⟨hc, -, -, ⟨-, -, rfl | rfl⟩ | ⟨-, -, rfl⟩ | ⟨h0, hv, hb, -, -, ha, h⟩⟩ :=
    execRead_next h
  · exact .nothing rfl
  · exact .nothing rfl
  · exact .nothing rfl
  obtain ⟨-, rfl⟩ | ⟨-, rs, k, cap, hl, rfl⟩ := h
  · exact .status hc rfl
  · have hread := sends_readDone (statusDone s) s.wireAddr rs k cap
    rw [hl] at hread
    refine .of_sends (sends_trans (sends_statusDone s) hread) rfl ?_
    simpa [permitted_statusFrame hc] using permitted_readFrame hc h0 hv hb ha

theorem execWrite_sends (h : execWrite s = .next t) : SendsPermitted .write s t := by
  obtain ⟨hc, -, -, ⟨-, -, rfl | rfl⟩ | ⟨-, -, rfl⟩ | ⟨h0, hv, hb, -, -, ha, h⟩⟩ :=
    execWrite_next h
  · exact .nothing rfl
  · exact .nothing rfl
  · exact .nothing rfl
  have hsent := sends_programSent (handshakeDone (statusDone s)) s.wireAddr
    (s.src.readBytes 0 s.lenNat)
  rw [handshakeDone_cfg] at hsent
  have hprogram := permitted_programFrame hc h0 hv hb ha
  obtain ⟨-, rfl⟩ | ⟨-, -, rfl⟩ | ⟨-, -, rfl | rfl⟩ := h
  · exact .status hc rfl
  · exact .of_sends (sends_checked s) rfl (permitted_checked hc _)
  · exact .command hc hsent (by simp) hprogram
  · exact .command hc hsent (by simp) hprogram

theorem execErase_sends (h : execErase s = .next t) : SendsPermitted .erase s t := by
  obtain ⟨hc, -, -, ⟨-, -, rfl | rfl⟩ | ⟨-, -, rfl⟩ | ⟨-, hv, hb, -, -, ha, h⟩⟩ :=
    execErase_next h
  · exact .nothing rfl
  · exact .nothing rfl
  · exact .nothing rfl
  have hsent := sends_eraseSent (handshakeDone (statusDone s)) s.wireAddr
  rw [handshakeDone_cfg] at hsent
  have herase := permitted_eraseFrame hc hv hb ha
  obtain ⟨-, rfl⟩ | ⟨-, -, rfl⟩ | ⟨-, -, rfl | rfl⟩ := h
  · exact .status hc rfl
  · exact .of_sends (sends_checked s) rfl (permitted_checked hc _)
  · exact .command hc hsent (by simp) herase
  · exact .command hc hsent (by simp) herase

end Operations

/-- Settles O17: by the host operations; each sends the frames of the checks it has passed and of its
own command. -/
theorem hostOperationsSendOnlyWellFormedFrames :
    Obligations.HostOperationsSendOnlyWellFormedFrames := by
  intro i s t hi _ h
  change SendsPermitted i s t
  cases i with
  | init => exact execInit_sends h
  | read => exact execRead_sends h
  | write => exact execWrite_sends h
  | erase => exact execErase_sends h
  | isBusy =>
    obtain ⟨hc, -, -, -, -, rfl⟩ := queryBusy_next h
    exact .status hc rfl
  | poll =>
    obtain ⟨hc, -, -, -, -, rfl⟩ := execPoll_next h
    exact .status hc rfl
  | getGeometry =>
    obtain ⟨-, -, rfl⟩ := execGetGeometry_next h
    exact .nothing rfl
  | reserved6 | reserved7 => cases h
  | cmdWren | cmdStatus | cmdIdentify | cmdRead | cmdProgram | cmdErase | csAssert | csDeassert
  | exchange | busyCheck | wrenHandshake | selftest => cases hi

end Sys2Proof.Machine

/-! PROOFS. The encoding: what a decoded frame is, which opcode selects which command, the bytes of
a header and of an address, and the round that POLL makes of IS_BUSY. -/

namespace Sys2Proof.Machine

/-! ### Decoding after encoding (30 R63 to R70) -/

/-- Settles O2: by the instructions. Each wire command's code is its frame, which decodes to it; a
data format needs the operand's domain for its one data byte. Every other code is a value of `x[op]`
or the event itself. -/
theorem decodeAfterEncode : Obligations.DecodeAfterEncode := by
  intro c i hc hi
  cases i with
  | cmdWren => exact decodeFrame_wrenFrame c
  | cmdStatus => exact decodeFrame_statusFrame hc
  | cmdIdentify => exact decodeFrame_identifyFrame hc
  | cmdErase a => exact decodeFrame_eraseFrame hc a
  | cmdRead a n =>
    simp only [Instr.wellFormed, Bool.and_eq_true, decide_eq_true_eq] at hi
    obtain ⟨hn, -⟩ := hi
    exact decodeFrame_readFrame hc a (Nat.one_le_iff_ne_zero.1 hn)
  | cmdProgram a data =>
    simp only [Instr.wellFormed, Bool.and_eq_true, decide_eq_true_eq] at hi
    obtain ⟨⟨⟨hlength, -⟩, -⟩, -⟩ := hi
    exact decodeFrame_programFrame hc a (List.length_pos_iff.1 hlength)
  | init | read | write | erase | isBusy | getGeometry | reserved6 | reserved7 => rfl
  | csAssert | csDeassert | exchange | busyCheck | wrenHandshake | poll | selftest => rfl

/-! ### What a frame that decodes is (30 R63) -/

/-- The bytes have the format of the command's frame, whatever its filler bytes are (30 R63); no
frame is of any other instruction. -/
def HasFormat (v : Variant) (bytes : List Byte) : Instr → Prop
  | .cmdWren => bytes = [v.opWren]
  | .cmdStatus => ∃ fill, fill.length = 1 ∧ bytes = v.opStatus :: fill
  | .cmdIdentify => ∃ fill, fill.length = 3 ∧ bytes = v.opIdentify :: fill
  | .cmdErase a => bytes = header v.opErase a
  | .cmdRead a n => ∃ fill, fill.length = n ∧ fill ≠ [] ∧ bytes = header v.opRead a ++ fill
  | .cmdProgram a data => data ≠ [] ∧ bytes = header v.opProgram a ++ data
  | _ => False

/-- The header of the address that three bytes name carries those bytes. -/
theorem header_addrOfBytes (op a2 a1 a0 : Byte) :
    header op (addrOfBytes a2 a1 a0) = [op, a2, a1, a0] := by
  rw [header, addrBytes_addrOfBytes]

theorem not_mem_opcodes_iff {v : Variant} {b : Byte} :
    b ∉ v.opcodes ↔ b ≠ v.opRead ∧ b ≠ v.opProgram ∧ b ≠ v.opErase ∧ b ≠ v.opStatus ∧
      b ≠ v.opIdentify ∧ b ≠ v.opWren := by
  simp [Variant.opcodes]

theorem decodeFrame_of_not_mem {v : Variant} {b : Byte} {rest : List Byte} (hb : b ∉ v.opcodes) :
    decodeFrame v (b :: rest) = .error (.unknownOpcode b) := by
  obtain ⟨hread, hprogram, herase, hstatus, hidentify, hwren⟩ := not_mem_opcodes_iff.1 hb
  simp only [decodeFrame, if_neg hwren, if_neg hstatus, if_neg hidentify, if_neg herase,
    if_neg hread, if_neg hprogram]

/-- What the decoder answers for a frame of first byte `b`: a command of the frame's format, or a
rejection by name (30 R63, R71). -/
inductive FrameAnswer (v : Variant) (b : Byte) (rest : List Byte) : Except DecodeError Instr → Prop
  | command {i : Instr} (h : HasFormat v (b :: rest) i) : FrameAnswer v b rest (.ok i)
  | wrongLength (h : b ∈ v.opcodes) : FrameAnswer v b rest (.error (.wrongLength b))
  | noDataByte (h : b ∈ v.opcodes) : FrameAnswer v b rest (.error (.noDataByte b))
  | unknownOpcode (h : b ∉ v.opcodes) : FrameAnswer v b rest (.error (.unknownOpcode b))

/-- Everything the decoder can answer: a byte that is no opcode is rejected, and an opcode goes to
its format, in the order in which the decoder tries the six. -/
theorem decodeFrame_answers (v : Variant) (b : Byte) (rest : List Byte) :
    FrameAnswer v b rest (decodeFrame v (b :: rest)) := by
  by_cases hb : b ∈ v.opcodes
  swap
  · rw [decodeFrame_of_not_mem hb]
    exact .unknownOpcode hb
  simp only [decodeFrame]
  split
  case isTrue hwren =>
    subst hwren
    split
    case isTrue h => exact .command (by rw [h]; rfl)
    case isFalse => exact .wrongLength hb
  split
  case isTrue hstatus =>
    subst hstatus
    split
    case isTrue h => exact .command ⟨rest, h, rfl⟩
    case isFalse => exact .wrongLength hb
  split
  case isTrue hidentify =>
    subst hidentify
    split
    case isTrue h => exact .command ⟨rest, h, rfl⟩
    case isFalse => exact .wrongLength hb
  split
  case isTrue herase =>
    subst herase
    split
    case h_1 a2 a1 a0 => exact .command (header_addrOfBytes v.opErase a2 a1 a0).symm
    case h_2 => exact .wrongLength hb
  split
  case isTrue hread =>
    subst hread
    split
    case h_1 a2 a1 a0 fill =>
      split
      case isTrue => exact .noDataByte hb
      case isFalse hfill =>
        exact .command ⟨fill, rfl, hfill, by rw [header_addrOfBytes]; rfl⟩
    case h_2 => exact .wrongLength hb
  split
  case isTrue hprogram =>
    subst hprogram
    split
    case h_1 a2 a1 a0 data =>
      split
      case isTrue => exact .noDataByte hb
      case isFalse hdata => exact .command ⟨hdata, by rw [header_addrOfBytes]; rfl⟩
    case h_2 => exact .wrongLength hb
  case isFalse hwren hstatus hidentify herase hread hprogram =>
    exact absurd hb
      (not_mem_opcodes_iff.2 ⟨hread, hprogram, herase, hstatus, hidentify, hwren⟩)

/-- A frame that decodes has the format of the command it decodes to. -/
theorem hasFormat_of_decodeFrame {v : Variant} {bytes : List Byte} {i : Instr}
    (h : decodeFrame v bytes = .ok i) : HasFormat v bytes i := by
  cases bytes with
  | nil => cases h
  | cons b rest =>
    have hanswer := decodeFrame_answers v b rest
    rw [h] at hanswer
    cases hanswer
    assumption

/-- Settles O3: each of the three formats, read off the decoded frame. -/
theorem decodedFramesAreTheirFrames : Obligations.DecodedFramesAreTheirFrames := by
  intro c bytes a _
  refine ⟨fun d h => ?_, fun h => hasFormat_of_decodeFrame h, fun n h => ?_⟩
  · obtain ⟨hd, hbytes⟩ := hasFormat_of_decodeFrame h
    exact ⟨hbytes, hd⟩
  · obtain ⟨fill, rfl, hfill, rfl⟩ := hasFormat_of_decodeFrame h
    refine ⟨List.length_pos_iff.2 hfill, ?_, List.take_left' (header_length c.var.opRead a)⟩
    rw [List.length_append, header_length]

/-! ### Byte 0 selects the command (30 R65, R68, R71) -/

/-- The first byte of a frame of a command's format is the command's opcode. -/
theorem commandOpcode_of_hasFormat {v : Variant} {b : Byte} {rest : List Byte} {i : Instr}
    (h : HasFormat v (b :: rest) i) : commandOpcode v i = some b := by
  cases i with
  | cmdWren | cmdErase => exact congrArg some (List.cons.inj h).1.symm
  | cmdStatus | cmdIdentify =>
    obtain ⟨_, -, hbytes⟩ := h
    exact congrArg some (List.cons.inj hbytes).1.symm
  | cmdRead =>
    obtain ⟨_, -, -, hbytes⟩ := h
    exact congrArg some (List.cons.inj hbytes).1.symm
  | cmdProgram =>
    obtain ⟨-, hbytes⟩ := h
    exact congrArg some (List.cons.inj hbytes).1.symm
  | init | read | write | erase | isBusy | getGeometry | reserved6 | reserved7 | csAssert
  | csDeassert | exchange | busyCheck | wrenHandshake | poll | selftest => exact h.elim

/-- The place of a wire command's opcode in `Variant.opcodes`; past its end for any other
instruction. -/
def opcodeIndex : Instr → Nat
  | .cmdRead _ _ => 0
  | .cmdProgram _ _ => 1
  | .cmdErase _ => 2
  | .cmdStatus => 3
  | .cmdIdentify => 4
  | .cmdWren => 5
  | _ => 6

theorem commandOpcode_eq_getElem? (v : Variant) (i : Instr) :
    commandOpcode v i = v.opcodes[opcodeIndex i]? := by
  cases i <;> rfl

/-- Instructions with one opcode under a variant of distinct opcodes have one opcode under every
variant. -/
theorem commandOpcode_congr {v : Variant} (hv : v.opcodes.Nodup) {i j : Instr} {b : Byte}
    (hi : commandOpcode v i = some b) (hj : commandOpcode v j = some b) (u : Variant) :
    commandOpcode u i = commandOpcode u j := by
  simp only [commandOpcode_eq_getElem?] at hi hj ⊢
  obtain ⟨hlt, -⟩ := List.getElem?_eq_some_iff.1 hi
  rw [(List.getElem?_inj hlt hv).1 (hi.trans hj.symm)]

/-- The unknown opcodes are the bytes that are none of the six (30 R71). -/
theorem decodeFrame_unknownOpcode_iff (v : Variant) (b : Byte) (rest : List Byte) :
    decodeFrame v (b :: rest) = .error (.unknownOpcode b) ↔ b ∉ v.opcodes := by
  refine ⟨fun h => ?_, decodeFrame_of_not_mem⟩
  have hanswer := decodeFrame_answers v b rest
  rw [h] at hanswer
  cases hanswer
  assumption

theorem opcodes_nodup {c : Config} (hc : c.wf = true) : c.var.opcodes.Nodup := by
  simp only [Config.wf, Bool.and_eq_true, decide_eq_true_eq] at hc
  exact hc.2

/-- Settles O4: the format of a decoded frame gives its opcode, and distinct opcodes give the
command. -/
theorem unknownOpcodesRejected : Obligations.UnknownOpcodesRejected := by
  intro c b rest hc
  have hopcode {rest : List Byte} {i : Instr} (h : decodeFrame c.var (b :: rest) = .ok i) :=
    commandOpcode_of_hasFormat (hasFormat_of_decodeFrame h)
  exact ⟨fun i h => hopcode h,
    fun i rest' j h h' => commandOpcode_congr (opcodes_nodup hc) (hopcode h) (hopcode h'),
    decodeFrame_unknownOpcode_iff c.var b rest, rfl⟩

/-! ### Sample frames and selections (30 R63, R64, R68, R70) -/

/-- Settles O1: each sample is evaluated. -/
theorem sampleWordsDecode : Obligations.SampleWordsDecode := by
  unfold Obligations.SampleWordsDecode
  decide

/-! ### The header and the address bytes (30 R64, R66) -/

theorem headerWord_opcode (op : Byte) (a : Addr24) : (headerWord op a).extractLsb' 24 8 = op :=
  BitVec.extractLsb'_append_eq_left

theorem headerWord_addr (op : Byte) (a : Addr24) : (headerWord op a).extractLsb' 0 24 = a :=
  BitVec.extractLsb'_append_eq_right

/-- Below bit 24 the header word is the address. -/
theorem headerWord_addrByte (op : Byte) (a : Addr24) {start : Nat} (h : start + 8 ≤ 24) :
    (headerWord op a).extractLsb' start 8 = a.extractLsb' start 8 :=
  BitVec.extractLsb'_append_eq_of_add_le h

/-- The bytes that the address encoder sends are those of `x[addr]` (30 R66). -/
theorem wireAddr_byte (s : State) {start : Nat} (h : start + 8 ≤ 24) :
    s.wireAddr.extractLsb' start 8 = s.x.addr.extractLsb' start 8 :=
  BitVec.extractLsb'_setWidth_of_le h

/-- Settles O5: `H` is the opcode above the address, and the address is the low 24 bits of
`x[addr]`. -/
theorem addressBytesBigEndian : Obligations.AddressBytesBigEndian := by
  refine ⟨fun op a => ⟨headerWord_opcode op a, headerWord_addr op a, ?_⟩,
    fun s => ⟨?_, wireAddr_toNat⟩⟩
  · rw [headerWord_opcode, headerWord_addrByte op a (by decide),
      headerWord_addrByte op a (by decide), headerWord_addrByte op a (by decide), header_eq]
  · rw [addrBytes, wireAddr_byte s (by decide), wireAddr_byte s (by decide),
      wireAddr_byte s (by decide)]

/-! ### One round of POLL (30 R73, 10 R28) -/

/-- POLL leaves the controller where it found it, in IDLE (10 R24). -/
theorem polled_ctrl {s : State} (hp : s.ctrl.phase = .idle) : (polled s).ctrl = s.ctrl := by
  change { s.ctrl with phase := .idle } = s.ctrl
  rw [← hp]

/-- One round of POLL is four moments of the engine for the device (20 R61). -/
theorem sameDevice_polled (s : State) : SameDevice (engineTicks 4 s) (polled s) :=
  ⟨rfl, rfl, rfl, rfl, fun _ => rfl, rfl, rfl⟩

/-- Settles O54: the state after one round, `polled`, read field by field. -/
theorem pollRepeatsIsBusy : Obligations.PollRepeatsIsBusy := by
  intro s ⟨⟨⟨hc, hcs, hx⟩, hp⟩, hi⟩
  exact ⟨polled s, execPoll_eq hc hp hi hcs hx, rfl, rfl,
    sends_congr (sends_statusDone s) rfl rfl, sameDevice_polled s, fun _ => rfl, fun _ => rfl, rfl,
    polled_ctrl hp⟩

end Sys2Proof.Machine

/-! PROOFS. The validator: which test of READ, WRITE and ERASE answers, in the order the operations
make them (zero length or count, the validator, the reach of the address), and what a rejected request
leaves. -/

namespace Sys2Proof.Machine

/-! ### The tests as arithmetic (40 R76, R78 to R81) -/

section Tests

variable {g : Geometry} {a n : Nat}

theorem validRead_iff : validRead g a n = true ↔ a < g.totalSize ∧ a + n ≤ g.totalSize := by
  simp [validRead]

theorem validWrite_iff : validWrite g a n = true ↔
    a < g.totalSize ∧ n ≤ g.pageSize ∧ a % g.pageSize + n ≤ g.pageSize ∧ a + n ≤ g.totalSize := by
  simp [validWrite, and_assoc]

theorem validErase_iff : validErase g a = true ↔
    a % g.eraseBlockSize = 0 ∧ a + g.eraseBlockSize ≤ g.totalSize := by
  simp [validErase]

/-- The addresses from `a` leave the reach of the address encoder when their end passes `2^24`. -/
theorem beyondReach_iff : beyondReach a n = true ↔ 2 ^ 24 < a + n := by
  rw [beyondReach, decide_eq_true_iff]
  omega

end Tests

/-! ### A rejected request -/

section Answers

variable {s : State}

/-- An operation that ends where it began leaves the controller in IDLE, as it was (10 R24). -/
theorem finish_ctrl_of_idle (hp : s.ctrl.phase = .idle) (r : ResultCode) :
    (s.finish r).ctrl = s.ctrl := by
  rw [State.finish_ctrl, ← hp]

/-- A request that is answered OutOfRange at once changes nothing but `x[result]`
(60 R122, R123). -/
theorem outOfRange_frame {i : Instr} (hs : s.Ready)
    (h : exec i s = .next (s.finish .outOfRange)) :
    ∃ t, exec i s = .next t ∧ t.x = { s.x with result := 2 } ∧ t.trace = s.trace ∧
      t.dev = s.dev ∧ t.ctrl = s.ctrl ∧ t.src = s.src ∧ t.dst = s.dst ∧ t.cfg = s.cfg ∧
      t.draws = s.draws ∧ t.program = s.program := by
  obtain ⟨⟨-, hp⟩, -⟩ := hs
  exact ⟨_, h, rfl, rfl, rfl, finish_ctrl_of_idle hp _, rfl, rfl, rfl, rfl, rfl⟩

/-! ### Zero length and zero count (40 R77, R82, R83, log entry 27) -/

/-- How the admitting policy ends a request for nothing. -/
def zeroResult (s : State) : ResultCode :=
  if s.addrNat < s.cfg.geo.totalSize then .success else .outOfRange

theorem resultCode_zeroResult (s : State) :
    resultCode (zeroResult s) = if s.addrNat < s.cfg.geo.totalSize then 0 else 2 :=
  apply_ite resultCode _ _ _

theorem zeroLength_of_refuse (hz : s.cfg.zeroLen = .refuse) :
    zeroLength s = .refused .zeroLength := by
  simp only [zeroLength, hz]

theorem zeroCount_of_refuse (hz : s.cfg.zeroCount = .refuse) :
    zeroCount s = .refused .zeroCount := by
  simp only [zeroCount, hz]

theorem zeroLength_of_succeed (hz : s.cfg.zeroLen = .succeed) :
    zeroLength s = .next (s.finish (zeroResult s)) := by
  simp only [zeroLength, hz, zeroResult]
  split <;> rfl

theorem zeroCount_of_succeed (hz : s.cfg.zeroCount = .succeed) :
    zeroCount s = .next (s.finish (zeroResult s)) := by
  simp only [zeroCount, hz, zeroResult]
  split <;> rfl

/-! ### What the tests of a ready block answer, test by test -/

/-- A ready block passes the preconditions of the operations that use the device. -/
theorem State.Ready.requireReady_eq (hs : s.Ready) (k : State → Res State) :
    requireReady s k = k s := by
  obtain ⟨⟨⟨hc, -, -⟩, hp⟩, hi⟩ := hs
  exact requireReady_pass k hc hp hi

theorem execRead_of_zero (hs : s.Ready) (h0 : s.lenNat = 0) : exec .read s = zeroLength s := by
  rw [exec, execRead, hs.requireReady_eq, if_pos h0]

theorem execWrite_of_zero (hs : s.Ready) (h0 : s.lenNat = 0) : exec .write s = zeroLength s := by
  rw [exec, execWrite, hs.requireReady_eq, if_pos h0]

theorem execErase_of_zero (hs : s.Ready) (h0 : s.countNat = 0) : exec .erase s = zeroCount s := by
  rw [exec, execErase, hs.requireReady_eq, if_pos h0]

theorem execRead_of_invalid (hs : s.Ready) (h0 : s.lenNat ≠ 0)
    (hv : ¬ validRead s.cfg.geo s.addrNat s.lenNat = true) :
    exec .read s = .next (s.finish .outOfRange) := by
  rw [exec, execRead, hs.requireReady_eq, if_neg h0, if_pos (by simpa using hv), State.raise_eq]

theorem execErase_of_invalid (hs : s.Ready) (h0 : s.countNat ≠ 0)
    (hv : ¬ validErase s.cfg.geo s.addrNat = true) :
    exec .erase s = .next (s.finish .outOfRange) := by
  rw [exec, execErase, hs.requireReady_eq, if_neg h0, if_pos (by simpa using hv), State.raise_eq]

theorem execRead_beyondReach (hs : s.Ready) (h0 : s.lenNat ≠ 0)
    (hv : validRead s.cfg.geo s.addrNat s.lenNat = true)
    (hb : beyondReach s.addrNat s.lenNat = true) : exec .read s = .refused .reachAbove24 := by
  rw [exec, execRead, hs.requireReady_eq, if_neg h0, if_neg (by simpa using hv), if_pos hb]

theorem execWrite_beyondReach (hs : s.Ready) (h0 : s.lenNat ≠ 0)
    (hv : validWrite s.cfg.geo s.addrNat s.lenNat = true)
    (hb : beyondReach s.addrNat s.lenNat = true) : exec .write s = .refused .reachAbove24 := by
  rw [exec, execWrite, hs.requireReady_eq, if_neg h0, if_neg (by simpa using hv), if_pos hb]

theorem execErase_beyondReach (hs : s.Ready) (h0 : s.countNat ≠ 0)
    (hv : validErase s.cfg.geo s.addrNat = true)
    (hb : beyondReach s.addrNat s.cfg.geo.eraseBlockSize = true) :
    exec .erase s = .refused .reachAbove24 := by
  rw [exec, execErase, hs.requireReady_eq, if_neg h0, if_neg (by simpa using hv), if_pos hb]

end Answers

/-! ### The obligations -/

/-- Settles O46: an unaligned block, or one that leaves the array, is what `validErase` rejects. -/
theorem misalignedEraseIsOutOfRange : Obligations.MisalignedEraseIsOutOfRange := by
  intro s hs h1 hbad
  have hv : ¬ validErase s.cfg.geo s.addrNat = true := by
    rw [validErase_iff]
    omega
  exact outOfRange_frame hs (execErase_of_invalid hs (by omega) hv)

/-- Settles O47: `validRead` compares exact sums, so a range that leaves the array fails it. -/
theorem readOutsideTheArrayIsOutOfRange : Obligations.ReadOutsideTheArrayIsOutOfRange := by
  intro s hs h1 hout
  have hv : ¬ validRead s.cfg.geo s.addrNat s.lenNat = true := by
    rw [validRead_iff]
    omega
  exact outOfRange_frame hs (execRead_of_invalid hs (by omega) hv)

/-- Settles O50: a request that the validator passes and whose end is past `2^24` meets the reach
test next, before the device is asked anything. -/
theorem reachAboveTwentyFourBitsRefused : Obligations.ReachAboveTwentyFourBitsRefused := by
  refine fun s hs => ⟨fun h1 ht h24 => ⟨?_, fun hpg => ?_⟩, fun h1 hal ht h24 => ?_⟩
  · exact execRead_beyondReach hs (by omega) (validRead_iff.2 ⟨by omega, ht⟩)
      (beyondReach_iff.2 h24)
  · exact execWrite_beyondReach hs (by omega)
      (validWrite_iff.2 ⟨by omega, by omega, hpg, ht⟩) (beyondReach_iff.2 h24)
  · exact execErase_beyondReach hs (by omega) (validErase_iff.2 ⟨hal, ht⟩) (beyondReach_iff.2 h24)

/-- Settles O51: the zero test comes first in each operation, and the policy alone decides it. -/
theorem zeroLengthAndZeroCount : Obligations.ZeroLengthAndZeroCount := by
  refine fun s hs => ⟨fun h0 hz => ?_, fun h0 hz => ?_, fun h0 hz => ?_, fun h0 hz => ?_⟩
  · have refused := zeroLength_of_refuse hz
    exact ⟨(execRead_of_zero hs h0).trans refused, (execWrite_of_zero hs h0).trans refused⟩
  · exact (execErase_of_zero hs h0).trans (zeroCount_of_refuse hz)
  · have ends := zeroLength_of_succeed hz
    exact ⟨_, (execRead_of_zero hs h0).trans ends, (execWrite_of_zero hs h0).trans ends,
      by rw [State.finish_x, resultCode_zeroResult], rfl, rfl, rfl⟩
  · exact ⟨_, (execErase_of_zero hs h0).trans (zeroCount_of_succeed hz),
      by rw [State.finish_x, resultCode_zeroResult], rfl, rfl⟩

end Sys2Proof.Machine

/-! PROOFS. The transport: what the three primitives do to the wire, to the controller and to the
device; the frame of every instruction below the host operations; and where a host operation
ends. -/

namespace Sys2Proof.Machine

/-! ### The devices of two states

The relations of the statements put together, and read off a device in closed form. -/

section Devices

variable {s t u : State}

theorem SameDevice.refl (s : State) : SameDevice s s :=
  ⟨rfl, rfl, rfl, rfl, fun _ => rfl, rfl, rfl⟩

theorem SameDevice.butWriting (h : SameDevice s t) : SameDeviceButWriting s t := by
  obtain ⟨hsr, hid0, hid1, hid2, harray, -, hprofile⟩ := h
  exact ⟨fun _ _ => by rw [hsr], hid0, hid1, hid2, harray, hprofile⟩

theorem SameDeviceButWriting.trans (h : SameDeviceButWriting s t)
    (k : SameDeviceButWriting t u) : SameDeviceButWriting s u := by
  obtain ⟨hsr, hid0, hid1, hid2, harray, hprofile⟩ := h
  obtain ⟨ksr, kid0, kid1, kid2, karray, kprofile⟩ := k
  exact ⟨fun j hj => (ksr j hj).trans (hsr j hj), kid0.trans hid0, kid1.trans hid1,
    kid2.trans hid2, fun a => (karray a).trans (harray a), kprofile.trans hprofile⟩

/-- A device that the engine alone has moved, whatever bytes it has heard meanwhile. -/
theorem sameDevice_of_onBus {n : Nat} {r : List Byte} {g : Bool}
    (h : t.dev = (s.dev.ticks s.cfg n).onBus r g) : SameDevice (engineTicks n s) t := by
  unfold SameDevice
  rw [h]
  exact SameDevice.refl (engineTicks n s)

theorem DeviceMoved.butWriting (h : DeviceMoved s t) : DeviceMovedButWriting s t := by
  obtain ⟨n, hn⟩ := h
  exact ⟨n, hn.butWriting⟩

/-- Whatever frame it acts on, the device writes `WIP`, `WEL` and the pending update only. -/
theorem deviceActs_butWriting (h : deviceActs s = .next t) : SameDeviceButWriting s t := by
  obtain ⟨-, -, -, -, -, -, -, -, hid0, hid1, hid2, harray, -, -, hprofile, hsr⟩ :=
    deviceActs_frame h
  exact ⟨hsr, hid0, hid1, hid2, sameBytes_of_eq harray, hprofile⟩

theorem accept_butWriting (s : State) (v : ArrayUpdate) : SameDeviceButWriting s (accept s v) :=
  ⟨fun _ _ => getLsbD_withWip _ _ _ (by omega), rfl, rfl, rfl, fun _ => rfl, rfl⟩

theorem strayEffect_butWriting (s : State) : SameDeviceButWriting s (strayEffect s) := by
  obtain ⟨b, k, he | he⟩ := strayEffect_cases s <;> rw [he]
  · exact ⟨fun _ _ => getLsbD_withWel _ _ _ (by omega), rfl, rfl, rfl, fun _ => rfl, rfl⟩
  · exact (SameDevice.refl s).butWriting

theorem acceptsUpdates_iff {d : Dev} :
    acceptsUpdates d = true ↔ wel d.sr = true ∧ wip d.sr = false := by
  simp [acceptsUpdates]

end Devices

/-! ### CS_ASSERT (41 R85) -/

/-- The precondition of the primitives fails at the other level of chip-select, and with an exchange
active (41 R85, R86, R88, log entry 39). -/
theorem precondition_fails {s : State} {l m : CsLevel} (hne : l ≠ m)
    (h : s.ctrl.cs = l ∨ s.ctrl.xferActive = true) :
    ¬ (s.ctrl.cs = m ∧ s.ctrl.xferActive = false) := by
  rintro ⟨hcs, hx⟩
  obtain h | h := h
  · exact hne (h.symm.trans hcs)
  · simp [hx] at h

theorem csAssert_faults {s : State}
    (h : s.ctrl.cs = .asserted ∨ s.ctrl.xferActive = true) : csAssert s = .fault .csProtocol :=
  if_neg (precondition_fails (by decide) h)

/-- Settles O23: `csAssert_eq` read field by field, and the precondition that fails. -/
theorem chipSelectAsserts : Obligations.ChipSelectAsserts := by
  refine fun s hc => ⟨fun hcs hx => ?_, fun h => ?_⟩
  · exact ⟨_, (requireConfig_pass _ hc).trans (csAssert_eq hcs hx), rfl, rfl, rfl, rfl,
      sameDevice_of_onBus (n := 1) rfl, ⟨rfl, rfl, fun _ => rfl, fun _ => rfl, rfl⟩, rfl, rfl⟩
  · exact (requireConfig_pass _ hc).trans (csAssert_faults h)

/-! ### CS_DEASSERT (41 R86) -/

section Deassert

variable {s u : State}

/-- The state after CS_DEASSERT, from the one in which the device has acted (41 R86, log
entry 18). -/
def deselected (u : State) : State := (raisedCs u).setPhase .idle

/-- What CS_DEASSERT does to the controller, the wire and the bytes on the bus, and that it leaves
the host's side. -/
def Deselects (s t : State) : Prop :=
  t.ctrl = { s.ctrl with cs := .deasserted, phase := .idle } ∧ t.trace = s.trace ++ [.csUp] ∧
    t.dev.rx = [] ∧ t.dev.ignoring = false ∧ SameHost s t

theorem execCsDeassert_of_acts (hc : s.cfg.wf = true) (hcs : s.ctrl.cs = .asserted)
    (hx : s.ctrl.xferActive = false) (hu : deviceActs (engineTick s) = .next u) :
    exec .csDeassert s = .next (deselected u) := by
  rw [exec, execCsDeassert, requireConfig_pass _ hc, csDeassert_of_acts hcs hx hu]
  rfl

theorem deselects_of_acts (hu : deviceActs (engineTick s) = .next u) :
    Deselects s (deselected u) := by
  obtain ⟨hcfg, hctrl, hregs, hsrc, hdst, htrace, -, hprogram, -⟩ := deviceActs_frame hu
  refine ⟨?_, ?_, rfl, rfl, hcfg, hregs, sameBytes_of_eq hsrc, sameBytes_of_eq hdst, hprogram⟩
  · change { u.ctrl with cs := .deasserted, phase := .idle } = _
    rw [hctrl]
    rfl
  · change u.trace ++ [.csUp] = _
    rw [htrace]
    rfl

/-- The edge itself leaves the device as it has acted, but for the bytes on the bus. -/
theorem sameDevice_deselected (u : State) : SameDevice u (deselected u) :=
  SameDevice.refl u

theorem deselected_butWriting (hu : deviceActs s = .next u) :
    SameDeviceButWriting s (deselected u) :=
  (deviceActs_butWriting hu).trans (sameDevice_deselected u).butWriting

theorem csDeassert_faults (h : s.ctrl.cs = .deasserted ∨ s.ctrl.xferActive = true) :
    csDeassert s = .fault .csProtocol :=
  if_neg (precondition_fails (by decide) h)

theorem engineTick_rx (s : State) : (engineTick s).dev.rx = s.dev.rx :=
  Dev.ticks_rx s.cfg 1 s.dev

theorem engineTick_profile (s : State) : (engineTick s).dev.profile = s.dev.profile :=
  Dev.ticks_profile s.cfg 1 s.dev

/-! The write-enable command by the kind of latch, and a stray frame by `WIP` (20 R57, R62, log
entries 7, 14). -/

theorem wrenEffect_of_sets (hl : s.dev.profile.latch = .sets) (hw : wip s.dev.sr = false) :
    wrenEffect s = s.setSr (withWel s.dev.sr true) := by
  simp [wrenEffect, hl, hw]

theorem wrenEffect_of_kept
    (h : s.dev.profile.latch = .stuck ∨ s.dev.profile.latch = .sets ∧ wip s.dev.sr = true) :
    wrenEffect s = s := by
  obtain hl | ⟨hl, hw⟩ := h
  · simp [wrenEffect, hl]
  · simp [wrenEffect, hl, hw]

theorem wrenEffect_of_unstated (hl : s.dev.profile.latch = .unstated) :
    wrenEffect s =
      (s.setSr (withWel s.dev.sr (wel s.dev.sr || Config.freeBit s.draws))).advanceDraws 1 := by
  simp [wrenEffect, hl]

theorem strayEffect_of_busy (hw : wip s.dev.sr = true) : strayEffect s = s := by
  simp [strayEffect, hw]

theorem strayEffect_of_idle (hw : wip s.dev.sr = false) :
    strayEffect s =
      (s.setSr (withWel s.dev.sr (wel s.dev.sr && Config.freeBit s.draws))).advanceDraws 1 := by
  simp [strayEffect, hw]

/-- No frame, and the frames of the commands that only read (20 R55, R56, R58, log entry 14). -/
theorem deviceActs_of_reading (h : s.dev.rx = [] ∨ ∃ op rest, s.dev.rx = op :: rest ∧
    (op = s.cfg.var.opStatus ∨ op = s.cfg.var.opIdentify ∨ op = s.cfg.var.opRead)) :
    deviceActs s = .next s := by
  obtain h | ⟨op, rest, h, rfl | rfl | rfl⟩ := h
  · simp [deviceActs, h]
  · exact deviceActs_status h
  · exact deviceActs_identify h
  · exact deviceActs_read h

/-- A program inside its page and the array is taken by a device with `WEL = 1` and `WIP = 0`
(20 R59). -/
theorem deviceActs_acceptsProgram {a : Addr24} {data : List Byte} (hc : s.cfg.wf = true)
    (h : s.dev.rx = programFrame s.cfg a data) (hd : data ≠ [])
    (hacc : acceptsUpdates s.dev = true)
    (hpage : a.toNat % s.cfg.geo.pageSize + data.length ≤ s.cfg.geo.pageSize)
    (hin : a.toNat + data.length ≤ s.cfg.geo.totalSize) :
    deviceActs s = .next (accept s (.program a data)) := by
  have harray : programInArray s.cfg.geo a.toNat data.length = true := by
    rw [programInArray, if_pos hpage]
    exact decide_eq_true hin
  rw [deviceActs_program hc h, if_pos hacc, if_neg hd, if_pos harray]

/-- An erase of an address of the array is taken by a device with `WEL = 1` and `WIP = 0`
(20 R60). -/
theorem deviceActs_acceptsErase {a : Addr24} {more : List Byte} (hc : s.cfg.wf = true)
    (h : s.dev.rx = eraseFrame s.cfg a ++ more) (hacc : acceptsUpdates s.dev = true)
    (hin : a.toNat < s.cfg.geo.totalSize) : deviceActs s = .next (accept s (.erase a)) := by
  rw [deviceActs_erase hc h, if_pos hacc, if_pos hin]

/-- A short program or erase frame at a device with `WEL = 1`, or a first byte that is no opcode: a
busy device ignores it as it ignores every program and erase (20 R62, log entry 14). -/
theorem deviceActs_incomplete {op : Byte} {rest : List Byte} (hc : s.cfg.wf = true)
    (h : s.dev.rx = op :: rest)
    (hop : op ∉ s.cfg.var.opcodes ∨ wel s.dev.sr = true ∧
      (op = s.cfg.var.opProgram ∧ rest.length < 4 ∨ op = s.cfg.var.opErase ∧ rest.length < 3)) :
    deviceActs s = .next (strayEffect s) := by
  rcases hop with hop | ⟨hwel, hop⟩
  · exact deviceActs_stray hc h (.inl hop)
  cases hw : wip s.dev.sr with
  | false => exact deviceActs_stray hc h (.inr ⟨acceptsUpdates_iff.2 ⟨hwel, hw⟩, hop⟩)
  | true =>
    rw [strayEffect_of_busy hw]
    exact deviceActs_ignored hc h (hop.imp And.left And.left) (by simp [acceptsUpdates, hw])

end Deassert

/-- Settles O24: in each clause what the device does with the frame, `deviceActs`, is known, and the
edge adds its own. -/
theorem chipSelectDeasserts : Obligations.ChipSelectDeasserts := by
  intro s hc e ended
  refine ⟨fun h => ?_, fun hcs hx => ?_⟩
  · rw [exec, execCsDeassert, requireConfig_pass _ hc, csDeassert_faults h, andThen_fault]
  have hrx : e.dev.rx = s.dev.rx := engineTick_rx s
  have hprofile : e.dev.profile = s.dev.profile := engineTick_profile s
  have acts {u : State} (hu : deviceActs e = .next u) :
      exec .csDeassert s = .next (deselected u) ∧ ended (deselected u) :=
    ⟨execCsDeassert_of_acts hc hcs hx hu, deselects_of_acts hu⟩
  have nothing (hu : deviceActs e = .next e) :
      ∃ t, exec .csDeassert s = .next t ∧ ended t ∧ SameDevice e t :=
    ⟨_, (acts hu).1, (acts hu).2, sameDevice_deselected e⟩
  refine ⟨fun h => ?_, fun more h hl hw => ?_, fun more h hl => ?_, fun more h hl => ?_,
    fun a d h hd hwel hw hpage hin => ?_, fun a more h hwel hw hin => ?_,
    fun op rest h hop hno => ?_, fun op rest h hop => ?_⟩
  · exact nothing (deviceActs_of_reading (s := e) (hrx ▸ h))
  · have hu := deviceActs_wren (s := e) hc (hrx.trans h)
    rw [wrenEffect_of_sets (s := e) (hprofile ▸ hl) hw] at hu
    exact ⟨_, (acts hu).1, (acts hu).2, wel_withWel _ _, (wip_withWel _ _).trans hw, rfl,
      deselected_butWriting hu⟩
  · have hu := deviceActs_wren (s := e) hc (hrx.trans h)
    rw [wrenEffect_of_kept (s := e) (hprofile ▸ hl)] at hu
    exact nothing hu
  · have hu := deviceActs_wren (s := e) hc (hrx.trans h)
    rw [wrenEffect_of_unstated (s := e) (hprofile ▸ hl)] at hu
    exact ⟨_, (acts hu).1, (acts hu).2, wel_withWel _ _, wip_withWel _ _, rfl,
      deselected_butWriting hu⟩
  · have hu := deviceActs_acceptsProgram (s := e) hc (hrx.trans h) hd
      (acceptsUpdates_iff.2 ⟨hwel, hw⟩) hpage hin
    exact ⟨_, _, (acts hu).1, (acts hu).2, rfl, rfl, wip_withWip _ _,
      (wel_withWip _ _).trans hwel, deselected_butWriting hu⟩
  · have hu := deviceActs_acceptsErase (s := e) hc (hrx.trans h)
      (acceptsUpdates_iff.2 ⟨hwel, hw⟩) hin
    exact ⟨_, _, (acts hu).1, (acts hu).2, rfl, rfl, wip_withWip _ _,
      (wel_withWip _ _).trans hwel, deselected_butWriting hu⟩
  · have hacc : acceptsUpdates e.dev = false := by
      obtain h | h := hno <;> simp [acceptsUpdates, h]
    exact nothing (deviceActs_ignored (s := e) hc (hrx.trans h) hop hacc)
  · have hu := deviceActs_incomplete (s := e) hc (hrx.trans h) hop
    refine ⟨_, (acts hu).1, (acts hu).2, fun hw => ?_, fun hw => ?_⟩
    · rw [strayEffect_of_busy hw]
      exact sameDevice_deselected e
    · have hbut := deselected_butWriting hu
      rw [strayEffect_of_idle hw] at hbut ⊢
      exact ⟨wel_withWel _ _, (wip_withWel _ _).trans hw, rfl, hbut⟩

/-! ### EXCHANGE (41 R88) -/

section Exchange

variable {s : State} {w : List Byte} {n : Nat}

theorem execExchange_inRange (hc : s.cfg.wf = true) (hw : w.length ≤ s.cfg.maxXfer)
    (hn : n ≤ s.cfg.maxXfer) (async : Bool) : exec (.exchange w n async) s = exchange w n s := by
  rw [exec, execExchange, requireConfig_pass _ hc, if_pos ⟨hw, hn⟩]

/-- An operand that is too long is refused before the bus is looked at (log entry 28). -/
theorem execExchange_tooLong (hc : s.cfg.wf = true)
    (h : ¬ (w.length ≤ s.cfg.maxXfer ∧ n ≤ s.cfg.maxXfer)) (async : Bool) :
    exec (.exchange w n async) s = .refused .exchangeTooLong := by
  rw [exec, execExchange, requireConfig_pass _ hc, if_neg h]

theorem exchange_faults (h : s.ctrl.cs = .deasserted ∨ s.ctrl.xferActive = true) :
    exchange w n s = .fault .csProtocol :=
  if_neg (precondition_fails (by decide) h)

/-- The device after the byte times of an exchange: the engine's moments, and the bytes heard. -/
theorem shifted_moved (s : State) (tx rs : List Byte) (k : Nat) :
    (shifted s tx rs k).dev.rx = s.dev.rx ++ tx ∧
      SameDevice (engineTicks tx.length s) (shifted s tx rs k) := by
  obtain ⟨r, g, hd, hr⟩ := Dev.hearAll_eq s.cfg tx s.dev
  refine ⟨?_, sameDevice_of_onBus hd⟩
  rw [shifted_dev, hd, Dev.onBus_rx, hr]

end Exchange

/-- Settles O25: `exchangeIn_eq` gives the byte times; the operands' bound and the bus come
before. -/
theorem exchangeIsFullDuplex : Obligations.ExchangeIsFullDuplex := by
  intro s w n hc tx
  refine ⟨fun _ => rfl, fun hw hn => ?_, fun h => execExchange_tooLong hc h false⟩
  have hrow : exec (.exchange w n false) s = exchange w n s := execExchange_inRange hc hw hn false
  refine ⟨fun h => hrow.trans (exchange_faults h), fun hcs hx hend => ?_, fun hcs hx hend => ?_⟩
  · obtain ⟨rs, k, -, -, he⟩ := exchangeIn_eq s.ctrl.phase w n hcs hx
    exact hrow.trans (he.trans (if_pos hend))
  · obtain ⟨rs, k, hl, hdriven, he⟩ := exchangeIn_eq s.ctrl.phase w n hcs hx
    rw [exchanged_self, if_neg (by exact Bool.eq_false_iff.1 hend)] at he
    obtain ⟨hrx, hdev⟩ := shifted_moved s tx rs k
    exact ⟨_, rs, hrow.trans he, hl.trans (txBytes_length s.cfg w n), hdriven, rfl, rfl, hrx, rfl,
      hdev, rfl, rfl, fun _ => rfl, fun _ => rfl, rfl⟩

/-! ### The frame of the instructions below the host operations -/

/-- What such an instruction may change of the controller: its data phase counts (42 R100, R101). -/
def CtrlKept : Instr → State → State → Prop
  | .cmdRead _ _ | .cmdProgram _ _ => SameCtrlButOffset
  | _ => SameCtrlButPosition

/-- What such an instruction may change of the device: the engine moves, and a frame that the device
acts on may write `WIP`, `WEL` and the pending update (20 R57, R59, R60). -/
def DeviceKept : Instr → State → State → Prop
  | .cmdWren | .wrenHandshake | .csDeassert | .cmdProgram _ _ | .cmdErase _ =>
    DeviceMovedButWriting
  | _ => DeviceMoved

/-- What an instruction below the host operations leaves of the program, the controller and the
device. -/
structure WireFrame (i : Instr) (s t : State) : Prop where
  program : t.program = s.program
  ctrl : CtrlKept i s t
  dev : DeviceKept i s t

section WireFrame

variable {i : Instr} {s t : State}

theorem SameCtrlButPosition.butOffset (h : SameCtrlButPosition s t) :
    SameCtrlButOffset s t ∧ t.ctrl.off = s.ctrl.off := by
  unfold SameCtrlButPosition at h
  have hoff : t.ctrl.off = s.ctrl.off := by rw [h]
  refine ⟨?_, hoff⟩
  unfold SameCtrlButOffset
  rw [hoff]
  exact h

theorem WireFrame.sameCtrlButOffset (h : WireFrame i s t) : SameCtrlButOffset s t := by
  have hctrl := h.ctrl
  unfold CtrlKept at hctrl
  split at hctrl
  · exact hctrl
  · exact hctrl
  · exact hctrl.butOffset.1

theorem WireFrame.off (h : WireFrame i s t) (hread : ∀ a n, i ≠ .cmdRead a n)
    (hprogram : ∀ a d, i ≠ .cmdProgram a d) : t.ctrl.off = s.ctrl.off := by
  have hctrl := h.ctrl
  unfold CtrlKept at hctrl
  split at hctrl
  · exact absurd rfl (hread _ _)
  · exact absurd rfl (hprogram _ _)
  · exact hctrl.butOffset.2

theorem WireFrame.deviceMoved (h : WireFrame i s t) (hwren : i ≠ .cmdWren)
    (hhandshake : i ≠ .wrenHandshake) (hcs : i ≠ .csDeassert)
    (hprogram : ∀ a d, i ≠ .cmdProgram a d) (herase : ∀ a, i ≠ .cmdErase a) :
    DeviceMoved s t := by
  have hdev := h.dev
  unfold DeviceKept at hdev
  split at hdev
  · exact absurd rfl hwren
  · exact absurd rfl hhandshake
  · exact absurd rfl hcs
  · exact absurd rfl (hprogram _ _)
  · exact absurd rfl (herase _)
  · exact hdev

theorem WireFrame.deviceMovedButWriting (h : WireFrame i s t) : DeviceMovedButWriting s t := by
  have hdev := h.dev
  unfold DeviceKept at hdev
  split at hdev
  exacts [hdev, hdev, hdev, hdev, hdev, hdev.butWriting]

theorem RegsAfter.x_kept (h : RegsAfter s t i) (hi : isHostOp i = false) : t.x = s.x := by
  cases h with
  | none _ hx => exact hx
  | result hr =>
    rw [mayReturn_eq_nil (by rintro rfl; cases hi) (by rintro rfl; cases hi)
      (by rintro rfl; cases hi) (by rintro rfl; cases hi)] at hr
    cases hr
  | cursor | isBusy | poll | geometry => cases hi

theorem dstBound_eq_zero (hi : isHostOp i = false) (hread : ∀ a n, i ≠ .cmdRead a n) :
    dstBound s i = 0 := by
  unfold dstBound
  split
  · cases hi
  · exact absurd rfl (hread _ _)
  · rfl

end WireFrame

section Rows

variable {s t : State}

theorem alone_next {cmd : State → Res State} (h : alone cmd s = .next t) :
    s.cfg.wf = true ∧ ∃ u, cmd s = .next u ∧ t = u.setPhase .idle := by
  simp only [alone, requireConfig_eq_next, andThen_eq_next, Host.Outcome.next.injEq] at h
  obtain ⟨hc, u, hu, rfl⟩ := h
  exact ⟨hc, u, hu, rfl⟩

theorem wireFrame_cmdStatus (h : execCmdStatus s = .next t) : WireFrame .cmdStatus s t := by
  obtain ⟨-, u, hu, rfl⟩ := alone_next h
  obtain ⟨-, -, rfl⟩ := cmdStatus_next hu
  exact ⟨rfl, rfl, _, sameDevice_of_onBus rfl⟩

theorem wireFrame_busyCheck (h : execBusyCheck s = .next t) : WireFrame .busyCheck s t := by
  obtain ⟨hprogram, hctrl, hdev⟩ := wireFrame_cmdStatus h
  exact ⟨hprogram, hctrl, hdev⟩

theorem wireFrame_cmdIdentify (h : execCmdIdentify s = .next t) :
    WireFrame .cmdIdentify s t := by
  obtain ⟨hc, u, hu, rfl⟩ := alone_next h
  obtain ⟨-, -, rs, k, -, rfl⟩ := cmdIdentify_next hc hu
  exact ⟨rfl, rfl, _, sameDevice_of_onBus rfl⟩

theorem wireFrame_cmdRead {a : Addr24} {n : Nat} (h : execCmdRead a n s = .next t) :
    WireFrame (.cmdRead a n) s t := by
  obtain ⟨hc, u, hu, rfl⟩ := alone_next h
  obtain ⟨-, -, rs, k, cap, -, -, rfl⟩ := cmdRead_next hc hu
  exact ⟨rfl, rfl, _, sameDevice_of_onBus (readDone_dev s a rs k cap)⟩

theorem wireFrame_cmdWren (h : execCmdWren s = .next t) : WireFrame .cmdWren s t := by
  obtain ⟨hc, u, hu, rfl⟩ := alone_next h
  obtain ⟨-, -, rfl⟩ := cmdWren_next hc hu
  obtain ⟨sr, k, he, -, hsr, -⟩ := wrenDone_eq s
  rw [he]
  exact ⟨rfl, rfl, 3, hsr, rfl, rfl, rfl, fun _ => rfl, rfl⟩

/-- The handshake is a write-enable and, with the engine four moments on, a status read
(42 R104). -/
theorem wireFrame_wrenHandshake (h : execWrenHandshake s = .next t) :
    WireFrame .wrenHandshake s t := by
  obtain ⟨hc, u, hu, rfl⟩ := alone_next h
  obtain ⟨-, -, rfl⟩ := wrenHandshake_next hc hu
  refine ⟨handshakeDone_program s, ?_, 7, ?_⟩
  · change { (handshakeDone s).ctrl with phase := .idle } =
      { s.ctrl with phase := .idle, cs := (handshakeDone s).ctrl.cs }
    rw [handshakeDone_ctrl]
  · obtain ⟨sr, k, he, hwip, hsr, -⟩ := wrenDone_eq s
    obtain ⟨sr', hticks, -, hsr'⟩ := Dev.ticks_withSr s.cfg 4 (s.dev.ticks s.cfg 3) sr hwip hsr
    have hdev : (handshakeDone s).dev = { s.dev.ticks s.cfg 7 with sr := sr' }.onBus [] false := by
      rw [handshakeDone_dev, he, hticks, Dev.ticks_add]
    rw [Dev.ticks_add] at hsr'
    unfold SameDeviceButWriting
    rw [State.setPhase_dev, hdev]
    exact ⟨hsr', rfl, rfl, rfl, fun _ => rfl, rfl⟩

/-- A program that the device ignores, accepts, or takes for a frame that completes no command. -/
theorem wireFrame_cmdProgram {a : Addr24} {data : List Byte}
    (h : execCmdProgram a data s = .next t) : WireFrame (.cmdProgram a data) s t := by
  obtain ⟨hc, u, hu, rfl⟩ := alone_next h
  have hsent : SameDeviceButWriting (engineTicks (data.length + 6) s) (programSent s a data) :=
    (sameDevice_of_onBus (programSent_dev s a data)).butWriting
  obtain ⟨-, -, ⟨-, rfl⟩ | ⟨-, -, -, rfl⟩ | ⟨-, rfl⟩⟩ := cmdProgram_next hc hu
  · exact ⟨rfl, rfl, _, hsent⟩
  · exact ⟨rfl, rfl, _, hsent.trans (accept_butWriting _ _)⟩
  · have hstray := hsent.trans (strayEffect_butWriting (programSent s a data))
    obtain ⟨b, k, he | he⟩ := strayEffect_cases (programSent s a data) <;> rw [he] at hstray ⊢ <;>
      exact ⟨rfl, rfl, _, hstray⟩

theorem wireFrame_cmdErase {a : Addr24} (h : execCmdErase a s = .next t) :
    WireFrame (.cmdErase a) s t := by
  obtain ⟨hc, u, hu, rfl⟩ := alone_next h
  have hsent : SameDeviceButWriting (engineTicks 6 s) (eraseSent s a) :=
    (sameDevice_of_onBus (eraseSent_dev s a)).butWriting
  obtain ⟨-, -, ⟨-, rfl⟩ | ⟨-, -, rfl⟩⟩ := cmdErase_next hc hu
  · exact ⟨rfl, rfl, _, hsent⟩
  · exact ⟨rfl, rfl, _, hsent.trans (accept_butWriting _ _)⟩

theorem wireFrame_csAssert (h : execCsAssert s = .next t) : WireFrame .csAssert s t := by
  rw [execCsAssert, requireConfig_eq_next] at h
  obtain ⟨-, -, rfl⟩ := csAssert_eq_next h.2
  exact ⟨rfl, rfl, 1, sameDevice_of_onBus rfl⟩

theorem wireFrame_csDeassert (h : execCsDeassert s = .next t) : WireFrame .csDeassert s t := by
  have h' := h
  simp only [execCsDeassert, requireConfig_eq_next, andThen_eq_next] at h'
  obtain ⟨hc, v, hv, -⟩ := h'
  obtain ⟨hcs, hx, u, hu, -⟩ := csDeassert_eq_next hv
  obtain rfl : deselected u = t :=
    Host.Outcome.next.inj ((execCsDeassert_of_acts hc hcs hx hu).symm.trans h)
  obtain ⟨hctrl, -, -, -, -, -, -, -, hprogram⟩ := deselects_of_acts hu
  exact ⟨hprogram, hctrl, 1, deselected_butWriting hu⟩

theorem wireFrame_exchange {w : List Byte} {n : Nat} {async : Bool}
    (h : execExchange w n async s = .next t) : WireFrame (.exchange w n async) s t := by
  rw [execExchange, requireConfig_eq_next] at h
  obtain ⟨-, h⟩ := h
  split at h
  swap
  · cases h
  obtain ⟨-, -, rs, k, -, rfl⟩ := exchange_eq_next h
  exact ⟨rfl, rfl, _, (shifted_moved s _ rs k).2⟩

theorem wireFrame_selftest (h : execSelftest s = .next t) : WireFrame .selftest s t := by
  rw [execSelftest, requireConfig_eq_next] at h
  obtain ⟨-, h⟩ := h
  split at h
  · cases h
  · cases h
    exact ⟨rfl, rfl, 0, SameDevice.refl s⟩

end Rows

theorem exec_wireFrame {i : Instr} {s t : State} (hi : isHostOp i = false)
    (h : exec i s = .next t) : WireFrame i s t := by
  cases i with
  | cmdWren => exact wireFrame_cmdWren h
  | cmdStatus => exact wireFrame_cmdStatus h
  | cmdIdentify => exact wireFrame_cmdIdentify h
  | cmdRead a n => exact wireFrame_cmdRead h
  | cmdProgram a data => exact wireFrame_cmdProgram h
  | cmdErase a => exact wireFrame_cmdErase h
  | csAssert => exact wireFrame_csAssert h
  | csDeassert => exact wireFrame_csDeassert h
  | exchange w n async => exact wireFrame_exchange h
  | busyCheck => exact wireFrame_busyCheck h
  | wrenHandshake => exact wireFrame_wrenHandshake h
  | selftest => exact wireFrame_selftest h
  | init | read | write | erase | isBusy | getGeometry | reserved6 | reserved7 | poll => cases hi

/-- Settles O33: the registers and the buffers by what every instruction leaves of them, the rest by
the closed form of each row. -/
theorem wireLevelFrame : Obligations.WireLevelFrame := by
  intro i s t hi h
  have heffect := exec_effect h
  have hcarried := exec_carried h
  have hframe := exec_wireFrame hi h
  refine ⟨heffect.cfg, heffect.regs.x_kept hi, sameBytes_of_eq hcarried.src, hframe.program,
    hframe.deviceMovedButWriting, hframe.sameCtrlButOffset, fun hread k => hcarried.dst k ?_,
    hframe.off, hframe.deviceMoved⟩
  rw [dstBound_eq_zero hi hread]
  exact Nat.zero_le k

/-! ### Where a host operation ends (10 R23, R24, 41 R87) -/

/-- The bus is as it was: a transaction leaves it so, whatever it sent (41 R87). -/
structure SameBus (s t : State) : Prop where
  cs : t.ctrl.cs = s.ctrl.cs
  xferActive : t.ctrl.xferActive = s.ctrl.xferActive

/-- The block is back in IDLE, with the bus as it was. -/
structure BackInIdle (s t : State) : Prop extends SameBus s t where
  phase : t.ctrl.phase = .idle

section Ends

variable {s t u : State}

theorem SameBus.refl (s : State) : SameBus s s := ⟨rfl, rfl⟩

theorem SameBus.trans (h : SameBus s t) (k : SameBus t u) : SameBus s u :=
  ⟨k.cs.trans h.cs, k.xferActive.trans h.xferActive⟩

theorem SameBus.finish (h : SameBus s t) (r : ResultCode) : BackInIdle s (t.finish r) :=
  ⟨⟨h.cs, h.xferActive⟩, rfl⟩

theorem SameBus.accept (h : SameBus s t) (v : ArrayUpdate) : SameBus s (accept t v) :=
  ⟨h.cs, h.xferActive⟩

theorem SameBus.advanceCursor (h : SameBus s t) : SameBus s (advanceCursor t) :=
  ⟨h.cs, h.xferActive⟩

theorem sameBus_statusDone (s : State) : SameBus s (statusDone s) := ⟨rfl, rfl⟩

theorem sameBus_checked (s : State) : SameBus s (handshakeDone (statusDone s)) :=
  ⟨by simp, by simp⟩

theorem sameBus_readDone (s : State) (a : Addr24) (rs : List Byte) (k : Nat) (cap : List Byte) :
    SameBus s (readDone s a rs k cap) := ⟨rfl, rfl⟩

theorem sameBus_programSent (s : State) (a : Addr24) (data : List Byte) :
    SameBus s (programSent s a data) := ⟨rfl, rfl⟩

theorem sameBus_eraseSent (s : State) (a : Addr24) : SameBus s (eraseSent s a) := ⟨rfl, rfl⟩

theorem BackInIdle.between (h : BackInIdle s t) (hcfg : t.cfg = s.cfg) (hs : s.BusFree) :
    t.Between := by
  obtain ⟨hc, hcs, hx⟩ := hs
  exact ⟨⟨hcfg ▸ hc, h.cs.trans hcs, h.xferActive.trans hx⟩, h.phase⟩

/-- INIT configures chip-select deasserted first, and ends as it goes on from there (43 R105). -/
theorem execInit_between (h : execInit s = .next t) : t.Between := by
  have hx := execInit_xfer h
  obtain ⟨hc, u, k, hid, ht⟩ := execInit_identified h
  have hcs : u.ctrl.cs = .deasserted := congrArg Ctrl.cs hid.ctrl
  have hux : u.ctrl.xferActive = false := (congrArg Ctrl.xferActive hid.ctrl).trans hx
  have hcfg : u.cfg = s.cfg := hid.cfg
  obtain rfl | rfl := ht <;> exact ⟨⟨hcfg ▸ hc, hcs, hux⟩, rfl⟩

theorem execRead_backInIdle (h : execRead s = .next t) : BackInIdle s t := by
  have hs := SameBus.refl s
  have hstatus := sameBus_statusDone s
  obtain ⟨-, -, -, ⟨-, -, rfl | rfl⟩ | ⟨-, -, rfl⟩ | ⟨-, -, -, -, -, -, h⟩⟩ := execRead_next h
  · exact hs.finish _
  · exact hs.finish _
  · exact hs.finish _
  obtain ⟨-, rfl⟩ | ⟨-, rs, k, cap, -, rfl⟩ := h
  · exact hstatus.finish _
  · exact (hstatus.trans (sameBus_readDone _ _ rs k cap)).finish _

theorem execWrite_backInIdle (h : execWrite s = .next t) : BackInIdle s t := by
  have hs := SameBus.refl s
  have hchecked := sameBus_checked s
  obtain ⟨-, -, -, ⟨-, -, rfl | rfl⟩ | ⟨-, -, rfl⟩ | ⟨-, -, -, -, -, -, h⟩⟩ := execWrite_next h
  · exact hs.finish _
  · exact hs.finish _
  · exact hs.finish _
  have hsent := hchecked.trans (sameBus_programSent _ s.wireAddr (s.src.readBytes 0 s.lenNat))
  obtain ⟨-, rfl⟩ | ⟨-, -, rfl⟩ | ⟨-, -, rfl | rfl⟩ := h
  · exact (sameBus_statusDone s).finish _
  · exact hchecked.finish _
  · exact hsent.finish _
  · exact (hsent.accept _).finish _

theorem execErase_backInIdle (h : execErase s = .next t) : BackInIdle s t := by
  have hs := SameBus.refl s
  have hchecked := sameBus_checked s
  obtain ⟨-, -, -, ⟨-, -, rfl | rfl⟩ | ⟨-, -, rfl⟩ | ⟨-, -, -, -, -, -, h⟩⟩ := execErase_next h
  · exact hs.finish _
  · exact hs.finish _
  · exact hs.finish _
  have hsent := hchecked.trans (sameBus_eraseSent _ s.wireAddr)
  obtain ⟨-, rfl⟩ | ⟨-, -, rfl⟩ | ⟨-, -, rfl | rfl⟩ := h
  · exact (sameBus_statusDone s).finish _
  · exact hchecked.finish _
  · exact hsent.advanceCursor.finish _
  · exact (hsent.accept _).advanceCursor.finish _

end Ends

theorem exec_backInIdle {i : Instr} {s t : State} (hi : isHostOp i = true) (hinit : i ≠ .init)
    (h : exec i s = .next t) : BackInIdle s t := by
  cases i with
  | init => exact absurd rfl hinit
  | read => exact execRead_backInIdle h
  | write => exact execWrite_backInIdle h
  | erase => exact execErase_backInIdle h
  | isBusy =>
    obtain ⟨-, -, -, -, -, rfl⟩ := queryBusy_next h
    exact ⟨⟨rfl, rfl⟩, rfl⟩
  | poll =>
    obtain ⟨-, -, -, -, -, rfl⟩ := execPoll_next h
    exact ⟨⟨rfl, rfl⟩, rfl⟩
  | getGeometry =>
    obtain ⟨-, -, rfl⟩ := execGetGeometry_next h
    exact ⟨⟨rfl, rfl⟩, rfl⟩
  | reserved6 | reserved7 => cases h
  | cmdWren | cmdStatus | cmdIdentify | cmdRead | cmdProgram | cmdErase | csAssert | csDeassert
  | exchange | busyCheck | wrenHandshake | selftest => cases hi

/-- Settles O16: INIT deasserts chip-select itself, every other operation leaves the bus as it was;
the frames are those of O17. -/
theorem hostOperationsEndBetweenTransactions :
    Obligations.HostOperationsEndBetweenTransactions := by
  intro i s t hi hstart h
  obtain ⟨frames, hsent, -⟩ := hostOperationsSendOnlyWellFormedFrames i s t hi hstart h
  refine ⟨?_, frames, hsent⟩
  by_cases hinit : i = .init
  · subst hinit
    exact execInit_between h
  · have hs : s.Between := hstart.resolve_right fun hstart => hinit hstart.1
    exact (exec_backInIdle hi hinit h).between (exec_effect h).cfg hs.1

end Sys2Proof.Machine

/-! PROOFS. The wire commands and the two checks, each run as a row of its own on a free bus; and the
operations that a check ends: Busy, and WriteEnableFailed. -/

namespace Sys2Proof.Machine

/-! ### A wire command run alone (log entry 18) -/

section Alone

variable {s u : State} {cmd : State → Res State}

/-- A command that answers a next state is followed by the return to IDLE alone. -/
theorem alone_of_next (hc : s.cfg.wf = true) (h : cmd s = .next u) :
    alone cmd s = .next (u.setPhase .idle) := by
  rw [alone, requireConfig_pass _ hc, h, andThen_next]

theorem alone_of_fault {f : Fault} (hc : s.cfg.wf = true) (h : cmd s = .fault f) :
    alone cmd s = .fault f := by
  rw [alone, requireConfig_pass _ hc, h, andThen_fault]

/-- The controller after it: IDLE, and no other field changed. -/
theorem setPhase_idle_ctrl {p : Phase} (h : u.ctrl = { s.ctrl with phase := p }) :
    (u.setPhase .idle).ctrl = { s.ctrl with phase := .idle } := by
  rw [State.setPhase, h]

theorem sends_setPhase {p : Phase} {frames : List (List Byte)} (h : sends s u frames) :
    sends s (u.setPhase p) frames := h

theorem SameHost.setPhase {p : Phase} (h : SameHost s u) : SameHost s (u.setPhase p) := h

end Alone

theorem SameHost.refl (s : State) : SameHost s s := ⟨rfl, rfl, fun _ => rfl, fun _ => rfl, rfl⟩

theorem SameHost.trans {s t u : State} (h : SameHost s t) (k : SameHost t u) : SameHost s u := by
  obtain ⟨hcfg, hx, hsrc, hdst, hprogram⟩ := h
  obtain ⟨kcfg, kx, ksrc, kdst, kprogram⟩ := k
  exact ⟨kcfg.trans hcfg, kx.trans hx, fun a => (ksrc a).trans (hsrc a),
    fun a => (kdst a).trans (hdst a), kprogram.trans hprogram⟩

/-! ### What the write-enable and the handshake leave -/

section WriteEnable

variable (s : State)

theorem sameHost_wrenDone : SameHost s (wrenDone s) :=
  ⟨wrenDone_cfg s, wrenDone_x s, sameBytes_of_eq (wrenDone_src s), sameBytes_of_eq (wrenDone_dst s),
    wrenDone_program s⟩

theorem sameHost_handshakeDone : SameHost s (handshakeDone s) :=
  ⟨handshakeDone_cfg s, handshakeDone_x s, sameBytes_of_eq (handshakeDone_src s),
    sameBytes_of_eq (handshakeDone_dst s), handshakeDone_program s⟩

/-- A write-enable leaves what is pending as the engine's three moments leave it. -/
theorem wrenDone_pending : (wrenDone s).dev.pending = (s.dev.ticks s.cfg 3).pending := by
  rw [wrenDone_dev]
  rfl

theorem wrenDone_butWriting : SameDeviceButWriting (engineTicks 3 s) (wrenDone s) := by
  obtain ⟨sr, k, he, -, hsr, -⟩ := wrenDone_eq s
  rw [he]
  exact ⟨hsr, rfl, rfl, rfl, fun _ => rfl, rfl⟩

/-- What a write-enable does to `WEL`, by the kind of latch (20 R57, log entry 7). -/
structure LatchWritten (s : State) (sr : Byte) : Prop where
  kept : wel (s.dev.ticks s.cfg 3).sr = true → wel sr = true
  sets : s.dev.profile.latch = .sets → wip (s.dev.ticks s.cfg 3).sr = false → wel sr = true
  stuck : s.dev.profile.latch = .stuck → wel sr = wel (s.dev.ticks s.cfg 3).sr
  unstated : s.dev.profile.latch = .unstated →
    wel sr = (wel (s.dev.ticks s.cfg 3).sr || Config.freeBit (s.draws + 1))

theorem latchWritten_wrenDone : LatchWritten s (wrenDone s).dev.sr := by
  obtain ⟨sr, k, he, -, -, hkept, hstuck, hsets, hunstated⟩ := wrenDone_eq s
  rw [he]
  exact ⟨hkept, hsets, fun h => congrArg wel (hstuck h), hunstated⟩

end WriteEnable

/-- With nothing pending when the write-enable is taken, the handshake shows the status byte that it
left, and the engine changes it no more. -/
theorem handshakeDone_shows {s : State} (hn : (s.dev.ticks s.cfg 3).pending = none) :
    (handshakeDone s).capturedStatus = (wrenDone s).dev.sr ∧
      (handshakeDone s).dev.sr = (wrenDone s).dev.sr := by
  have hsettled (n : Nat) : ((wrenDone s).dev.ticks (wrenDone s).cfg n).sr = (wrenDone s).dev.sr :=
    congrArg Dev.sr (Dev.ticks_of_none _ ((wrenDone_pending s).trans hn) n)
  exact ⟨hsettled 3, hsettled 4⟩

/-! ### What an accepted update leaves -/

/-- A device with `WEL = 1` that the engine alone has moved accepts an update: it is pending, `WIP` is
set, and nothing else changes (20 R59, R60). -/
theorem accept_takes {s t : State} {n : Nat} {r : List Byte} {g : Bool}
    (hdev : t.dev = (s.dev.ticks s.cfg n).onBus r g) (hwel : wel (s.dev.ticks s.cfg n).sr = true)
    (v : ArrayUpdate) :
    ∃ p, (accept t v).dev.pending = some p ∧ p.update = v ∧ wip (accept t v).dev.sr = true ∧
      wel (accept t v).dev.sr = true ∧ SameDeviceButWriting (engineTicks n s) (accept t v) := by
  have hlatch : wel t.dev.sr = true := by rw [hdev]; exact hwel
  exact ⟨_, rfl, rfl, wip_withWip _ _, (wel_withWip _ _).trans hlatch,
    (sameDevice_of_onBus hdev).butWriting.trans (accept_butWriting t v)⟩

theorem not_acceptsUpdates {d : Dev} (h : wel d.sr = false ∨ wip d.sr = true) :
    ¬ acceptsUpdates d = true := by
  rw [acceptsUpdates_iff]
  rintro ⟨hwel, hwip⟩
  rcases h with h | h
  · simp [h] at hwel
  · simp [h] at hwip

/-! ### The commands that only read -/

/-- Settles O26: both rows are one status transaction, `statusDone`. -/
theorem statusCommandReturnsStatus : Obligations.StatusCommandReturnsStatus := by
  intro s ⟨hc, hcs, hx⟩
  have hrow := alone_of_next hc (cmdStatus_done hcs hx)
  have hdev : SameDevice (engineTicks 4 s) ((statusDone s).setPhase .idle) :=
    sameDevice_of_onBus rfl
  have hhost : SameHost s ((statusDone s).setPhase .idle) := SameHost.refl s
  exact ⟨⟨_, hrow, rfl, rfl, sends_statusDone s, hdev, hhost, rfl⟩,
    ⟨_, hrow, rfl, sends_statusDone s, hdev, hhost, rfl⟩⟩

/-- Four captured bytes, the last three of them known. -/
theorem drop_one_of_getD {rs : List Byte} {b1 b2 b3 : Byte} (hl : rs.length = 4)
    (h1 : rs.getD 1 0 = b1) (h2 : rs.getD 2 0 = b2) (h3 : rs.getD 3 0 = b3) :
    rs.drop 1 = [b1, b2, b3] := by
  obtain ⟨r0, r1, r2, r3, rfl⟩ := List.length_eq_four.1 hl
  subst h1 h2 h3
  rfl

/-- Settles O27: `cmdIdentify_eq` gives the transaction and the bytes it captures. -/
theorem identifyCommandReturnsIdentity : Obligations.IdentifyCommandReturnsIdentity := by
  intro s ⟨hc, hcs, hx⟩
  obtain ⟨rs, k, hl, hid, he⟩ := cmdIdentify_eq hc hcs hx
  refine ⟨_, alone_of_next hc he, hl, fun hw hanswers => ?_, sends_one (rx := rs) rfl hl,
    sameDevice_of_onBus (n := 6) rfl, SameHost.refl s, rfl⟩
  obtain ⟨h1, h2, h3⟩ := hid hw hanswers
  exact drop_one_of_getD hl h1 h2 h3

/-- Settles O30: `cmdRead_eq` by the range and by the device at the opcode. With nothing pending then,
the array read is the one of that moment. -/
theorem readCommandReturnsArray : Obligations.ReadCommandReturnsArray := by
  intro s a n ⟨hc, hcs, hx⟩ hn
  obtain ⟨rs, k, cap, rfl, hbytes, he⟩ := cmdRead_eq a n hc hcs hx
  refine ⟨fun hok => ?_, fun hpast hw => ?_⟩
  · have hcond : wip (s.dev.ticks s.cfg 2).sr = true ∨ rs.length = 0 ∨
        a.toNat + rs.length ≤ s.cfg.geo.totalSize := hok.elim (.inr ∘ .inr) .inl
    rw [if_pos hcond] at he
    refine ⟨_, alone_of_next hc he, sends_readDone s a rs k cap, fun hs hw i hi => ?_,
      (drifted_readDone s a rs k cap).dst, sameDevice_of_onBus (readDone_dev s a rs k cap), rfl, rfl,
      fun _ => rfl, rfl, rfl⟩
    have hnone : (s.dev.ticks s.cfg 2).pending = none := Dev.ticks_idle hs hw
    have hsettled : s.dev.ticks s.cfg 5 = s.dev.ticks s.cfg 2 :=
      Dev.ticks_settled hnone (by omega)
    rw [hsettled] at hbytes
    change (s.dst.writeBytes 0 rs).read i = (s.dev.ticks s.cfg 2).array.read (a.toNat + i)
    rw [Memory.read_writeBytes, if_pos (by omega), Nat.sub_zero, hbytes hw hnone,
      Memory.getD_readBytes _ _ _ _ hi]
  · have hcond : ¬ (wip (s.dev.ticks s.cfg 2).sr = true ∨ rs.length = 0 ∨
        a.toNat + rs.length ≤ s.cfg.geo.totalSize) := by
      rintro (hbusy | hzero | hin)
      · exact ne_true_of_eq_false hw hbusy
      · omega
      · omega
    rw [if_neg hcond] at he
    exact alone_of_fault hc he

/-! ### The write-enable and its handshake -/

/-- Settles O28: what `wrenDone` does to the latch, and what it leaves. -/
theorem writeEnableSetsTheLatch : Obligations.WriteEnableSetsTheLatch := by
  intro s ⟨hc, hcs, hx⟩
  have hlatch := latchWritten_wrenDone s
  refine ⟨_, alone_of_next hc (cmdWren_done hc hcs hx), sends_setPhase (sends_wrenDone s),
    hlatch.sets, hlatch.stuck, hlatch.kept, wrenDone_wip s, wrenDone_pending s,
    wrenDone_butWriting s, (sameHost_wrenDone s).setPhase, setPhase_idle_ctrl (wrenDone_ctrl s)⟩

/-- Settles O29: the status transaction after `wrenDone`; with nothing pending the engine leaves the
latch as the write-enable did. -/
theorem handshakeReportsTheLatch : Obligations.HandshakeReportsTheLatch := by
  intro s ⟨hc, hcs, hx⟩
  refine ⟨_, _, alone_of_next hc (cmdWren_done hc hcs hx),
    alone_of_next hc (wrenHandshake_eq hc hcs hx), sends_setPhase (sends_handshakeDone s), rfl,
    sameDevice_of_onBus (n := 4) rfl, (sameHost_handshakeDone s).setPhase,
    setPhase_idle_ctrl (handshakeDone_ctrl s), fun hs hw => ?_⟩
  obtain ⟨hshown, hleft⟩ := handshakeDone_shows (Dev.ticks_idle hs hw)
  have hlatch := latchWritten_wrenDone s
  have hwel : wel (handshakeDone s).dev.sr = wel (wrenDone s).dev.sr := congrArg wel hleft
  exact ⟨(congrArg wel hshown).trans hwel.symm, fun hl => hwel.trans (hlatch.sets hl hw),
    fun hl => hwel.trans (hlatch.stuck hl)⟩

/-! ### The program and the erase command -/

/-- Settles O31: `cmdProgram_eq` by whether the device takes updates when chip-select rises. -/
theorem programCommandIsAccepted : Obligations.ProgramCommandIsAccepted := by
  intro s a data ⟨hc, hcs, hx⟩ hwf
  simp only [Instr.wellFormed, Bool.and_eq_true, decide_eq_true_eq] at hwf
  obtain ⟨⟨⟨h1, -⟩, hpage⟩, hin⟩ := hwf
  have hcmd := cmdProgram_eq a data hc hcs hx
  have hdev := programSent_dev s a data
  refine ⟨fun hwel hwip => ?_, fun hno => ?_⟩
  · have hne : data ≠ [] := List.ne_nil_of_length_pos h1
    have harray : programInArray s.cfg.geo a.toNat data.length = true :=
      (if_pos hpage).trans (decide_eq_true hin)
    have htaken := hcmd.trans (if_pos (acceptsUpdates_iff.2 ⟨hwel, hwip⟩))
    rw [if_neg hne, if_pos harray] at htaken
    obtain ⟨p, hp, hupdate, hbusy, hlatch, hsame⟩ := accept_takes hdev hwel (.program a data)
    exact ⟨_, p, alone_of_next hc htaken, sends_programSent s a data, hp, hupdate, hbusy, hlatch,
      hsame, SameHost.refl s, rfl⟩
  · have hignored := hcmd.trans (if_neg (not_acceptsUpdates hno))
    exact ⟨_, alone_of_next hc hignored, sends_programSent s a data,
      sameDevice_of_onBus hdev, SameHost.refl s, rfl⟩

/-- Settles O32: `cmdErase_eq` by whether the device takes updates when chip-select rises. -/
theorem eraseCommandIsAccepted : Obligations.EraseCommandIsAccepted := by
  intro s a ⟨hc, hcs, hx⟩ hin
  have hcmd := cmdErase_eq a hc hcs hx
  have hdev := eraseSent_dev s a
  refine ⟨fun hwel hwip => ?_, fun hno => ?_⟩
  · have htaken := hcmd.trans (if_pos (acceptsUpdates_iff.2 ⟨hwel, hwip⟩))
    rw [if_pos hin] at htaken
    obtain ⟨p, hp, hupdate, hbusy, hlatch, hsame⟩ := accept_takes hdev hwel (.erase a)
    exact ⟨_, p, alone_of_next hc htaken, sends_eraseSent s a, hp, hupdate, hbusy, hlatch, hsame,
      SameHost.refl s, rfl⟩
  · have hignored := hcmd.trans (if_neg (not_acceptsUpdates hno))
    exact ⟨_, alone_of_next hc hignored, sends_eraseSent s a, sameDevice_of_onBus hdev,
      SameHost.refl s, rfl⟩

/-! ### The operations that a check ends -/

/-- The end of an operation that a check rejects: the transactions of the check are on the wire, the
engine alone has moved the device, and the host's side keeps everything but `x[result]` (60 R123). -/
theorem finish_rejected {s u : State} {p : Phase} {frames : List (List Byte)} {n : Nat}
    {r : List Byte} {g : Bool} (hp : s.ctrl.phase = .idle) (hsent : sends s u frames)
    (hdev : u.dev = (s.dev.ticks s.cfg n).onBus r g) (hhost : SameHost s u)
    (hctrl : u.ctrl = { s.ctrl with phase := p }) (code : ResultCode) :
    (u.finish code).x = { s.x with result := resultCode code } ∧
      sends s (u.finish code) frames ∧ SameDevice (engineTicks n s) (u.finish code) ∧
      SameBytes s.src (u.finish code).src ∧ SameBytes s.dst (u.finish code).dst ∧
      (u.finish code).cfg = s.cfg ∧ (u.finish code).program = s.program ∧
      (u.finish code).ctrl = s.ctrl := by
  obtain ⟨hcfg, hx, hsrc, hdst, hprogram⟩ := hhost
  refine ⟨?_, hsent, sameDevice_of_onBus hdev, hsrc, hdst, hcfg, hprogram, ?_⟩
  · rw [State.finish_x, hx]
  · rw [State.finish_ctrl, hctrl, ← hp]

/-- Settles O48: the three operations that passed validation make the same busy check first. -/
theorem busyDeviceRejectsOperations : Obligations.BusyDeviceRejectsOperations := by
  intro s i ⟨⟨⟨hc, hcs, hx⟩, hp⟩, hi⟩ hw hvalid
  have hexec : exec i s = .next ((statusDone s).finish .busy) := by
    rcases hvalid with ⟨rfl, h1, ht, h24⟩ | ⟨rfl, h1, hpage, ht, h24⟩ | ⟨rfl, h1, hal, ht, h24⟩
    · exact (execRead_valid hc hp hi hcs hx h1 ht h24).trans (if_pos hw)
    · exact (execWrite_valid hc hp hi hcs hx h1 hpage ht h24).trans (if_pos hw)
    · exact (execErase_valid hc hp hi hcs hx h1 hal ht h24).trans (if_pos hw)
  exact ⟨_, hexec, finish_rejected hp (sends_statusDone s) (statusDone_dev s) (SameHost.refl s)
    (statusDone_ctrl s) .busy⟩

/-- A status byte is its `WIP`, its `WEL` and its other bits. -/
theorem status_ext {sr sr' : Byte} (hwip : wip sr = wip sr') (hwel : wel sr = wel sr')
    (hrest : ∀ k, 2 ≤ k → sr.getLsbD k = sr'.getLsbD k) : sr = sr' := by
  refine BitVec.eq_of_getLsbD_eq fun k _ => ?_
  match k with
  | 0 => exact hwip
  | 1 => exact hwel
  | k + 2 => exact hrest (k + 2) (by omega)

/-- A write-enable does not change the status byte of a device whose latch is locked, or left to a
free value that does not set it (20 R57, log entry 7). -/
theorem wrenDone_sr_kept {s : State} (hl : s.dev.profile.latch = .stuck ∨
      s.dev.profile.latch = .unstated ∧ Config.freeBit (s.draws + 1) = false) :
    (wrenDone s).dev.sr = (s.dev.ticks s.cfg 3).sr := by
  have hlatch := latchWritten_wrenDone s
  obtain ⟨hrest, -⟩ := wrenDone_butWriting s
  refine status_ext (wrenDone_wip s) ?_ hrest
  rcases hl with hstuck | ⟨hunstated, hbit⟩
  · exact hlatch.stuck hstuck
  · rw [hlatch.unstated hunstated, hbit, Bool.or_false]

/-- The two checks of WRITE and ERASE leave such a device as the busy check found it, when nothing is
pending in it. -/
theorem checked_kept {s : State} (hn : (s.dev.ticks s.cfg 3).pending = none)
    (hl : s.dev.profile.latch = .stuck ∨
      s.dev.profile.latch = .unstated ∧ Config.freeBit (s.draws + 2) = false) :
    (wrenDone (statusDone s)).dev.sr = (s.dev.ticks s.cfg 3).sr ∧
      (handshakeDone (statusDone s)).dev = (s.dev.ticks s.cfg 3).onBus [] false := by
  have hfound := statusDone_settled hn
  have hnone : (statusDone s).dev.pending = none := hfound ▸ hn
  have hsr : (wrenDone (statusDone s)).dev.sr = (s.dev.ticks s.cfg 3).sr := by
    rw [wrenDone_sr_kept (by simpa using hl), Dev.ticks_of_none _ hnone, hfound, Dev.onBus_sr]
  refine ⟨hsr, ?_⟩
  rw [(handshakeDone_settled hnone).1, hsr, hfound]
  rfl

/-- Settles O49: a device found idle has nothing pending, so the handshake shows what the write-enable
left of the latch, which is clear. -/
theorem latchThatDoesNotSetFailsTheOperation :
    Obligations.LatchThatDoesNotSetFailsTheOperation := by
  intro s i ⟨⟨⟨hc, hcs, hx⟩, hp⟩, hi⟩ hs hw hwel hl hvalid
  have hnone : (s.dev.ticks s.cfg 3).pending = none := Dev.ticks_idle hs hw
  obtain ⟨hsr, hdev⟩ := checked_kept hnone hl
  have hclear : ¬ wel (wrenDone (statusDone s)).dev.sr = true :=
    hsr ▸ ne_true_of_eq_false hwel
  have hexec : exec i s = .next ((handshakeDone (statusDone s)).finish .writeEnableFailed) := by
    rcases hvalid with ⟨rfl, h1, hpage, ht, h24⟩ | ⟨rfl, h1, hal, ht, h24⟩
    · exact (execWrite_idle hc hp hi hcs hx h1 hpage ht h24 hw hnone).trans (if_neg hclear)
    · exact (execErase_idle hc hp hi hcs hx h1 hal ht h24 hw hnone).trans (if_neg hclear)
  have hhost : SameHost s (statusDone s) := SameHost.refl s
  exact ⟨_, hexec, finish_rejected hp (sends_checked s) hdev
    (hhost.trans (sameHost_handshakeDone _)) (handshakeDone_ctrl _) .writeEnableFailed⟩

end Sys2Proof.Machine

/-! PROOFS. INIT: the state it ends in, at any device and any level of chip-select; what a failed INIT
leaves of the other operations; and the frame of INIT, IS_BUSY and POLL. -/

namespace Sys2Proof.Machine

/-! ### The state that INIT ends in (43 R105, R106) -/

/-- The state after an INIT that started in `s` and made `k` attempts, by whether the last of them
found the expected chip. -/
structure InitDone (s t : State) (k : Nat) (found : Bool) : Prop where
  x : t.x =
    { s.x with result := resultCode (if found then .success else .identificationFailed) }
  ctrl : t.ctrl = { s.ctrl with
    initialised := found
    cs := .deasserted
    spiCfg := { mode := s.cfg.var.spiMode, freq := s.cfg.var.spiFreq, msbFirst := true }
    phase := .idle
    attempt := k }
  sent : sends s t (List.replicate k (identifyFrame s.cfg))
  dev : SameDevice (engineTicks (6 * k) s) t
  cfg : t.cfg = s.cfg
  src : t.src = s.src
  dst : t.dst = s.dst
  program : t.program = s.program

section InitDone

variable {s t u : State} {k : Nat} {found : Bool}

/-- INIT writes the block's flag, the result and the phase after its identification loop, and nothing
else. -/
theorem Identified.initDone (h : Identified (configureTransport s) u k) (found : Bool) :
    InitDone s (if found then (u.setInitialised true).finish .success
      else u.finish .identificationFailed) k found := by
  have hctrl : u.ctrl = { (configureTransport s).ctrl with phase := u.ctrl.phase, attempt := k } :=
    h.ctrl.trans (by rw [show (configureTransport s).ctrl.attempt = 0 from rfl, Nat.zero_add])
  have hsent : sends s u (List.replicate k (identifyFrame s.cfg)) := sends_congr h.sent rfl rfl
  have hdev : SameDevice (engineTicks (6 * k) s) u := sameDevice_of_onBus h.dev
  cases found with
  | true =>
    refine ⟨congrArg (fun x : Regs => { x with result := resultCode .success }) h.x, ?_, hsent,
      hdev, h.cfg, h.src, h.dst, h.program⟩
    exact congrArg (fun c : Ctrl => { c with initialised := true, phase := .idle }) hctrl
  | false =>
    refine ⟨congrArg (fun x : Regs => { x with result := resultCode .identificationFailed }) h.x,
      ?_, hsent, hdev, h.cfg, h.src, h.dst, h.program⟩
    exact congrArg (fun c : Ctrl => { c with phase := .idle }) hctrl

/-- INIT ends wherever it can start: at the first match, or unmatched after `ID_RETRY_MAX` attempts.
A device that is idle when the first opcode comes, and that answers, decides which (43 R105, R106). -/
theorem execInit_done (hs : s.InitCanStart) (hd : s.cfg.destructiveTest = false) :
    ∃ t k found, execInit s = .next t ∧ InitDone s t k found ∧ 1 ≤ k ∧ k ≤ s.cfg.idRetryMax ∧
      (found = false → k = s.cfg.idRetryMax) ∧
      (wip (engineTicks 2 s).dev.sr = false → s.dev.profile.identifies = true →
        (rightChip s → found = true ∧ k = 1) ∧ (¬ rightChip s → found = false)) := by
  obtain ⟨hc, hx, hp⟩ := hs
  have hmax : 1 ≤ s.cfg.idRetryMax := by
    obtain ⟨-, -, -, -, -, hretry⟩ := config_bounds hc
    exact hretry
  obtain ⟨u, found, k, hloop, hle, hall, hone, hid, hchip⟩ :=
    identifyLoop_ends s.cfg.idRetryMax (configureTransport s) hc rfl hx
  refine ⟨_, k, found, execInit_of hc hp hd hloop, hid.initDone found, ?_, hle, hall, ?_⟩
  · cases found with
    | true => exact hone rfl
    | false => exact hall rfl ▸ hmax
  · intro hw hi
    obtain ⟨hright, hwrong⟩ := hchip hw hi
    exact ⟨fun hr => hright hr hmax, hwrong⟩

/-- Every INIT that answers a next state has ended so. -/
theorem initDone_of_next (h : execInit s = .next t) : ∃ k found, InitDone s t k found := by
  obtain ⟨hc, hp, hd, -⟩ := execInit_next h
  obtain ⟨t', k, found, h', hdone, -⟩ := execInit_done ⟨hc, execInit_xfer h, hp⟩ hd
  obtain rfl : t = t' := by simpa [h] using h'
  exact ⟨k, found, hdone⟩

theorem InitDone.initialised (h : InitDone s t k found) : t.ctrl.initialised = found := by
  rw [h.ctrl]

theorem InitDone.result_of_found (h : InitDone s t k true) : t.x.result = 0 :=
  congrArg Regs.result h.x

end InitDone

/-- Settles O34: the expected chip is found at the first attempt. -/
theorem initFindsTheChip : Obligations.InitFindsTheChip := by
  intro s hs hd hw hi h0 h1 h2
  obtain ⟨t, k, found, hexec, h, -, -, -, hchip⟩ := execInit_done hs hd
  obtain ⟨hright, -⟩ := hchip hw hi
  obtain ⟨rfl, rfl⟩ := hright ⟨h0, h1, h2⟩
  exact ⟨t, hexec, h.x, h.ctrl, h.sent, h.dev, h.cfg, fun _ => by rw [h.src],
    fun _ => by rw [h.dst], h.program⟩

/-- Settles O35: another chip is never found, so every attempt is made. -/
theorem initGivesUpAfterTheBound : Obligations.InitGivesUpAfterTheBound := by
  intro s hs hd hw hi hother
  obtain ⟨t, k, found, hexec, h, -, -, hall, hchip⟩ := execInit_done hs hd
  obtain ⟨-, hwrong⟩ := hchip hw hi
  obtain rfl := hwrong hother
  obtain rfl := hall rfl
  exact ⟨t, hexec, h.x, h.ctrl, h.sent, h.dev, h.cfg, fun _ => by rw [h.src],
    fun _ => by rw [h.dst], h.program⟩

/-- Settles O36: by whether the loop ended at a match. -/
theorem initAlwaysEnds : Obligations.InitAlwaysEnds := by
  intro s hs hd
  obtain ⟨t, k, found, hexec, h, hone, hle, hall, -⟩ := execInit_done hs hd
  refine ⟨t, k, hexec, hone, hle, ?_, h.sent, execInit_between hexec, h.dev, ?_⟩
  · rw [h.initialised]
    exact h.ctrl
  · cases found with
    | true => exact .inl ⟨h.x, h.initialised⟩
    | false => exact .inr ⟨h.x, h.initialised, hall rfl⟩

/-! ### Which instruction makes the block initialised (43 R108, 70 R136) -/

/-- No instruction but INIT sets the flag: READ, WRITE, ERASE, IS_BUSY and POLL run only where it is set
already, and the others do not write it. -/
theorem exec_keeps_uninitialised {i : Instr} {s t : State} (hinit : i ≠ .init)
    (h : exec i s = .next t) (hn : s.ctrl.initialised = false) : t.ctrl.initialised = false := by
  cases hi : isHostOp i with
  | false =>
    have hctrl : SameCtrlButOffset s t := (exec_wireFrame hi h).sameCtrlButOffset
    rw [hctrl]
    exact hn
  | true =>
    have ofReady (hready : i = .read ∨ i = .write ∨ i = .erase ∨ i = .isBusy ∨ i = .poll) :
        t.ctrl.initialised = false := by
      obtain ⟨u, k, -, hctrl, he⟩ := exec_eq_requireReady hready s
      obtain ⟨-, -, hset, -⟩ := requireReady_eq_next.1 (he.symm.trans h)
      rw [hctrl, hn] at hset
      cases hset
    cases i with
    | init => exact absurd rfl hinit
    | read | write | erase | isBusy | poll => exact ofReady (by simp)
    | getGeometry =>
      obtain ⟨-, -, rfl⟩ := execGetGeometry_next h
      exact hn
    | reserved6 | reserved7 => cases h
    | cmdWren | cmdStatus | cmdIdentify | cmdRead | cmdProgram | cmdErase | csAssert | csDeassert
    | exchange | busyCheck | wrenHandshake | selftest => cases hi

/-- GET_GEOMETRY asks for no INIT (47 R119). -/
theorem execGetGeometry_of_idle {s : State} (hc : s.cfg.wf = true) (hp : s.ctrl.phase = .idle) :
    execGetGeometry s = .next (s.setGeo s.cfg.geo).toIdle := by
  rw [execGetGeometry, requireConfig_pass _ hc, requireIdle_pass _ hp]

/-- Settles O37: a result of 4 is a loop that found no chip; without the flag the operations are
refused, and INIT alone, where it succeeds, sets it. -/
theorem failedInitLeavesFlashUnusable : Obligations.FailedInitLeavesFlashUnusable := by
  refine ⟨fun s t h h4 => ?_, fun i s t h hn hset => ?_⟩
  · obtain ⟨k, found, hdone⟩ := initDone_of_next h
    obtain rfl : found = false := by
      cases found with
      | false => rfl
      | true => exact absurd (hdone.result_of_found.symm.trans h4) (by decide)
    obtain ⟨⟨hc, hcs, -⟩, hp⟩ := execInit_between h
    have hn : t.ctrl.initialised = false := hdone.initialised
    have refused {i : Instr}
        (hi : i = .read ∨ i = .write ∨ i = .erase ∨ i = .isBusy ∨ i = .poll) :
        exec i t = .refused .notInitialised := exec_refuses_notInitialised hc hp hn hi
    exact ⟨hn, hp, hcs, refused (by simp), refused (by simp), refused (by simp),
      refused (by simp), refused (by simp), _, execGetGeometry_of_idle hc hp, rfl⟩
  · obtain rfl : i = .init := by
      by_contra hinit
      exact absurd hset (ne_true_of_eq_false (exec_keeps_uninitialised hinit h hn))
    obtain ⟨k, found, hdone⟩ := initDone_of_next h
    obtain rfl : found = true := hdone.initialised.symm.trans hset
    exact ⟨rfl, hdone.result_of_found⟩

/-! ### The frame of INIT and of the queries -/

/-- An IS_BUSY is four moments of the engine for the device (20 R61). -/
theorem sameDevice_queried (s : State) : SameDevice (engineTicks 4 s) (queried s) :=
  ⟨rfl, rfl, rfl, rfl, fun _ => rfl, rfl, rfl⟩

/-- Settles O55: the three closed forms, `InitDone`, `queried` and `polled`, read field by field. -/
theorem queryAndInitFrame : Obligations.QueryAndInitFrame := by
  rintro i s t (rfl | rfl | rfl) h
  · obtain ⟨k, found, hdone⟩ := initDone_of_next h
    refine ⟨⟨_, hdone.dev⟩, fun _ => by rw [hdone.src], fun _ => by rw [hdone.dst], hdone.cfg,
      fun _ => ⟨?_, ?_, hdone.program⟩, nofun, nofun, by simp⟩
    · rw [hdone.x]
    · rw [hdone.ctrl]
  · obtain ⟨-, -, -, -, -, rfl⟩ := queryBusy_next h
    exact ⟨⟨4, sameDevice_queried s⟩, fun _ => rfl, fun _ => rfl, rfl, nofun,
      fun _ => ⟨rfl, rfl⟩, nofun, fun _ => rfl⟩
  · obtain ⟨-, -, -, -, -, rfl⟩ := execPoll_next h
    exact ⟨⟨4, sameDevice_polled s⟩, fun _ => rfl, fun _ => rfl, rfl, nofun, nofun,
      fun _ => rfl, fun _ => rfl⟩

/-! ### The destructive self-test (43 R107, log entry 29) -/

/-- Settles O38: both look at the build once their preconditions hold, INIT before any bus traffic. -/
theorem destructiveSelfTestRefused : Obligations.DestructiveSelfTestRefused := by
  refine fun s hc => ⟨fun hd hp => ?_, fun hd => ?_, fun hd => ?_⟩
  · change execInit s = _
    rw [execInit, requireConfig_pass _ hc, requireIdle_pass _ hp, if_pos hd]
  · change execSelftest s = _
    rw [execSelftest, requireConfig_pass _ hc, if_pos hd]
  · change execSelftest s = _
    rw [execSelftest, requireConfig_pass _ hc, hd, if_neg Bool.false_ne_true]

end Sys2Proof.Machine

/-! PROOFS. READ: what its two transactions leave of the device, the bytes that go to `dst`, and its
frame on every path. -/

namespace Sys2Proof.Machine

/-- The status read of a READ is four of the engine's moments, and the array read is as many as its
byte times and two more for the edges of chip-select (20 R61). -/
theorem readDone_statusDone_dev (s : State) (a : Addr24) (rs : List Byte) (k : Nat)
    (cap : List Byte) : (readDone (statusDone s) a rs k cap).dev =
      (s.dev.ticks s.cfg (4 + (rs.length + 6))).onBus [] false := by
  rw [readDone_dev, statusDone_cfg, statusDone_dev, Dev.ticks_onBus, Dev.onBus_onBus, Dev.ticks_add]

/-- The two transactions of a READ: the status read, then the array read (44 R109). -/
theorem sends_readDone_statusDone (s : State) (a : Addr24) (rs : List Byte) (k : Nat)
    (cap : List Byte) : sends s (readDone (statusDone s) a rs k cap)
      [statusFrame s.cfg, readFrame s.cfg a rs.length] :=
  sends_trans (sends_statusDone s) (sends_readDone (statusDone s) a rs k cap)

/-- A memory that took `n` bytes of another at its start reads as the other there, and as before from
index `n` on. -/
theorem Memory.read_writeBytes_readBytes (m array : Memory) (a n i : Nat) :
    (m.writeBytes 0 (array.readBytes a n)).read i =
      if i < n then array.read (a + i) else m.read i := by
  rw [Memory.read_writeBytes, Memory.length_readBytes]
  by_cases hi : i < n
  · rw [if_pos (by omega), if_pos hi, Nat.sub_zero, Memory.getD_readBytes _ _ _ _ hi]
  · rw [if_neg (by omega), if_neg hi]

/-- Settles O39: a device found idle has nothing pending, so the engine leaves it as it was at the
status byte, and the bytes sampled are those of its array. -/
theorem readReturnsArrayBytes : Obligations.ReadReturnsArrayBytes := by
  intro s ⟨⟨⟨hc, hcs, hx⟩, hp⟩, hi⟩ hs h1 ht h24 hw
  have hnone : (s.dev.ticks s.cfg 3).pending = none := Dev.ticks_idle hs hw
  obtain ⟨k, cap, hexec⟩ := execRead_idle hc hp hi hcs hx h1 ht h24 hw hnone
  have hlength := Memory.length_readBytes (s.dev.ticks s.cfg 3).array s.addrNat s.lenNat
  have hdst := Memory.read_writeBytes_readBytes s.dst (s.dev.ticks s.cfg 3).array s.addrNat s.lenNat
  generalize (s.dev.ticks s.cfg 3).array.readBytes s.addrNat s.lenNat = rs at hexec hlength hdst
  have hsent := sends_readDone_statusDone s s.wireAddr rs k cap
  have hdev := readDone_statusDone_dev s s.wireAddr rs k cap
  rw [hlength] at hsent
  rw [Dev.ticks_settled hnone (by omega)] at hdev
  refine ⟨_, hexec, rfl, fun i hi => (hdst i).trans (if_pos hi),
    fun i hi => (hdst i).trans (if_neg (Nat.not_lt.2 hi)), hsent, sameDevice_of_onBus hdev,
    fun _ => rfl, rfl, rfl, ?_⟩
  rw [State.finish_ctrl, ← hp, ← hlength]
  rfl

/-- The ends of a READ by the transactions it made: none, the status read, or both. -/
theorem execRead_ends {s t : State} (h : execRead s = .next t) :
    (∃ code, t = s.finish code) ∨ t = (statusDone s).finish .busy ∨
      ∃ rs k cap, t = (readDone (statusDone s) s.wireAddr rs k cap).finish .success := by
  obtain ⟨-, -, -, ⟨-, -, ht | ht⟩ | ⟨-, -, ht⟩ |
    ⟨-, -, -, -, -, -, ⟨-, ht⟩ | ⟨-, rs, k, cap, -, ht⟩⟩⟩ := execRead_next h
  exacts [.inl ⟨_, ht⟩, .inl ⟨_, ht⟩, .inl ⟨_, ht⟩, .inr (.inl ht), .inr (.inr ⟨rs, k, cap, ht⟩)]

/-- Settles O40: by the transactions made. Only the second writes `dst`, and the result after it is
Success. The name is the statement's title: `readFrame` is the frame on the wire. -/
theorem readFrameOnEveryPath : Obligations.ReadFrame := by
  intro s t h
  obtain ⟨hsrc, hdst, -⟩ := execRead_carried h
  have hsrc : SameBytes s.src t.src := sameBytes_of_eq hsrc
  obtain ⟨code, rfl⟩ | rfl | ⟨rs, k, cap, rfl⟩ := execRead_ends h
  · exact ⟨rfl, hdst, fun _ _ => rfl, hsrc, ⟨0, SameDevice.refl s⟩, rfl, rfl, rfl⟩
  · exact ⟨rfl, hdst, fun _ _ => rfl, hsrc, ⟨4, sameDevice_of_onBus (statusDone_dev s)⟩, rfl, rfl,
      rfl⟩
  · exact ⟨rfl, hdst, fun hr => absurd rfl hr, hsrc,
      ⟨_, sameDevice_of_onBus (readDone_statusDone_dev s s.wireAddr rs k cap)⟩, rfl, rfl, rfl⟩

end Sys2Proof.Machine

/-! PROOFS. WRITE: the request that it rejects, what its four transactions leave of the device, its frame
on every path, and the round trip through the array. -/

namespace Sys2Proof.Machine

/-! ### A request that leaves its page or the array (45 R113) -/

theorem execWrite_of_invalid {s : State} (hs : s.Ready) (h0 : s.lenNat ≠ 0)
    (hv : ¬ validWrite s.cfg.geo s.addrNat s.lenNat = true) :
    exec .write s = .next (s.finish .outOfRange) := by
  rw [exec, execWrite, hs.requireReady_eq, if_neg h0, if_pos (by simpa using hv), State.raise_eq]

/-- Settles O43: a request that leaves its page or the array is what `validWrite` rejects. -/
theorem writeAcrossAPageIsOutOfRange : Obligations.WriteAcrossAPageIsOutOfRange := by
  intro s hs h1 hbad
  have hv : ¬ validWrite s.cfg.geo s.addrNat s.lenNat = true := by
    rw [validWrite_iff]
    omega
  exact outOfRange_frame hs (execWrite_of_invalid hs (by omega) hv)

/-! ### Transactions in which the device accepts nothing -/

/-- From `s` to `t` the device has heard transactions in which it accepted no update: it is as `n` of
the engine's moments leave it, but for the latch and the bytes on the bus (20 R57, R61). -/
structure MovedButLatch (n : Nat) (s t : State) : Prop where
  cfg : t.cfg = s.cfg
  dev : ∃ sr r g, t.dev = ({ s.dev.ticks s.cfg n with sr := sr } : Dev).onBus r g ∧
    wip sr = wip (s.dev.ticks s.cfg n).sr ∧
    ∀ k, 2 ≤ k → sr.getLsbD k = (s.dev.ticks s.cfg n).sr.getLsbD k

section Moved

variable {s t u : State} {m n : Nat}

theorem movedButLatch_of_onBus {r : List Byte} {g : Bool} (hcfg : t.cfg = s.cfg)
    (hdev : t.dev = (s.dev.ticks s.cfg n).onBus r g) : MovedButLatch n s t :=
  ⟨hcfg, _, r, g, hdev, rfl, fun _ _ => rfl⟩

theorem movedButLatch_wrenDone (s : State) : MovedButLatch 3 s (wrenDone s) := by
  obtain ⟨sr, k, he, hwip, hrest, -⟩ := wrenDone_eq s
  rw [he]
  exact ⟨rfl, sr, [], false, rfl, hwip, hrest⟩

/-- The engine does not look at the latch, so its moments add up. -/
theorem MovedButLatch.trans (h : MovedButLatch m s t) (k : MovedButLatch n t u) :
    MovedButLatch (m + n) s u := by
  obtain ⟨hcfg, sr, r, g, hdev, hwip, hrest⟩ := h
  obtain ⟨kcfg, sr', r', g', kdev, kwip, krest⟩ := k
  obtain ⟨sr'', hticks, hwip', hrest'⟩ :=
    Dev.ticks_withSr s.cfg n (s.dev.ticks s.cfg m) sr hwip hrest
  rw [Dev.ticks_add] at hticks hwip' hrest'
  rw [hcfg, hdev, Dev.ticks_onBus, hticks] at kdev kwip krest
  exact ⟨kcfg.trans hcfg, sr', r', g', kdev, kwip.trans hwip',
    fun j hj => (krest j hj).trans (hrest' j hj)⟩

theorem MovedButLatch.butWriting (h : MovedButLatch n s t) :
    SameDeviceButWriting (engineTicks n s) t := by
  obtain ⟨-, sr, r, g, hdev, -, hrest⟩ := h
  unfold SameDeviceButWriting
  rw [hdev]
  exact ⟨hrest, rfl, rfl, rfl, fun _ => rfl, rfl⟩

theorem MovedButLatch.nothingAccepted (h : MovedButLatch n s t) : NothingAccepted s t := by
  obtain ⟨-, sr, r, g, hdev, hwip, -⟩ := h
  refine ⟨n, ?_⟩
  rw [hdev]
  exact ⟨rfl, hwip⟩

theorem DeviceMoved.nothingAccepted (h : DeviceMoved s t) : NothingAccepted s t := by
  obtain ⟨n, hsr, -, -, -, -, hpending, -⟩ := h
  exact ⟨n, hpending, congrArg wip hsr⟩

/-- The two checks of WRITE and ERASE are three transactions, of four, three and four of the engine's
moments (42 R103, R104, 20 R61). -/
theorem movedButLatch_checked (s : State) : MovedButLatch 11 s (handshakeDone (statusDone s)) :=
  have status (u : State) : MovedButLatch 4 u (statusDone u) :=
    movedButLatch_of_onBus rfl (statusDone_dev u)
  (status s).trans ((movedButLatch_wrenDone (statusDone s)).trans (status _))

/-- The three moments of the busy check are enough for a device that it finds idle. -/
theorem engineTicks_of_idle (hn : (s.dev.ticks s.cfg 3).pending = none) (hle : 3 ≤ n) :
    engineTicks n s = s.atCheck :=
  congrArg s.setDev (Dev.ticks_settled hn hle)

end Moved

/-- The write-enable of WRITE and ERASE sets the latch of a device that the busy check found idle, when
it is healthy, when its latch is set already, or when its free value sets it (20 R57, log entry 7). -/
theorem checked_enabled {s : State} (hn : (s.dev.ticks s.cfg 3).pending = none)
    (hw : wip (s.dev.ticks s.cfg 3).sr = false)
    (hl : s.dev.profile.latch = .sets ∨ wel (s.dev.ticks s.cfg 3).sr = true ∨
      s.dev.profile.latch = .unstated ∧ Config.freeBit (s.draws + 2) = true) :
    wel (wrenDone (statusDone s)).dev.sr = true := by
  have hfound := statusDone_settled hn
  have hsettled : ((statusDone s).dev.ticks (statusDone s).cfg 3).sr =
      (s.dev.ticks s.cfg 3).sr := by
    rw [Dev.ticks_of_none _ (hfound ▸ hn), hfound, Dev.onBus_sr]
  have hlatch := latchWritten_wrenDone (statusDone s)
  rcases hl with hsets | hwel | ⟨hunstated, hbit⟩
  · exact hlatch.sets (by simpa using hsets) (hsettled ▸ hw)
  · exact hlatch.kept (hsettled ▸ hwel)
  · rw [hlatch.unstated (by simpa using hunstated), statusDone_draws, hbit, Bool.or_true]

/-! ### The transactions of a WRITE (45 R111) -/

/-- The state after WRITE's four transactions, when the device has not yet acted on the last. -/
def writeSent (s : State) : State :=
  programSent (handshakeDone (statusDone s)) s.wireAddr (s.src.readBytes 0 s.lenNat)

/-- The state after a WRITE whose program the device accepted. -/
def writeAccepted (s : State) : State :=
  (accept (writeSent s) (.program s.wireAddr (s.src.readBytes 0 s.lenNat))).finish .success

section Endings

variable {s t : State}

/-- Accepting an update is the device's alone. -/
theorem SameHost.accept (h : SameHost s t) (v : ArrayUpdate) : SameHost s (accept t v) := h

theorem accept_ctrl (s : State) (v : ArrayUpdate) : (accept s v).ctrl = s.ctrl := rfl

/-- The end of an operation writes `x[result]` of the host's side, and nothing else of it
(60 R123). -/
theorem SameHost.finish (h : SameHost s t) (code : ResultCode) :
    (t.finish code).cfg = s.cfg ∧ (t.finish code).x = { s.x with result := resultCode code } ∧
      SameBytes s.src (t.finish code).src ∧ SameBytes s.dst (t.finish code).dst ∧
      (t.finish code).program = s.program := by
  obtain ⟨hcfg, hx, hsrc, hdst, hprogram⟩ := h
  exact ⟨hcfg, by rw [State.finish_x, hx], hsrc, hdst, hprogram⟩

theorem SameCtrlButOffset.accept (h : SameCtrlButOffset s t) (v : ArrayUpdate) :
    SameCtrlButOffset s (accept t v) := h

theorem SameCtrlButOffset.finish (h : SameCtrlButOffset s t) (code : ResultCode) :
    SameCtrlButOffset s (t.finish code) := by
  unfold SameCtrlButOffset at h ⊢
  rw [State.finish_ctrl, h]

theorem SameDeviceButWriting.finish (h : SameDeviceButWriting s t) (code : ResultCode) :
    SameDeviceButWriting s (t.finish code) := h

end Endings

section Sent

variable (s : State)

theorem sameHost_checked : SameHost s (handshakeDone (statusDone s)) :=
  SameHost.trans (t := statusDone s) (SameHost.refl s) (sameHost_handshakeDone (statusDone s))

theorem sameHost_programSent (a : Addr24) (data : List Byte) :
    SameHost s (programSent s a data) := SameHost.refl s

theorem sameHost_writeSent : SameHost s (writeSent s) :=
  (sameHost_checked s).trans (sameHost_programSent _ _ _)

theorem programSent_ctrl (a : Addr24) (data : List Byte) : (programSent s a data).ctrl =
    { s.ctrl with off := data.length, phase := .deselect } := rfl

theorem writeSent_ctrl :
    (writeSent s).ctrl = { s.ctrl with phase := .deselect, off := s.lenNat } := by
  rw [writeSent, programSent_ctrl, handshakeDone_ctrl, statusDone_ctrl, Memory.length_readBytes]

/-- The moments of the two checks and of the program: its header, its data, and the edges of
chip-select (20 R61). -/
theorem movedButLatch_writeSent : MovedButLatch (s.lenNat + 17) s (writeSent s) := by
  have hsent := programSent_dev (handshakeDone (statusDone s)) s.wireAddr
    (s.src.readBytes 0 s.lenNat)
  rw [Memory.length_readBytes] at hsent
  rw [show s.lenNat + 17 = 11 + (s.lenNat + 6) by omega]
  exact (movedButLatch_checked s).trans (movedButLatch_of_onBus rfl hsent)

theorem sends_writeSent : sends s (writeSent s) [statusFrame s.cfg, wrenFrame s.cfg,
    statusFrame s.cfg, programFrame s.cfg s.wireAddr (s.src.readBytes 0 s.lenNat)] := by
  have hsent := sends_programSent (handshakeDone (statusDone s)) s.wireAddr
    (s.src.readBytes 0 s.lenNat)
  rw [handshakeDone_cfg] at hsent
  exact sends_trans (sends_checked s) hsent

theorem accept_writeSent_butWriting (v : ArrayUpdate) :
    SameDeviceButWriting (engineTicks (s.lenNat + 17) s) (accept (writeSent s) v) :=
  (movedButLatch_writeSent s).butWriting.trans (accept_butWriting (writeSent s) v)

theorem sameCtrl_checked : SameCtrlButOffset s (handshakeDone (statusDone s)) := by
  rw [SameCtrlButOffset, handshakeDone_ctrl, statusDone_ctrl]

theorem sameCtrl_writeSent : SameCtrlButOffset s (writeSent s) := by
  rw [SameCtrlButOffset, writeSent_ctrl]

theorem writeAccepted_host : (writeAccepted s).cfg = s.cfg ∧
    (writeAccepted s).x = { s.x with result := 0 } ∧ SameBytes s.src (writeAccepted s).src ∧
    SameBytes s.dst (writeAccepted s).dst ∧ (writeAccepted s).program = s.program :=
  ((sameHost_writeSent s).accept _).finish .success

theorem writeAccepted_cfg : (writeAccepted s).cfg = s.cfg := by
  obtain ⟨hcfg, -⟩ := writeAccepted_host s
  exact hcfg

theorem writeAccepted_ctrl :
    (writeAccepted s).ctrl = { s.ctrl with phase := .idle, off := s.lenNat } := by
  rw [writeAccepted, State.finish_ctrl, accept_ctrl, writeSent_ctrl]

theorem writeAccepted_pending : ∃ p, (writeAccepted s).dev.pending = some p ∧
    p.update = .program s.wireAddr (s.src.readBytes 0 s.lenNat) := ⟨_, rfl, rfl⟩

theorem writeAccepted_wip : wip (writeAccepted s).dev.sr = true := wip_withWip _ _

theorem writeAccepted_butWriting :
    SameDeviceButWriting (engineTicks (s.lenNat + 17) s) (writeAccepted s) :=
  (accept_writeSent_butWriting s _).finish .success

theorem sends_writeAccepted : sends s (writeAccepted s) [statusFrame s.cfg, wrenFrame s.cfg,
    statusFrame s.cfg, programFrame s.cfg s.wireAddr (s.src.readBytes 0 s.lenNat)] :=
  sends_congr (sends_writeSent s) rfl rfl

end Sent

/-- Settles O41: a device found idle has nothing pending, so the handshake reports the latch that the
write-enable set, and the program is accepted. -/
theorem writeIsAccepted : Obligations.WriteIsAccepted := by
  intro s ⟨⟨⟨hc, hcs, hx⟩, hp⟩, hi⟩ hs h1 hpage ht h24 hw hl
  have hnone : (s.dev.ticks s.cfg 3).pending = none := Dev.ticks_idle hs hw
  have hexec : exec .write s = .next (writeAccepted s) :=
    (execWrite_idle hc hp hi hcs hx h1 hpage ht h24 hw hnone).trans
      (if_pos (checked_enabled hnone hw hl))
  obtain ⟨p, hpending, hupdate⟩ := writeAccepted_pending s
  obtain ⟨hcfg, hregs, hsrc, hdst, hprogram⟩ := writeAccepted_host s
  have hdev := writeAccepted_butWriting s
  rw [engineTicks_of_idle hnone (by omega)] at hdev
  have hctrl : (writeAccepted s).ctrl = { s.ctrl with off := s.lenNat } := by
    rw [writeAccepted_ctrl, ← hp]
  exact ⟨_, p, hexec, hregs, hpending, hupdate, writeAccepted_wip s,
    sends_writeAccepted s, hdev, hsrc, hdst, hcfg, hprogram, hctrl⟩

/-! ### The frame of WRITE -/

section Frame

variable {s t : State}

/-- The ends of a WRITE by the transactions it made: none, the busy check, both checks, or all four,
the last of them ignored or accepted. -/
theorem execWrite_ends (h : execWrite s = .next t) :
    (∃ code, t = s.finish code) ∨ t = (statusDone s).finish .busy ∨
      t = (handshakeDone (statusDone s)).finish .writeEnableFailed ∨
      t = (writeSent s).finish .success ∨ t = writeAccepted s := by
  obtain ⟨-, -, -, ⟨-, -, ht | ht⟩ | ⟨-, -, ht⟩ | ⟨-, -, -, -, -, -, h⟩⟩ := execWrite_next h
  · exact .inl ⟨_, ht⟩
  · exact .inl ⟨_, ht⟩
  · exact .inl ⟨_, ht⟩
  obtain ⟨-, ht⟩ | ⟨-, -, ht⟩ | ⟨-, -, ht | ht⟩ := h
  · exact .inr (.inl ht)
  · exact .inr (.inr (.inl ht))
  · exact .inr (.inr (.inr (.inl ht)))
  · exact .inr (.inr (.inr (.inr ht)))

/-- The frame at the end of an operation, from what holds before its result is written. -/
theorem finish_writeFrame {u : State} {code : ResultCode} (hhost : SameHost s u)
    (hctrl : SameCtrlButOffset s u) (hdev : DeviceMovedButWriting s u)
    (hnone : resultCode code ≠ 0 → NothingAccepted s u)
    (hmoved : resultCode code = 1 ∨ resultCode code = 2 → DeviceMoved s u) :
    (u.finish code).x = { s.x with result := (u.finish code).x.result } ∧
      SameBytes s.dst (u.finish code).dst ∧ SameBytes s.src (u.finish code).src ∧
      DeviceMovedButWriting s (u.finish code) ∧ SameCtrlButOffset s (u.finish code) ∧
      (u.finish code).cfg = s.cfg ∧ (u.finish code).program = s.program ∧
      ((u.finish code).x.result ≠ 0 → NothingAccepted s (u.finish code)) ∧
      ((u.finish code).x.result = 1 ∨ (u.finish code).x.result = 2 →
        DeviceMoved s (u.finish code)) := by
  obtain ⟨hcfg, hx, hsrc, hdst, hprogram⟩ := hhost.finish code
  exact ⟨hx, hdst, hsrc, hdev, hctrl.finish code, hcfg, hprogram, hnone, hmoved⟩

end Frame

/-- Settles O42: by the transactions made. No update is accepted before the fourth, and the result
after it is Success. -/
theorem writeFrame : Obligations.WriteFrame := by
  intro s t h
  have unaccepted {u : State} {code : ResultCode} (hhost : SameHost s u)
      (hctrl : SameCtrlButOffset s u) (hmoved : DeviceMoved s u) :=
    finish_writeFrame (code := code) hhost hctrl hmoved.butWriting
      (fun _ => hmoved.nothingAccepted) (fun _ => hmoved)
  obtain ⟨code, rfl⟩ | rfl | rfl | rfl | rfl := execWrite_ends h
  · exact unaccepted (SameHost.refl s) rfl ⟨0, SameDevice.refl s⟩
  · exact unaccepted (SameHost.refl s) rfl ⟨4, sameDevice_of_onBus (statusDone_dev s)⟩
  · have hchecked := movedButLatch_checked s
    exact finish_writeFrame (sameHost_checked s) (sameCtrl_checked s)
      ⟨_, hchecked.butWriting⟩ (fun _ => hchecked.nothingAccepted)
      (absurd · (by decide))
  · exact finish_writeFrame (sameHost_writeSent s) (sameCtrl_writeSent s)
      ⟨_, (movedButLatch_writeSent s).butWriting⟩ (absurd rfl) (absurd · (by decide))
  · exact finish_writeFrame ((sameHost_writeSent s).accept _) ((sameCtrl_writeSent s).accept _)
      ⟨_, accept_writeSent_butWriting s _⟩ (absurd rfl) (absurd · (by decide))

/-! ### The round trip (45 R112) -/

/-- A WRITE of some bytes that returned Success passed every test, and the device has accepted its
program. -/
theorem writeAccepted_of_success {s t : State} (hs : s.Consistent) (h1 : 1 ≤ s.lenNat)
    (h : execWrite s = .next t) (hr : t.x.result = 0) :
    s.addrNat % s.cfg.geo.pageSize + s.lenNat ≤ s.cfg.geo.pageSize ∧
      s.addrNat + s.lenNat ≤ s.cfg.geo.totalSize ∧ s.addrNat + s.lenNat ≤ 2 ^ 24 ∧
      t = writeAccepted s := by
  have rejected {u : State} {code : ResultCode} (ht : t = u.finish code)
      (hcode : resultCode code ≠ 0) : False := by
    subst ht
    exact hcode hr
  obtain ⟨hc, hp, hi, ⟨h0, -⟩ | ⟨-, -, ht⟩ | ⟨-, hv, hb, hcs, hx, -, hend⟩⟩ := execWrite_next h
  · omega
  · exact (rejected ht (by decide)).elim
  have h24 : s.addrNat + s.lenNat ≤ 2 ^ 24 :=
    Nat.not_lt.1 fun hlt => ne_true_of_eq_false hb (beyondReach_iff.2 hlt)
  obtain ⟨-, -, hpage, hin⟩ := validWrite_iff.1 hv
  have hw : wip (s.dev.ticks s.cfg 3).sr = false := by
    obtain ⟨-, ht⟩ | ⟨hw, -⟩ | ⟨hw, -⟩ := hend
    exacts [(rejected ht (by decide)).elim, hw, hw]
  refine ⟨hpage, hin, h24, ?_⟩
  rw [execWrite_idle hc hp hi hcs hx h1 hpage hin h24 hw (Dev.ticks_idle hs hw)] at h
  split at h
  · exact (Host.Outcome.next.inj h).symm
  · exact (rejected (Host.Outcome.next.inj h).symm (by decide)).elim

/-- The block is ready again after such a WRITE, however long the host waits. -/
theorem writeAccepted_ready {s : State} (hs : s.Ready) (n : Nat) :
    (engineTicks n (writeAccepted s)).Ready := by
  obtain ⟨⟨⟨hc, hcs, hx⟩, -⟩, hi⟩ := hs
  have hctrl : (engineTicks n (writeAccepted s)).ctrl =
      { s.ctrl with phase := .idle, off := s.lenNat } := writeAccepted_ctrl s
  unfold State.Ready State.Between State.BusFree
  rw [hctrl]
  exact ⟨⟨⟨(congrArg Config.wf (writeAccepted_cfg s)).trans hc, hcs, hx⟩, rfl⟩, hi⟩

/-- `WIP` shows what is pending after it, at every moment of the engine. -/
theorem writeAccepted_consistent (s : State) (n : Nat) :
    (engineTicks n (writeAccepted s)).Consistent :=
  Dev.ticks_consistent _ n (d := (writeAccepted s).dev) (writeAccepted_wip s).symm

/-- The bytes of the range once the engine has completed the program: each is `PROG` of what it was
when WRITE returned and of the byte written (20 R59, R61). -/
theorem writeAccepted_completed {s : State} {n i : Nat}
    (hpage : s.addrNat % s.cfg.geo.pageSize + s.lenNat ≤ s.cfg.geo.pageSize)
    (h24 : s.addrNat + s.lenNat ≤ 2 ^ 24)
    (hn : (engineTicks n (writeAccepted s)).dev.pending = none) (hi : i < s.lenNat) :
    (engineTicks n (writeAccepted s)).dev.array.read (s.addrNat + i) =
      progByte s.cfg.prog ((writeAccepted s).dev.array.read (s.addrNat + i)) (s.src.read i) := by
  obtain ⟨p, hp, hupdate⟩ := writeAccepted_pending s
  have haddr : s.wireAddr.toNat = s.addrNat := wireAddr_toNat (by omega)
  have hlength := Memory.length_readBytes s.src 0 s.lenNat
  rw [engineTicks_dev, Dev.ticks_completed hp hn, hupdate,
    updatedArray_program _ _ _ (by rwa [writeAccepted_cfg, haddr, hlength]), read_programBytes,
    haddr, hlength, if_pos (by omega), Nat.add_sub_cancel_left, Memory.getD_readBytes _ _ _ _ hi,
    Nat.zero_add, writeAccepted_cfg]

/-- Settles O57: READ finds the device idle, with the program completed, and returns its array. -/
theorem writeThenReadRoundTrip : Obligations.WriteThenReadRoundTrip := by
  intro s t n hs hcons h1 h hr hn
  obtain ⟨-, harray, -⟩ := onlyTheEngineChangesTheArray .write s t h
  obtain ⟨hpage, hin, h24, rfl⟩ := writeAccepted_of_success hcons h1 h hr
  refine ⟨harray, ?_⟩
  have hcompleted {i : Nat} := writeAccepted_completed (i := i) hpage h24 hn
  have hready := writeAccepted_ready hs n
  have hcons' := writeAccepted_consistent s n
  have hcfg : (engineTicks n (writeAccepted s)).cfg = s.cfg := writeAccepted_cfg s
  obtain ⟨-, hregs, -⟩ := writeAccepted_host s
  have hx : (engineTicks n (writeAccepted s)).x = { s.x with result := 0 } := hregs
  generalize engineTicks n (writeAccepted s) = u at *
  have hlen : u.lenNat = s.lenNat := by rw [State.lenNat, hx, State.lenNat]
  have haddr : u.addrNat = s.addrNat := by rw [State.addrNat, hx, State.addrNat]
  have hcheck : u.atCheck = u := engineTicks_of_none hn 3
  have hidle : wip u.atCheck.dev.sr = false := by
    rw [hcheck, ← hcons', hn]
    rfl
  obtain ⟨v, hread, hv, hdst, -⟩ := readReturnsArrayBytes u hready hcons' (hlen ▸ h1)
    (by rwa [haddr, hlen, hcfg]) (by rwa [haddr, hlen]) hidle
  rw [hlen, haddr, hcheck] at hdst
  refine ⟨v, hread, congrArg Regs.result hv, fun i hi => ?_⟩
  have hbyte := (hdst i hi).trans (hcompleted hi)
  refine ⟨hbyte, fun herased => ?_⟩
  rw [hbyte, herased, progByte_erased]

end Sys2Proof.Machine

/-! PROOFS. ERASE: the states it ends in, what each leaves of the host's side, of the controller and
of the device, its frame on every path, and the erase property. -/

namespace Sys2Proof.Machine

/-! ### The states that an ERASE ends in (46 R114) -/

/-- The state after ERASE's four transactions, when the device has not yet acted on the last. -/
def eraseIssued (s : State) : State :=
  eraseSent (handshakeDone (statusDone s)) s.wireAddr

/-- The state after an ERASE whose erase the device ignored. -/
def eraseIgnored (s : State) : State := (advanceCursor (eraseIssued s)).finish .success

/-- The state after an ERASE whose erase the device accepted. -/
def eraseAccepted (s : State) : State :=
  (advanceCursor (accept (eraseIssued s) (.erase s.wireAddr))).finish .success

@[simp] theorem eraseSent_ctrl (s : State) (a : Addr24) :
    (eraseSent s a).ctrl = { s.ctrl with phase := .deselect } := rfl

@[simp] theorem eraseSent_program (s : State) (a : Addr24) :
    (eraseSent s a).program = s.program := rfl

@[simp] theorem advanceCursor_ctrl (s : State) : (advanceCursor s).ctrl = s.ctrl := rfl

@[simp] theorem advanceCursor_program (s : State) : (advanceCursor s).program = s.program := rfl

@[simp] theorem accept_program (s : State) (v : ArrayUpdate) :
    (accept s v).program = s.program := rfl

@[simp] theorem eraseIssued_ctrl (s : State) :
    (eraseIssued s).ctrl = { s.ctrl with phase := .deselect } := by
  simp [eraseIssued]

@[simp] theorem eraseIssued_program (s : State) : (eraseIssued s).program = s.program := by
  simp [eraseIssued]

section Ends

variable {s t : State}

/-- The ends of an ERASE by the transactions it made: none, the busy check, both checks, or all
four, the last of them ignored or accepted. -/
theorem execErase_ends (h : execErase s = .next t) :
    (∃ code, t = s.finish code) ∨ t = (statusDone s).finish .busy ∨
      t = (handshakeDone (statusDone s)).finish .writeEnableFailed ∨
      t = eraseIgnored s ∨ t = eraseAccepted s := by
  obtain ⟨-, -, -, ⟨-, -, ht | ht⟩ | ⟨-, -, ht⟩ | ⟨-, -, -, -, -, -, h⟩⟩ := execErase_next h
  · exact .inl ⟨_, ht⟩
  · exact .inl ⟨_, ht⟩
  · exact .inl ⟨_, ht⟩
  obtain ⟨-, ht⟩ | ⟨-, -, ht⟩ | ⟨-, -, ht | ht⟩ := h
  · exact .inr (.inl ht)
  · exact .inr (.inr (.inl ht))
  · exact .inr (.inr (.inr (.inl ht)))
  · exact .inr (.inr (.inr (.inr ht)))

/-- An operation that returned Success did not end with another result. -/
theorem ne_finish_of_success {u : State} {code : ResultCode} (hr : t.x.result = 0)
    (hcode : resultCode code ≠ 0) : t ≠ u.finish code := by
  rintro rfl
  exact hcode hr

/-- The controller's position is all that an ERASE moves of it, and it comes back to IDLE. -/
theorem execErase_ctrl (h : execErase s = .next t) : t.ctrl = s.ctrl := by
  obtain ⟨-, hp, -⟩ := execErase_next h
  have hidle : s.ctrl = { s.ctrl with phase := .idle } := by rw [← hp]
  obtain ⟨code, rfl⟩ | rfl | rfl | rfl | rfl := execErase_ends h
  · exact hidle.symm
  · exact hidle.symm
  · simp [← hidle]
  · simp [eraseIgnored, ← hidle]
  · simp [eraseAccepted, accept_ctrl, ← hidle]

theorem execErase_program (h : execErase s = .next t) : t.program = s.program := by
  obtain ⟨code, rfl⟩ | rfl | rfl | rfl | rfl := execErase_ends h
  · rfl
  · rfl
  · simp
  · simp [eraseIgnored]
  · simp [eraseAccepted]

/-- What an ERASE leaves of the host's side: the cursor and the result are all that it writes
(10 R29). -/
theorem execErase_host (h : execErase s = .next t) :
    t.x = { s.x with addr := t.x.addr, count := t.x.count, result := t.x.result } ∧
      SameBytes s.dst t.dst ∧ SameBytes s.src t.src ∧ t.cfg = s.cfg ∧ t.program = s.program := by
  obtain ⟨hsrc, hdst, -⟩ := execErase_carried (b := 0) h
  obtain ⟨hcfg, hregs, -⟩ := effect_erase h
  refine ⟨?_, fun k => hdst k (Nat.zero_le k), sameBytes_of_eq hsrc, hcfg, execErase_program h⟩
  cases hregs with
  | none hi => cases hi
  | result _ _ hx => rw [hx]
  | cursor _ hx =>
    rw [hx]
    rfl

end Ends

/-! ### The device after an ERASE -/

section Device

variable (s : State)

/-- The moments of the two checks and of the erase: its header and the edges of chip-select
(20 R61). -/
theorem movedButLatch_eraseIssued : MovedButLatch 17 s (eraseIssued s) :=
  have sent (u : State) : MovedButLatch 6 u (eraseSent u s.wireAddr) :=
    movedButLatch_of_onBus rfl (eraseSent_dev u s.wireAddr)
  (movedButLatch_checked s).trans (sent _)

/-- Moving the cursor is the controller's alone. -/
theorem SameDeviceButWriting.advanceCursor {s t : State} (h : SameDeviceButWriting s t) :
    SameDeviceButWriting s (advanceCursor t) := h

theorem eraseIgnored_butWriting : SameDeviceButWriting (engineTicks 17 s) (eraseIgnored s) :=
  (movedButLatch_eraseIssued s).butWriting.advanceCursor.finish .success

theorem eraseAccepted_butWriting : SameDeviceButWriting (engineTicks 17 s) (eraseAccepted s) :=
  ((movedButLatch_eraseIssued s).butWriting.trans
    (accept_butWriting (eraseIssued s) _)).advanceCursor.finish .success

theorem eraseAccepted_pending :
    ∃ p, (eraseAccepted s).dev.pending = some p ∧ p.update = .erase s.wireAddr := ⟨_, rfl, rfl⟩

theorem eraseAccepted_wip : wip (eraseAccepted s).dev.sr = true := wip_withWip _ _

theorem sends_eraseIssued : sends s (eraseIssued s) [statusFrame s.cfg, wrenFrame s.cfg,
    statusFrame s.cfg, eraseFrame s.cfg s.wireAddr] := by
  have hsent := sends_eraseSent (handshakeDone (statusDone s)) s.wireAddr
  rw [handshakeDone_cfg] at hsent
  exact sends_trans (sends_checked s) hsent

theorem eraseAccepted_trace : (eraseAccepted s).trace = (eraseIssued s).trace := by
  simp [eraseAccepted]

theorem sends_eraseAccepted : sends s (eraseAccepted s) [statusFrame s.cfg, wrenFrame s.cfg,
    statusFrame s.cfg, eraseFrame s.cfg s.wireAddr] :=
  sends_congr (sends_eraseIssued s) rfl (eraseAccepted_trace s)

end Device

/-! ### An ERASE that the device accepts -/

/-- Settles O44: a device found idle has nothing pending, so the handshake reports the latch that
the write-enable set, and the erase is accepted. -/
theorem eraseIsAcceptedAndMovesTheCursor : Obligations.EraseIsAcceptedAndMovesTheCursor := by
  intro s ⟨⟨⟨hc, hcs, hx⟩, hp⟩, hi⟩ hs h1 hal ht h24 hw hl
  have hnone : (s.dev.ticks s.cfg 3).pending = none := Dev.ticks_idle hs hw
  have hexec : exec .erase s = .next (eraseAccepted s) :=
    (execErase_idle hc hp hi hcs hx h1 hal ht h24 hw hnone).trans
      (if_pos (checked_enabled hnone hw hl))
  obtain ⟨-, -, -, hcursor⟩ := onlyEraseWritesTheCursor .erase s _ hexec
  obtain ⟨haddr, hcount⟩ := hcursor rfl rfl (by omega)
  obtain ⟨hregs, hdst, hsrc, hcfg, hprogram⟩ := execErase_host hexec
  obtain ⟨p, hpending, hupdate⟩ := eraseAccepted_pending s
  have hdev := eraseAccepted_butWriting s
  rw [engineTicks_of_idle hnone (by omega)] at hdev
  exact ⟨_, p, hexec, rfl, haddr, hcount, by rw [haddr, Nat.add_mod_right, hal], hregs, hpending,
    hupdate, eraseAccepted_wip s, sends_eraseAccepted s, hdev, hsrc, hdst, hcfg, hprogram,
    execErase_ctrl hexec⟩

/-! ### The frame of ERASE -/

/-- What an ERASE leaves of the device, by the transactions made: no update is accepted before the
fourth, and the result after it is Success. -/
theorem execErase_device {s t : State} (h : execErase s = .next t) :
    DeviceMovedButWriting s t ∧ (t.x.result ≠ 0 → NothingAccepted s t) ∧
      (t.x.result = 1 ∨ t.x.result = 2 → DeviceMoved s t) := by
  have unaccepted {u : State} (hmoved : DeviceMoved s u) : DeviceMovedButWriting s u ∧
      (u.x.result ≠ 0 → NothingAccepted s u) ∧
      (u.x.result = 1 ∨ u.x.result = 2 → DeviceMoved s u) :=
    ⟨hmoved.butWriting, fun _ => hmoved.nothingAccepted, fun _ => hmoved⟩
  have hfailed : ¬ (resultCode .writeEnableFailed = 1 ∨ resultCode .writeEnableFailed = 2) := by
    decide
  have hsuccess : ¬ (resultCode .success = 1 ∨ resultCode .success = 2) := by decide
  obtain ⟨code, rfl⟩ | rfl | rfl | rfl | rfl := execErase_ends h
  · exact unaccepted ⟨0, SameDevice.refl s⟩
  · exact unaccepted ⟨4, sameDevice_of_onBus (statusDone_dev s)⟩
  · have hchecked := movedButLatch_checked s
    exact ⟨⟨_, hchecked.butWriting.finish _⟩, fun _ => hchecked.nothingAccepted,
      (absurd · hfailed)⟩
  · exact ⟨⟨_, eraseIgnored_butWriting s⟩, absurd rfl, (absurd · hsuccess)⟩
  · exact ⟨⟨_, eraseAccepted_butWriting s⟩, absurd rfl, (absurd · hsuccess)⟩

/-- Settles O45: the host's side, the controller and the device of an ERASE put together, and an
error leaves the cursor. The name is the title: `eraseFrame` is the frame on the wire. -/
theorem eraseFrameOnEveryPath : Obligations.EraseFrame := by
  intro s t h
  obtain ⟨hregs, hdst, hsrc, hcfg, hprogram⟩ := execErase_host h
  obtain ⟨-, -, hcursor, -⟩ := onlyEraseWritesTheCursor .erase s t h
  obtain ⟨hdev, hnone, hmoved⟩ := execErase_device h
  have hctrl : SameCtrlButPosition s t := by rw [SameCtrlButPosition, execErase_ctrl h]
  refine ⟨hregs, fun hr => ?_, hmoved, hdst, hsrc, hdev, hctrl, hcfg, hprogram⟩
  obtain ⟨haddr, hcount⟩ := hcursor (.inr hr)
  exact ⟨haddr, hcount, hnone hr⟩

/-! ### The erase property (46 R116) -/

/-- An ERASE with a non-zero count that returned Success passed every test, and the device has
accepted its erase. -/
theorem eraseAccepted_of_success {s t : State} (hs : s.Consistent) (h1 : 1 ≤ s.countNat)
    (h : execErase s = .next t) (hr : t.x.result = 0) :
    s.addrNat % s.cfg.geo.eraseBlockSize = 0 ∧
      s.addrNat + s.cfg.geo.eraseBlockSize ≤ s.cfg.geo.totalSize ∧
      s.addrNat + s.cfg.geo.eraseBlockSize ≤ 2 ^ 24 ∧ t = eraseAccepted s := by
  obtain ⟨hc, hp, hi, ⟨h0, -⟩ | ⟨-, -, ht⟩ | ⟨-, hv, hb, hcs, hx, -, hend⟩⟩ := execErase_next h
  · omega
  · exact absurd ht (ne_finish_of_success hr (by decide))
  have h24 : s.addrNat + s.cfg.geo.eraseBlockSize ≤ 2 ^ 24 :=
    Nat.not_lt.1 fun hlt => ne_true_of_eq_false hb (beyondReach_iff.2 hlt)
  obtain ⟨hal, hin⟩ := validErase_iff.1 hv
  have hw : wip (s.dev.ticks s.cfg 3).sr = false := by
    obtain ⟨-, ht⟩ | ⟨hw, -⟩ | ⟨hw, -⟩ := hend
    exacts [absurd ht (ne_finish_of_success hr (by decide)), hw, hw]
  refine ⟨hal, hin, h24, ?_⟩
  rw [execErase_idle hc hp hi hcs hx h1 hal hin h24 hw (Dev.ticks_idle hs hw)] at h
  split at h
  · exact (Host.Outcome.next.inj h).symm
  · exact absurd (Host.Outcome.next.inj h).symm (ne_finish_of_success hr (by decide))

/-- An erase of an aligned address leaves FF in the block that starts there, and every other byte as
it was (20 R60). -/
theorem read_updatedArray_erase (c : Config) (m : Memory) (k : Nat) {a : Addr24}
    (hal : a.toNat % c.geo.eraseBlockSize = 0) (j : Nat) :
    (updatedArray c m k (.erase a)).read j =
      if a.toNat ≤ j ∧ j < a.toNat + c.geo.eraseBlockSize then 0xFF else m.read j := by
  rw [updatedArray, blockBase, hal, Nat.sub_zero, Memory.read_clear]
  rfl

/-- The array once the engine has completed the erase (20 R60, R61). -/
theorem eraseAccepted_completed {s : State} {n : Nat} (hcfg : (eraseAccepted s).cfg = s.cfg)
    (hal : s.addrNat % s.cfg.geo.eraseBlockSize = 0) (h24 : s.addrNat < 2 ^ 24)
    (hn : (engineTicks n (eraseAccepted s)).dev.pending = none) (j : Nat) :
    (engineTicks n (eraseAccepted s)).dev.array.read j =
      if s.addrNat ≤ j ∧ j < s.addrNat + s.cfg.geo.eraseBlockSize then 0xFF
      else (eraseAccepted s).dev.array.read j := by
  obtain ⟨p, hp, hupdate⟩ := eraseAccepted_pending s
  have haddr : s.wireAddr.toNat = s.addrNat := wireAddr_toNat h24
  rw [engineTicks_dev, Dev.ticks_completed hp hn, hupdate, hcfg,
    read_updatedArray_erase _ _ _ (by rwa [haddr]), haddr]

/-- `WIP` shows what is pending after it, at every moment of the engine. -/
theorem eraseAccepted_consistent (s : State) (n : Nat) :
    (engineTicks n (eraseAccepted s)).Consistent :=
  Dev.ticks_consistent _ n (d := (eraseAccepted s).dev) (eraseAccepted_wip s).symm

/-- Whether a block is ready is a matter of its configuration and its controller. -/
theorem State.Ready.of_ctrl {s t : State} (hs : s.Ready) (hcfg : t.cfg = s.cfg)
    (hctrl : t.ctrl = s.ctrl) : t.Ready := by
  unfold State.Ready State.Between State.BusFree at hs ⊢
  rwa [hcfg, hctrl]

/-- A READ of a range of the array within reach, with nothing pending in the device: it returns the
array as it is (44 R109). -/
theorem read_of_settled {s : State} (hs : s.Ready) (hcons : s.Consistent)
    (hn : s.dev.pending = none) (h1 : 1 ≤ s.lenNat)
    (ht : s.addrNat + s.lenNat ≤ s.cfg.geo.totalSize) (h24 : s.addrNat + s.lenNat ≤ 2 ^ 24) :
    ∃ t, exec .read s = .next t ∧ t.x.result = 0 ∧
      ∀ i < s.lenNat, t.dst.read i = s.dev.array.read (s.addrNat + i) := by
  have hcheck : s.atCheck = s := engineTicks_of_none hn 3
  have hidle : wip s.atCheck.dev.sr = false := by
    rw [hcheck, ← hcons, hn]
    rfl
  obtain ⟨t, hread, hx, hdst, -⟩ := readReturnsArrayBytes s hs hcons h1 ht h24 hidle
  rw [hcheck] at hdst
  exact ⟨t, hread, congrArg Regs.result hx, hdst⟩

/-- Settles O58: the READ finds nothing pending, so it returns the array as the completed erase left
it. -/
theorem eraseThenReadGivesErasedBytes : Obligations.EraseThenReadGivesErasedBytes := by
  intro s t u n hs hcons h1 h hr hn hu
  obtain ⟨-, harray, -⟩ := onlyTheEngineChangesTheArray .erase s t h
  obtain ⟨-, -, -, hcfg, -⟩ := execErase_host h
  have hctrl := execErase_ctrl h
  obtain ⟨hal, hin, h24, rfl⟩ := eraseAccepted_of_success hcons h1 h hr
  have ⟨⟨⟨hc, _⟩, _⟩, _⟩ := hs
  have hblock := (config_bounds hc).2.1
  have hbytes := eraseAccepted_completed hcfg hal (by omega) hn
  have hcons' := eraseAccepted_consistent s n
  have hucfg : u.cfg = s.cfg := by rw [hu]; exact hcfg
  have huctrl : u.ctrl = s.ctrl := by rw [hu]; exact hctrl
  have hdev : u.dev = (engineTicks n (eraseAccepted s)).dev := by rw [hu]; rfl
  have haddr : u.addrNat = s.addrNat := by rw [hu]; rfl
  have hlen : u.lenNat = s.cfg.geo.eraseBlockSize := by
    rw [hu]
    exact (BitVec.toNat_ofNat ..).trans (Nat.mod_eq_of_lt (by omega))
  rw [State.Consistent, ← hdev] at hcons'
  rw [← hdev] at hn hbytes
  obtain ⟨v, hread, hv, hdst⟩ := read_of_settled (hs.of_ctrl hucfg huctrl) hcons' hn
    (by rwa [hlen]) (by rwa [haddr, hlen, hucfg]) (by rwa [haddr, hlen])
  rw [hlen, haddr] at hdst
  refine ⟨harray, ⟨v, hread, hv, fun i hi => ?_⟩, fun k hk => ?_⟩
  · rw [hdst i hi, hbytes, if_pos (by omega)]
  · rw [hbytes, if_neg (by omega)]

end Sys2Proof.Machine

/-! PROOFS. The queries and the block at reset: IS_BUSY, GET_GEOMETRY, and a step with no line of the
host. -/

namespace Sys2Proof.Machine

/-! ### The queries (47 R117, R119) -/

/-- An operation begun in IDLE that ends in IDLE leaves the controller where it found it (10 R24). -/
theorem toIdle_ctrl {s : State} (hp : s.ctrl.phase = .idle) : s.toIdle.ctrl = s.ctrl := by
  change { s.ctrl with phase := .idle } = s.ctrl
  rw [← hp]

/-- IS_BUSY leaves the controller where it found it, in IDLE (10 R24). -/
theorem queried_ctrl {s : State} (hp : s.ctrl.phase = .idle) : (queried s).ctrl = s.ctrl :=
  toIdle_ctrl hp

/-- Settles O53: the state after IS_BUSY, `queried`, read field by field. -/
theorem isBusyReportsWip : Obligations.IsBusyReportsWip := by
  refine ⟨rfl, fun s ⟨⟨⟨hc, hcs, hx⟩, hp⟩, hi⟩ => ?_⟩
  exact ⟨queried s, queryBusy_eq hc hp hi hcs hx, rfl, sends_congr (sends_statusDone s) rfl rfl,
    sameDevice_queried s, fun _ => rfl, fun _ => rfl, rfl, rfl, queried_ctrl hp⟩

/-- Settles O56: GET_GEOMETRY writes `x[geo]` and empties the capture, and finds both so when it is
called again. -/
theorem getGeometryReturnsTheGeometry : Obligations.GetGeometryReturnsTheGeometry := by
  refine ⟨rfl, fun s hc hp => ?_⟩
  have hagain : execGetGeometry (s.setGeo s.cfg.geo).toIdle =
      .next (s.setGeo s.cfg.geo).toIdle := execGetGeometry_of_idle hc rfl
  exact ⟨_, execGetGeometry_of_idle hc hp, rfl, rfl, toIdle_ctrl hp, rfl, rfl, rfl, rfl, rfl, rfl,
    hagain⟩

/-! ### The block at reset (70 R134) -/

/-- Settles O8: the engine alone moves, and it finds nothing pending in the device. -/
theorem resetWaitsForTheHost : Obligations.ResetWaitsForTheHost := by
  have hengine : engineTick State.reset = State.reset := engineTicks_of_none rfl 1
  exact (step_of_no_line rfl).trans (congrArg Host.Outcome.next hengine)

end Sys2Proof.Machine
